-- ==== Sys2Proof/Word.lean ====
section
/-!
DEFINITION. The word types of the block: 32-bit registers and addresses (00_scope R10), 8-bit samples and bytes,
and the bit strings of 00_scope R13.
-/

namespace Sys2Proof

/-- A register's value, a command word, a register of addresses or counts (00_scope R10: 32 bits). -/
abbrev Word := BitVec 32

/-- A sample, an intensity value or a byte of data memory (00_scope R10: 8 bits, unsigned). -/
abbrev Byte := BitVec 8

/-- A bit string (00_scope R13): element 0 is the first bit, the one sent first; "0" is `false`, "1" is `true`. -/
abbrev BitString := List Bool

end Sys2Proof
end

