-- ==== Sys2Proof/Syntax.lean ====
section
/-!
DEFINITION. The command set: one constructor per row of spec/opcode_table.json (30_encoding R99). A command word has no
operand field (30_encoding R98), so no constructor has an argument.
-/

namespace Sys2Proof

/-- The nine commands of HFA command set revision 1 (30_encoding R99). -/
inductive Instr where
  /-- 40_control R111. -/
  | nop
  /-- 40_control R112. -/
  | clear
  /-- 41_frequency_analyzer R121. -/
  | freq
  /-- 42_tree_builder R131. -/
  | tree
  /-- 43_code_assigner R146. -/
  | codes
  /-- 44_bitpacker_encoder R156. -/
  | pack
  /-- 45_bitpacker_decoder R183. -/
  | unpack
  /-- 44_bitpacker_encoder R172. -/
  | tstore
  /-- 45_bitpacker_decoder R176. -/
  | tload
  deriving DecidableEq, Repr

end Sys2Proof
end

