-- ==== Sys2Proof/WellFormed.lean ====
section
/-!
DEFINITION. Well-formed commands and command words. A command has no operands, so every term of `Instr` is well formed;
what can be ill formed is a 32-bit command word (30_encoding R96, R100): its RSV field or its OP field.
-/

namespace Sys2Proof

/-- The opcodes assigned by 30_encoding R99. -/
def assignedOpcodes : List Byte :=
  [0x00#8, 0x01#8, 0x10#8, 0x20#8, 0x30#8, 0x40#8, 0x50#8, 0x60#8, 0x61#8]

/-- The RSV field, bits 31:8, is 0 (30_encoding R96). -/
def wordRsvClear (w : Word) : Bool := w.extractLsb' 8 24 == 0#24

/-- The OP field, bits 7:0, is one of the nine assigned opcodes (30_encoding R99). -/
def wordOpcodeAssigned (w : Word) : Bool := assignedOpcodes.contains (w.extractLsb' 0 8)

/-- A command word that is not reserved (30_encoding R100). -/
def wordWellFormed (w : Word) : Bool := wordRsvClear w && wordOpcodeAssigned w

/-- Every command is well formed: it carries no operand that could be out of range (30_encoding R98). -/
def Instr.wellFormed : Instr → Bool
  | .nop | .clear | .freq | .tree | .codes | .pack | .unpack | .tstore | .tload => true

end Sys2Proof
end

