-- ==== Sys2Proof/Decode.lean ====
section
/-!
DEFINITION. The decoder of 30_encoding R97, total on every 32-bit word, and the encoder written from the same table
(30_encoding R99).
-/

namespace Sys2Proof

/-- Why a word is reserved (30_encoding R100). Both kinds complete with ILLEGAL_COMMAND. -/
inductive DecodeError where
  /-- RSV, bits 31:8, is not 0. -/
  | reservedBitsSet
  /-- RSV is 0 and OP is none of the nine opcodes. -/
  | unassignedOpcode
  deriving DecidableEq, Repr

/-- The OP field of a command word, bits 7:0 (30_encoding R96). -/
def opField (w : Word) : Byte := w.extractLsb' 0 8

/-- The RSV field of a command word, bits 31:8 (30_encoding R96). -/
def rsvField (w : Word) : BitVec 24 := w.extractLsb' 8 24

/-- The opcode map read from the opcode (30_encoding R97, R99). -/
def instrOfOpcode (op : Byte) : Option Instr :=
  if op = 0x00#8 then some .nop
  else if op = 0x01#8 then some .clear
  else if op = 0x10#8 then some .freq
  else if op = 0x20#8 then some .tree
  else if op = 0x30#8 then some .codes
  else if op = 0x40#8 then some .pack
  else if op = 0x50#8 then some .unpack
  else if op = 0x60#8 then some .tstore
  else if op = 0x61#8 then some .tload
  else none

/-- 30_encoding R97: RSV is checked first, then OP. -/
def decode (w : Word) : Except DecodeError Instr :=
  if rsvField w ≠ 0#24 then .error .reservedBitsSet
  else match instrOfOpcode (opField w) with
    | some i => .ok i
    | none => .error .unassignedOpcode

/-- The opcode map written from the command (30_encoding R99). -/
def opcodeOf : Instr → Byte
  | .nop => 0x00#8
  | .clear => 0x01#8
  | .freq => 0x10#8
  | .tree => 0x20#8
  | .codes => 0x30#8
  | .pack => 0x40#8
  | .unpack => 0x50#8
  | .tstore => 0x60#8
  | .tload => 0x61#8

/-- The command word of a command: RSV = 0 above the opcode (30_encoding R96, R99). -/
def encode (i : Instr) : Word := 0#24 ++ opcodeOf i

/-- The command the decoder reads from a table row's bits. A command is one 32-bit register write (30_encoding R101), so
the bits above `nbits` are 0 and bit 0 is the least significant bit of the word. -/
def decodeTableWord (nbits w : Nat) : Option Instr :=
  match decode (BitVec.ofNat 32 (w % 2 ^ nbits)) with
  | .ok i => some i
  | .error _ => none

end Sys2Proof
end

