-- ==== Sys2Proof/Config.lean ====
section
/-!
DEFINITION. What is fixed for the machine: the constants of 00_scope R10, the free values (opaque constants without a
body, 00_scope R18, listed in 93_implementation_defined section 2) and the two platform parameters no rule reads.
-/

namespace Sys2Proof

/-- The constant the ID register reads (10_state R27): ASCII "HFA1". -/
def Config.idValue : Word := 0x48464131#32

/-- Size of the register space in bytes (10_state R24). -/
def Config.registerSpace : Nat := 4096

/-- Number of data-memory addresses (20_memory R71). -/
def Config.addressSpace : Nat := 2 ^ 32

/-- The reserved top address, never admitted (20_memory R75). -/
def Config.topAddress : Nat := 0xFFFFFFFF

/-- Capacity of the node store (00_scope R10). -/
def Config.nodeCapacity : Nat := 511

/-- MAX_LEN, the longest code in bits (00_scope R10). -/
def Config.maxLen : Nat := 255

/-- FREE VALUE (93_implementation_defined U1): what a host register read gives while BUSY where 10_state R49 leaves it
unspecified, for the n-th free draw. Log 5. -/
opaque Config.freeWord : Nat → Word

/-- FREE VALUE (93_implementation_defined U2): what a host memory read of the running command's write region gives,
for the n-th free draw and the byte's address. Log 5. -/
opaque Config.freeByte : Nat → Nat → Byte

/-- FREE VALUE (93_implementation_defined U8): how many of a command's memory writes were performed when `rst` stops it,
for the n-th free draw. Log 6. -/
opaque Config.freeWriteCount : Nat → Nat

/-- FREE VALUE (93_implementation_defined U11): how many of its turns the host takes before the engine performs, for the
n-th free draw, where the schedule of the state does not say. A finite number: weak fairness (00_scope R19). Log 4. -/
opaque Config.freeHostTurns : Nat → Nat

/-- OPEN parameter REG_BASE (60_exceptions R218): where the register block sits in the host's address map. Programs use
offsets, and no rule of the block reads it. Log 12. -/
opaque Config.regBase : Nat

/-- OPEN parameter IRQ_LINE (60_exceptions R215): where `irq` is wired at the host. No rule of the block reads it. Log 12. -/
opaque Config.irqLine : Nat

end Sys2Proof
end

