-- ==== Sys2Proof/Machine/State.lean ====
section
/-!
DEFINITION. The state of the block (10_state R21), of the data memory and of the platform it runs on (20_memory R71, R76),
and the host's side of a run as plain data (30_encoding R102); the reasons a step can stop; the state after reset
(70_reset_and_hazards R231).
-/

namespace Sys2Proof.Machine

/-- Data memory (20_memory R71): address and byte pairs, addresses strictly rising, no byte equal to what an unlisted
address reads as (`Memory.wf`). -/
abbrev Memory := List Host.Cell

/-- What stands at a data address (20_memory R76, R91). -/
inductive AddrKind where
  /-- Plain memory: the address answers, a read has no side effect and returns the last byte written. -/
  | memory
  /-- A device register: the address answers, but not as plain memory. -/
  | device
  /-- Nothing answers an engine access here. -/
  | absent
  deriving DecidableEq, Repr

/-- One stretch of the platform's data addresses. -/
structure PlatformRegion where
  base : Nat
  size : Nat
  kind : AddrKind
  deriving DecidableEq, Repr

/-- The platform's map, the OPEN parameter MemAdmit together with R91's plain memory: the first region that holds an
address says its kind; an address in none is plain memory. Every MemAdmit is such a list. Log 1. -/
abbrev Platform := List PlatformRegion

/-- The stored STATUS fields (10_state R29). BUSY and TREE_VALID are computed from `eng` and `root`. -/
structure StatusBits where
  done : Bool
  err : Bool
  empty : Bool
  overrun : Bool
  lastOp : Byte
  deriving DecidableEq, Repr

/-- The error registers (10_state R31 to R34). -/
structure ErrorRegs where
  code : BitVec 4
  index : Word
  value : Word
  faultAddr : Word
  deriving DecidableEq, Repr

/-- The configuration registers (10_state R36 to R38). -/
structure CfgRegs where
  width : BitVec 16
  height : BitVec 16
  srcBase : Word
  dstBase : Word
  tableBase : Word
  inBytes : Word
  deriving DecidableEq, Repr

/-- The result registers (10_state R39, R40). -/
structure ResultRegs where
  streamBytes : Word
  streamLastBits : BitVec 4
  tableBytes : Word
  numSymbols : BitVec 9
  treeNodes : BitVec 10
  rootWeight : Word
  codeEntries : BitVec 9
  maxCodeLen : BitVec 8
  deriving DecidableEq, Repr

/-- An entry of the node store (10_state R43). Child indices are node indices, below 511. -/
inductive Node where
  | leaf (value : Byte) (weight : Word)
  | internal (weight : Word) (left right : Nat)
  deriving DecidableEq, Repr

/-- ENG and PENDING_WORD (10_state R23, R28): BUSY(op) with op the opcode of the accepted word. -/
inductive Engine where
  | idle
  | busy (pendingWord : Word)
  deriving DecidableEq, Repr

/-- The host statements of 30_encoding R102 and the parts of the pseudo-operations of R103 that are no register or memory
access. A register access carries its width in bytes and its offset, so that the accesses 10_state R24 puts outside the
model can be written down and refused. -/
inductive HostOp where
  /-- `WR`: a register-port write of `bytes` bytes at an offset. `CMD` is a `WR` to offset 0x004. -/
  | wr (bytes offset : Nat) (data : Word)
  /-- `RD`: a register-port read of `bytes` bytes at an offset. -/
  | rd (bytes offset : Nat)
  /-- `MEMWR`: the host writes bytes in data memory from an address on. -/
  | memWr (addr : Nat) (data : List Byte)
  /-- `MEMRD`: the host reads n bytes of data memory. -/
  | memRd (addr n : Nat)
  /-- `WAIT`: reads STATUS, and again while the value read has BUSY = 1. -/
  | wait
  /-- The first part of `WAITIRQ`: waits for `irq` = 1. -/
  | awaitIrq
  /-- The last part of `RUN`: where the STATUS just read has ERR = 1, reads ERR_CODE and halts the host program. -/
  | stopOnError
  /-- Asserts and releases the reset input `rst` (70_reset_and_hazards R231, R232). -/
  | rst
  deriving DecidableEq, Repr

/-- What a host statement was given: the value of a register read, or the bytes of a memory read. -/
inductive Observation where
  | register (offset : Nat) (value : Word)
  | memory (addr : Nat) (bytes : List Byte)
  deriving DecidableEq, Repr

/-- The two agents (00_scope R6). -/
inductive Agent where
  | host
  | engine
  deriving DecidableEq, Repr

/-- The whole machine. -/
structure State where
  /-- STATUS's stored fields (10_state R29). -/
  status : StatusBits
  /-- ERR_CODE, ERR_INDEX, ERR_VALUE, FAULT_ADDR (10_state R31 to R34). -/
  errors : ErrorRegs
  /-- INT_EN.DONE_IE (10_state R35). -/
  doneIe : Bool
  /-- WIDTH, HEIGHT, SRC_BASE, DST_BASE, TABLE_BASE, IN_BYTES (10_state R36 to R38). -/
  cfg : CfgRegs
  /-- STREAM_BYTES to MAX_CODE_LEN (10_state R39, R40). -/
  results : ResultRegs
  /-- FREQ[0..255] (10_state R41). -/
  freq : Vector Word 256
  /-- NODE[0..NODE_COUNT-1]; NODE_COUNT is its length (10_state R43). -/
  nodes : List Node
  /-- ROOT while TREE_VALID = 1; `none` is the spec's "no tree", TREE_VALID = 0 (10_state R44). -/
  root : Option Nat
  /-- CODE_BITS[0..255]; CODE_LEN[v] is the length of entry v, and [] is "no entry" (10_state R45). -/
  codes : Vector BitString 256
  /-- ENG and PENDING_WORD (10_state R23, R28). -/
  eng : Engine
  /-- The data memory (20_memory R71, R72). -/
  mem : Memory
  /-- Which data addresses answer the engine, and as what (20_memory R76, R91). No step changes it. -/
  platform : Platform
  /-- The host's statements still to run, oldest first (30_encoding R102). The model's own field, log 3. -/
  host : List HostOp
  /-- What the host's reads were given, newest first (30_encoding R102). The model's own field, log 3. -/
  observed : List Observation
  /-- Who moves next, at each place where the host and the engine both can (00_scope R19); where it is empty a free value
  gives the next entries. The model's own field, log 4. -/
  schedule : List Agent
  /-- How many free values have been drawn (00_scope R18). The model's own field, log 5. -/
  draws : Nat
  deriving DecidableEq, Repr

/-- Why a step stops with a fault. -/
inductive Fault where
  /-- A host MEMWR or MEMRD that names an address of 2^32 or more, where no data memory is (20_memory R71). Raised by
  the host's memory statements. Safe: no command raises it, and the block has no such access. Log 13. -/
  | hostAddressOutsideMemory
  deriving DecidableEq, Repr

/-- Why the model has no meaning for a step (00_scope R18, "outside the model"). -/
inductive Refusal where
  /-- An instruction without a meaning in the model. Raised by a refused arm of exec. Safe. -/
  | notModelled (mnemonic : String)
  /-- A PACK or UNPACK whose read and write regions overlap (20_memory R87). Raised by their meanings, and by a reset
  that stops one. Safe. -/
  | overlappingRegions
  /-- A command region that maps a device (20_memory R91). Raised by the meanings of FREQ, PACK, UNPACK, TSTORE and
  TLOAD, and by a reset that stops one. Safe. -/
  | deviceRegion
  /-- The host writes a byte of a running command's regions (20_memory R85). Raised by MEMWR. Safe. -/
  | hostWroteRegion
  /-- A register access that is not an aligned 32-bit access of the register space (10_state R24). Raised by WR and RD.
  Safe. -/
  | badRegisterAccess
  /-- The host accesses a device of the platform, whose behaviour the spec does not give (20_memory R91). Raised by MEMWR
  and MEMRD. Safe. -/
  | hostDeviceAccess
  deriving DecidableEq, Repr

/-- An error a command raises (60_exceptions R201), with what R202 says it records. -/
inductive CommandError where
  /-- PACK met the sample `value` at `index`, which has no code (44_bitpacker_encoder R156). -/
  | inconsistentCodeTable (index : Nat) (value : Byte)
  /-- TLOAD or UNPACK: sub-cause and position (45_bitpacker_decoder R179). -/
  | corruptArtifact (sub index : Nat)
  /-- An engine access to `addr` was not admitted (20_memory R76), at the position `index` its command records. -/
  | busError (index addr : Nat)
  /-- The accepted word is reserved (60_exceptions R203). -/
  | illegalCommand (word : Word)
  deriving DecidableEq, Repr

/-- How a command ended early: the error, the bytes it had written from the start of its write region, and how many bytes
of its lazily read region it had read (20_memory R77). -/
structure Abort where
  error : CommandError
  wrote : List Byte
  read : Nat
  deriving DecidableEq, Repr

/-- The machine right after reset (70_reset_and_hazards R231). Data memory lists nothing (log 2), the platform admits every
address but the reserved one (log 1), and the host has nothing to do (log 3). -/
def State.reset : State where
  status := { done := false, err := false, empty := false, overrun := false, lastOp := 0x00#8 }
  errors := { code := 0#4, index := 0#32, value := 0#32, faultAddr := 0#32 }
  doneIe := false
  cfg := { width := 0#16, height := 0#16, srcBase := 0#32, dstBase := 0#32, tableBase := 0#32, inBytes := 0#32 }
  results := { streamBytes := 0#32, streamLastBits := 0#4, tableBytes := 0#32, numSymbols := 0#9, treeNodes := 0#10,
               rootWeight := 0#32, codeEntries := 0#9, maxCodeLen := 0#8 }
  freq := Vector.replicate 256 0#32
  nodes := []
  root := none
  codes := Vector.replicate 256 []
  eng := .idle
  mem := []
  platform := []
  host := []
  observed := []
  schedule := []
  draws := 0

end Sys2Proof.Machine
end

