-- ==== Sys2Proof/Machine/Bits.lean ====
section
/-!
DEFINITION. Bytes and bit strings, MSB-first (20_memory R81, 44_bitpacker_encoder R170), and tables indexed by an
intensity value (10_state R41, R45).
-/

namespace Sys2Proof.Machine

/-- Bit n of a byte, with bit 7 the most significant (45_bitpacker_decoder R176). -/
def byteBit (b : Byte) (n : Nat) : Bool := b.getLsbD n

/-- The eight bits of a byte in stream order: bit 7 first (20_memory R81). -/
def bitsOfByte (b : Byte) : BitString :=
  [byteBit b 7, byteBit b 6, byteBit b 5, byteBit b 4, byteBit b 3, byteBit b 2, byteBit b 1, byteBit b 0]

/-- The value of the first k bits of a bit string, first bit most significant, missing bits 0. -/
def natOfBits : Nat → BitString → Nat
  | 0, _ => 0
  | _ + 1, [] => 0
  | k + 1, b :: bs => (if b then 2 ^ k else 0) + natOfBits k bs

/-- A byte from the first eight bits of a bit string, bit 7 first, missing bits 0 (20_memory R81: zero-padded). -/
def byteOfBits (bs : BitString) : Byte := BitVec.ofNat 8 (natOfBits 8 bs)

/-- The first n bytes of a bit string laid out MSB-first. -/
def bytesOfBits : Nat → BitString → List Byte
  | 0, _ => []
  | n + 1, bs => byteOfBits bs :: bytesOfBits n (bs.drop 8)

/-- The bit string that a byte sequence carries, MSB-first (20_memory R81). -/
def bitsOfBytes (bytes : List Byte) : BitString := bytes.flatMap bitsOfByte

/-- How many bytes hold a number of bits: ceil(n / 8). -/
def bytesFor (nbits : Nat) : Nat := (nbits + 7) / 8

/-- The bytes that hold a whole bit string, the last one zero-padded (20_memory R81). -/
def packBytes (bs : BitString) : List Byte := bytesOfBits (bytesFor bs.length) bs

/-- The 256 intensity values in ascending order. -/
def allValues : List Byte := (List.range 256).map (BitVec.ofNat 8)

/-- Entry v of a table indexed by intensity value. -/
def tabGet {α : Type} (t : Vector α 256) (v : Byte) : α := t[v.toNat]'v.isLt

/-- The table with entry v replaced. -/
def tabSet {α : Type} (t : Vector α 256) (v : Byte) (x : α) : Vector α 256 := t.set v.toNat x v.isLt

/-- The table of a function of the intensity value. -/
def tabOf {α : Type} (f : Byte → α) : Vector α 256 := Vector.mk (Array.mk (allValues.map f)) (by simp [allValues])

end Sys2Proof.Machine
end

