-- ==== Sys2Proof/Machine/Ops.lean ====
section
/-!
DEFINITION. The named operations every command is written over: data memory and admission (20_memory R71 to R77), regions
(R73, R86, R91), raising an error and completing (60_exceptions R207, R210), accepting a command (10_state R28).
-/

namespace Sys2Proof.Machine

/-! ### Data memory -/

/-- What an address that memory does not list reads as. The spec leaves launch contents to the platform (20_memory R72,
OPEN MEM0); 0 is the default it names for testing. DESIGN CHOICE, log 2. -/
def unwrittenByte : Byte := 0x00#8

/-- The byte at an address (20_memory R74). -/
def Memory.read : Memory → Nat → Byte
  | [], _ => unwrittenByte
  | c :: m, a => if c.1 = a then c.2 else Memory.read m a

/-- Makes the byte at an address equal to b (20_memory R74), keeping the canonical form: rising addresses, and no entry
equal to what an unlisted address reads as. -/
def Memory.write : Memory → Nat → Byte → Memory
  | [], a, b => if b = unwrittenByte then [] else [(a, b)]
  | c :: m, a, b =>
    if a < c.1 then (if b = unwrittenByte then c :: m else (a, b) :: c :: m)
    else if a = c.1 then (if b = unwrittenByte then m else (a, b) :: m)
    else c :: Memory.write m a b

/-- Addresses of a memory rise strictly from above a bound (`none`: no bound), stay in the address space, and no byte is
what an unlisted address reads as. -/
def Memory.wfFrom : Nat → Memory → Bool
  | _, [] => true
  | lo, c :: m => decide (lo ≤ c.1) && decide (c.1 < Config.addressSpace) && (c.2 != unwrittenByte) && Memory.wfFrom (c.1 + 1) m

/-- The canonical form of data memory. -/
def Memory.wf (m : Memory) : Bool := Memory.wfFrom 0 m

/-- Writes bytes at consecutive addresses, lowest first. -/
def storeBytes : Memory → Nat → List Byte → Memory
  | m, _, [] => m
  | m, a, b :: bs => storeBytes (Memory.write m a b) (a + 1) bs

/-- Reads n bytes at consecutive addresses, lowest first. -/
def loadBytes (m : Memory) (a : Nat) : Nat → List Byte
  | 0 => []
  | n + 1 => Memory.read m a :: loadBytes m (a + 1) n

/-! ### The platform's answer to an engine access -/

/-- What stands at a data address: the first region that holds it says; plain memory elsewhere. -/
def kindOf : Platform → Nat → AddrKind
  | [], _ => .memory
  | r :: p, a => if r.base ≤ a ∧ a < r.base + r.size then r.kind else kindOf p a

/-- The OPEN parameter MemAdmit (20_memory R76): the addresses that answer an engine access. -/
def memAdmit (p : Platform) (a : Nat) : Bool := kindOf p a != .absent

/-- The admission check of 20_memory R76: never at or above the reserved top address (R75). -/
def admitted (p : Platform) (a : Nat) : Bool := decide (a < Config.topAddress) && memAdmit p a

/-- Some admitted address a with lo ≤ a < hi is a device, scanning the platform's map. -/
def hitsDevice : Platform → Nat → Nat → Bool
  | [], _, _ => false
  | r :: p, lo, hi =>
    (r.kind == .device && decide (max lo r.base < min hi (r.base + r.size)))
      || hitsDevice p lo (min hi r.base) || hitsDevice p (max lo (r.base + r.size)) hi

/-! ### Regions -/

/-- A region of data memory: `len` bytes from `base` on (20_memory R73). -/
structure Span where
  base : Nat
  len : Nat
  deriving DecidableEq, Repr

/-- The empty region. -/
def Span.empty : Span := { base := 0, len := 0 }

/-- An address lies in a region. -/
def Span.has (r : Span) (a : Nat) : Bool := decide (r.base ≤ a) && decide (a < r.base + r.len)

/-- Two regions share an address. -/
def Span.meets (r q : Span) : Bool := decide (max r.base q.base < min (r.base + r.len) (q.base + q.len))

/-- A region holds an admitted address that is a device (20_memory R91). -/
def Span.onDevice (p : Platform) (r : Span) : Bool := hitsDevice p r.base (min (r.base + r.len) Config.topAddress)

/-- The regions a command reads and writes (20_memory R73). -/
structure Regions where
  reads : Span
  writes : Span
  deriving DecidableEq, Repr

/-- The host duties a command's outcome rests on: every admitted address of its regions is plain memory (20_memory R91),
and, for PACK and UNPACK, the regions of `overlap` are disjoint (R86, R87). Where one is broken the model refuses;
otherwise the command ends in the state given. -/
def underDuties (p : Platform) (r overlap : Regions) (t : State) : Host.Outcome State Fault Refusal :=
  if r.reads.onDevice p || r.writes.onDevice p then .refused .deviceRegion
  else if overlap.reads.meets overlap.writes then .refused .overlappingRegions
  else .next t

/-! ### Completing, raising, accepting -/

/-- The completion actions of 60_exceptions R207, in that rule's order. EMPTY keeps the value the command gave it. -/
def complete (code : BitVec 4) (s : State) : State :=
  { s with
    errors := { s.errors with code := code }
    status := { s.status with err := code != 0#4, done := true }
    eng := .idle }

/-- `finish` (00_scope R15): the command ends with success. -/
def finish (s : State) : State := complete 0#4 s

/-- ERR_CODE of an error (60_exceptions R201). -/
def CommandError.code : CommandError → BitVec 4
  | .inconsistentCodeTable _ _ => 1#4
  | .corruptArtifact _ _ => 2#4
  | .busError _ _ => 3#4
  | .illegalCommand _ => 4#4

/-- ERR_INDEX of an error (60_exceptions R202). -/
def CommandError.index : CommandError → Word
  | .inconsistentCodeTable i _ => BitVec.ofNat 32 i
  | .corruptArtifact _ i => BitVec.ofNat 32 i
  | .busError i _ => BitVec.ofNat 32 i
  | .illegalCommand _ => 0#32

/-- ERR_VALUE of an error (10_state R33, 60_exceptions R202). -/
def CommandError.value : CommandError → Word
  | .inconsistentCodeTable _ v => v.setWidth 32
  | .corruptArtifact sub _ => BitVec.ofNat 32 sub
  | .busError _ _ => 0#32
  | .illegalCommand w => w

/-- FAULT_ADDR of an error (10_state R34): the failing address of a BUS_ERROR, 0 for every other error. -/
def CommandError.faultAddr : CommandError → Word
  | .busError _ a => BitVec.ofNat 32 a
  | _ => 0#32

/-- `raise E(info)` (00_scope R15, 60_exceptions R209, R210): the error registers take what R202 records for E, and the
completion actions follow. The abort actions of the command's own rule are done on `s` before. This is the block's
analogue of taking an exception. -/
def raise (e : CommandError) (s : State) : State :=
  complete e.code
    { s with errors := { s.errors with index := e.index, value := e.value, faultAddr := e.faultAddr } }

/-- Acceptance of a command word (10_state R28). It is also the block's only way out of a recorded error, its analogue of
a return (60_exceptions R211). -/
def accept (w : Word) (s : State) : State :=
  { s with
    status := { s.status with lastOp := w.extractLsb' 0 8, done := false, err := false, empty := false }
    errors := { code := 0#4, index := 0#32, value := 0#32, faultAddr := 0#32 }
    eng := .busy w }

/-- A reserved word's outcome (60_exceptions R203): ILLEGAL_COMMAND with ERR_VALUE the word, and nothing else. -/
def rejectWord (w : Word) (s : State) : State := raise (.illegalCommand w) s

/-- STATUS.EMPTY <- 1 when a condition holds (60_exceptions R204). -/
def setEmptyIf (c : Bool) (s : State) : State :=
  { s with status := { s.status with empty := c || s.status.empty } }

/-- The block in the state of 70_reset_and_hazards R231. Data memory, platform and the host's side are not the block's
and stay. -/
def resetBlock (s : State) : State :=
  { State.reset with
    mem := s.mem, platform := s.platform, host := s.host, observed := s.observed, schedule := s.schedule,
    draws := s.draws }

end Sys2Proof.Machine
end

