-- ==== Sys2Proof/Machine/Operands.lean ====
section
/-!
DEFINITION. What a command reads as its operands (30_encoding R98): the sample count and the base addresses from the cfg
registers, the code table, and single bytes of data memory behind the admission check.
-/

namespace Sys2Proof.Machine

/-- N = WIDTH × HEIGHT, exact (10_state R36). -/
def sampleCount (s : State) : Nat := s.cfg.width.toNat * s.cfg.height.toNat

/-- SRC_BASE as an address (10_state R37). -/
def srcAddr (s : State) : Nat := s.cfg.srcBase.toNat

/-- DST_BASE as an address (10_state R37). -/
def dstAddr (s : State) : Nat := s.cfg.dstBase.toNat

/-- TABLE_BASE as an address (10_state R37). -/
def tableAddr (s : State) : Nat := s.cfg.tableBase.toNat

/-- IN_BYTES as a count (10_state R38). -/
def inByteCount (s : State) : Nat := s.cfg.inBytes.toNat

/-- MemRead(a, 1) (20_memory R76): the byte, or nothing where the access is not admitted. -/
def memRead (s : State) (a : Nat) : Option Byte :=
  if admitted s.platform a then some (Memory.read s.mem a) else none

/-- FREQ[v] (10_state R41). -/
def freqAt (s : State) (v : Byte) : Word := tabGet s.freq v

/-- CODE_BITS[v] (10_state R45). -/
def codeAt (s : State) (v : Byte) : BitString := tabGet s.codes v

/-- CODE_LEN[v] (10_state R45): the length of CODE_BITS[v]; 0 means v has no entry. -/
def codeLen (s : State) (v : Byte) : BitVec 8 := BitVec.ofNat 8 (codeAt s v).length

/-- The 255-bit field in which hardware stores a code (10_state R45): bit string element k sits at field bit 254 − k. -/
def codeField (c : BitString) : BitVec 255 := BitVec.ofNat 255 (natOfBits 255 c)

/-- NODE_COUNT (10_state R43). -/
def nodeCount (s : State) : Nat := s.nodes.length

/-- TREE_VALID (10_state R44). -/
def treeValid (s : State) : Bool := s.root.isSome

/-- How many values a code table has an entry for (10_state R40, CODE_ENTRIES). -/
def entryCount (codes : Vector BitString 256) : Nat := codes.toList.countP (fun c => !c.isEmpty)

/-- The largest code length of a code table, 0 for an empty one (10_state R40, MAX_CODE_LEN). -/
def longestCode (codes : Vector BitString 256) : Nat := codes.toList.foldl (fun m c => max m c.length) 0

/-- How many values have a non-zero count (10_state R40, NUM_SYMBOLS). -/
def symbolCount (freq : Vector Word 256) : Nat := freq.toList.countP (fun n => n != 0#32)

/-- Weight of a node (10_state R43); 0 where there is none. -/
def weightAt (nodes : List Node) (i : Nat) : Word :=
  match nodes[i]? with
  | some (.leaf _ w) => w
  | some (.internal w _ _) => w
  | none => 0#32

end Sys2Proof.Machine
end

