-- ==== Sys2Proof/Machine/Flags.lean ====
section
/-!
DEFINITION. The STATUS flags (10_state R29, R30, R50), the interrupt output (60_exceptions R215) and the count of valid bits
in a stream's last byte (10_state R39).
-/

namespace Sys2Proof.Machine

/-- STATUS.BUSY: 1 exactly while ENG ≠ IDLE (10_state R23). -/
def busy (s : State) : Bool :=
  match s.eng with
  | .idle => false
  | .busy _ => true

/-- One bit at a bit position of a 32-bit word. -/
def bitAt (b : Bool) (n : Nat) : Word := if b then 1#32 <<< n else 0#32

/-- STATUS as a word, with TREE_VALID given (10_state R29). Bits 7:6 and 31:16 read 0. -/
def statusWordWith (s : State) (tv : Bool) : Word :=
  bitAt (busy s) 0 ||| bitAt s.status.done 1 ||| bitAt s.status.err 2 ||| bitAt s.status.empty 3
    ||| bitAt s.status.overrun 4 ||| bitAt tv 5 ||| (s.status.lastOp.setWidth 32 <<< 8)

/-- STATUS as a host reads it while ENG = IDLE (10_state R29). -/
def statusWord (s : State) : Word := statusWordWith s (treeValid s)

/-- A host write to STATUS (10_state R30): W1C of DONE and OVERRUN, nothing else. -/
def writeStatus (w : Word) (s : State) : State :=
  { s with
    status :=
      { s.status with
        done := s.status.done && !w.getLsbD 1
        overrun := s.status.overrun && !w.getLsbD 4 } }

/-- A CMD or cfg write while BUSY: dropped, and OVERRUN is set (10_state R48). -/
def setOverrun (s : State) : State := { s with status := { s.status with overrun := true } }

/-- The level interrupt output (60_exceptions R215). -/
def irq (s : State) : Bool := s.status.done && s.doneIe

/-- STREAM_LAST_BITS for a stream of B bits (10_state R39). -/
def lastBits (b : Nat) : BitVec 4 := if b = 0 then 0#4 else BitVec.ofNat 4 ((b - 1) % 8 + 1)

end Sys2Proof.Machine
end

