-- ==== Sys2Proof/Machine/Codes.lean ====
section
/-!
DEFINITION. CODES (43_code_assigner R146).
-/

namespace Sys2Proof.Machine

/-- assign(n, p) of 43_code_assigner R146: the leaves below node n with their codes, where p is the path to n; "0" to the
left, "1" to the right. A child's index is below its parent's (10_state R43), so as many levels as nodes are enough. -/
def assignCodes (nodes : List Node) : Nat → Nat → BitString → List (Byte × BitString)
  | 0, _, _ => []
  | fuel + 1, n, p =>
    match nodes[n]? with
    | none => []
    | some (.leaf v _) => [(v, p)]
    | some (.internal _ l r) =>
      assignCodes nodes fuel l (p ++ [false]) ++ assignCodes nodes fuel r (p ++ [true])

/-- The assignments CODES makes (43_code_assigner R146): none without a tree; "0" for a root that is a leaf; otherwise
one for every leaf below the root. -/
def codeAssignments (nodes : List Node) : Option Nat → List (Byte × BitString)
  | none => []
  | some r =>
    match nodes[r]? with
    | some (.leaf v _) => [(v, [false])]
    | _ => assignCodes nodes nodes.length r []

/-- The code table CODES writes: the empty table with every assignment made in turn. -/
def codeTable (nodes : List Node) (root : Option Nat) : Vector BitString 256 :=
  (codeAssignments nodes root).foldl (fun t e => tabSet t e.1 e.2) (tabOf fun _ => [])

/-- The state CODES ends in (43_code_assigner R146): the code table replaced and the tree discarded. Without a tree the
table is empty, and EMPTY is set. -/
def codesResult (s : State) : State :=
  let t := codeTable s.nodes s.root
  finish (setEmptyIf s.root.isNone
    { s with
      codes := t
      nodes := []
      root := none
      results :=
        { s.results with
          codeEntries := BitVec.ofNat 9 (entryCount t)
          maxCodeLen := BitVec.ofNat 8 (longestCode t)
          treeNodes := 0#10
          rootWeight := 0#32 } })

/-- CODES (43_code_assigner R146). It accesses no memory and cannot fail. -/
def execCodes (s : State) : Host.Outcome State Fault Refusal := .next (codesResult s)

end Sys2Proof.Machine
end

