-- ==== Sys2Proof/Machine/Control.lean ====
section
/-!
DEFINITION. The control commands NOP and CLEAR (40_control R111, R112).
-/

namespace Sys2Proof.Machine

/-- NOP (40_control R111): completes, and nothing else. -/
def execNop (s : State) : Host.Outcome State Fault Refusal := .next (finish s)

/-- The datapath and the result registers at their reset values (40_control R112). -/
def clearDatapath (s : State) : State :=
  { s with
    freq := State.reset.freq, nodes := [], root := none, codes := State.reset.codes, results := State.reset.results }

/-- CLEAR (40_control R112): empties the datapath and the result registers; configuration, INT_EN, OVERRUN and data memory
stay. -/
def execClear (s : State) : Host.Outcome State Fault Refusal := .next (finish (clearDatapath s))

end Sys2Proof.Machine
end

