-- ==== Sys2Proof/Machine/Frequency.lean ====
section
/-!
DEFINITION. FREQ (41_frequency_analyzer R121).
-/

namespace Sys2Proof.Machine

/-- Reads n samples from index i on, in ascending order (41_frequency_analyzer R121, R123); the first access that is not
admitted ends the command at its index. -/
def readSamples (s : State) : Nat → Nat → Except Abort (List Byte)
  | 0, _ => .ok []
  | n + 1, i =>
    match memRead s (srcAddr s + i) with
    | none => .error { error := .busError i (srcAddr s + i), wrote := [], read := i }
    | some v =>
      match readSamples s n (i + 1) with
      | .error a => .error a
      | .ok vs => .ok (v :: vs)

/-- The counters after counting every sample of a list once (41_frequency_analyzer R121's `cnt`): entry v is how often v
occurs. The result does not depend on the order (R123). -/
def countSamples (vs : List Byte) : Vector Word 256 := tabOf (fun v => BitVec.ofNat 32 (vs.count v))

/-- The regions of FREQ (20_memory R73). -/
def freqRegions (s : State) : Regions :=
  { reads := { base := srcAddr s, len := sampleCount s }, writes := Span.empty }

/-- The state FREQ ends in (41_frequency_analyzer R121): FREQ and NUM_SYMBOLS replaced, or, on BUS_ERROR, zeroed. -/
def freqResult (s : State) : State :=
  match readSamples s (sampleCount s) 0 with
  | .ok vs =>
    finish (setEmptyIf (sampleCount s == 0)
      { s with
        freq := countSamples vs
        results := { s.results with numSymbols := BitVec.ofNat 9 (symbolCount (countSamples vs)) } })
  | .error a =>
    raise a.error
      { s with freq := State.reset.freq, results := { s.results with numSymbols := 0#9 } }

/-- FREQ (41_frequency_analyzer R121), under the host duties on its region. -/
def execFreq (s : State) : Host.Outcome State Fault Refusal :=
  underDuties s.platform (freqRegions s) (freqRegions s) (freqResult s)

end Sys2Proof.Machine
end

