-- ==== Sys2Proof/Machine/Pack.lean ====
section
/-!
DEFINITION. The encoder's commands: PACK (44_bitpacker_encoder R156) and TSTORE (R170, R172).
-/

namespace Sys2Proof.Machine

/-! ### PACK -/

/-- PACK's cursor: the bytes written so far, and the bits of the pending output byte, 0 to 7 of them, first bit first
(44_bitpacker_encoder R156's j, acc, nacc and B). -/
structure PackCursor where
  out : List Byte
  pending : BitString
  deriving DecidableEq, Repr

/-- Stream bits emitted so far, R156's B. -/
def PackCursor.bits (c : PackCursor) : Nat := 8 * c.out.length + c.pending.length

/-- Appends one code bit of sample i; the eighth bit writes the byte (44_bitpacker_encoder R156, R158). -/
def pushBit (s : State) (i : Nat) (c : PackCursor) (b : Bool) : Except Abort PackCursor :=
  if c.pending.length = 7 then
    if admitted s.platform (dstAddr s + c.out.length) then
      .ok { out := c.out ++ [byteOfBits (c.pending ++ [b])], pending := [] }
    else
      .error { error := .busError i (dstAddr s + c.out.length), wrote := c.out, read := 0 }
  else .ok { c with pending := c.pending ++ [b] }

/-- Appends the bits of sample i's code, first bit first (44_bitpacker_encoder R156). -/
def pushBits (s : State) (i : Nat) : PackCursor → BitString → Except Abort PackCursor
  | c, [] => .ok c
  | c, b :: bs =>
    match pushBit s i c b with
    | .error a => .error a
    | .ok c' => pushBits s i c' bs

/-- Packs n samples from index i on (44_bitpacker_encoder R156): read, look up, emit. -/
def packSamples (s : State) : Nat → Nat → PackCursor → Except Abort PackCursor
  | 0, _, c => .ok c
  | n + 1, i, c =>
    match memRead s (srcAddr s + i) with
    | none => .error { error := .busError i (srcAddr s + i), wrote := c.out, read := 0 }
    | some v =>
      if codeAt s v = [] then .error { error := .inconsistentCodeTable i v, wrote := c.out, read := 0 }
      else
        match pushBits s i c (codeAt s v) with
        | .error a => .error a
        | .ok c' => packSamples s n (i + 1) c'

/-- What PACK has after its last sample: the bytes written and the number of stream bits. -/
structure PackDone where
  out : List Byte
  bits : Nat
  deriving DecidableEq, Repr

/-- PACK's run (44_bitpacker_encoder R156): all samples, then the partial last byte, zero-padded. -/
def packRun (s : State) : Except Abort PackDone :=
  match packSamples s (sampleCount s) 0 { out := [], pending := [] } with
  | .error a => .error a
  | .ok c =>
    if c.pending = [] then .ok { out := c.out, bits := c.bits }
    else if admitted s.platform (dstAddr s + c.out.length) then
      .ok { out := c.out ++ [byteOfBits c.pending], bits := c.bits }
    else
      .error { error := .busError (sampleCount s) (dstAddr s + c.out.length), wrote := c.out, read := 0 }

/-- How many stream bits the n samples from index i on have in the current code table. A sample that has no code or cannot
be read has none. -/
def matrixBits (s : State) : Nat → Nat → Nat
  | 0, _ => 0
  | n + 1, i =>
    (match memRead s (srcAddr s + i) with
      | none => 0
      | some v => (codeAt s v).length) + matrixBits s n (i + 1)

/-- The regions of PACK (20_memory R73), computed for the full command (R86). -/
def packRegions (s : State) : Regions :=
  { reads := { base := srcAddr s, len := sampleCount s }
    writes := { base := dstAddr s, len := bytesFor (matrixBits s (sampleCount s) 0) } }

/-- The state PACK ends in (44_bitpacker_encoder R156). -/
def packResult (s : State) : State :=
  match packRun s with
  | .ok d =>
    finish (setEmptyIf (sampleCount s == 0)
      { s with
        mem := storeBytes s.mem (dstAddr s) d.out
        results :=
          { s.results with
            streamBytes := BitVec.ofNat 32 d.out.length
            streamLastBits := lastBits d.bits } })
  | .error a =>
    raise a.error
      { s with
        mem := storeBytes s.mem (dstAddr s) a.wrote
        results := { s.results with streamBytes := 0#32, streamLastBits := 0#4 } }

/-- PACK (44_bitpacker_encoder R156), under the host duties on its regions. -/
def execPack (s : State) : Host.Outcome State Fault Refusal :=
  underDuties s.platform (packRegions s) (packRegions s) (packResult s)

/-! ### TSTORE -/

/-- One entry of the serialized table (44_bitpacker_encoder R170): VALUE, LEN, BITS; nothing for a value without a code. -/
def entryBytes (v : Byte) (c : BitString) : List Byte :=
  if c = [] then [] else v :: BitVec.ofNat 8 c.length :: packBytes c

/-- The serialized code table (44_bitpacker_encoder R170): the entry count, low byte first, then the entries in ascending
value. -/
def serializeTable (codes : Vector BitString 256) : List Byte :=
  [BitVec.ofNat 8 (entryCount codes % 256), BitVec.ofNat 8 (entryCount codes / 256)]
    ++ (List.zipWith entryBytes allValues codes.toList).flatten

/-- Writes bytes at TABLE_BASE in order (44_bitpacker_encoder R172's put): `done` are written, and the offset is their
number. -/
def putBytes (s : State) : List Byte → List Byte → Except Abort (List Byte)
  | done, [] => .ok done
  | done, b :: bs =>
    if admitted s.platform (tableAddr s + done.length) then putBytes s (done ++ [b]) bs
    else .error { error := .busError done.length (tableAddr s + done.length), wrote := done, read := 0 }

/-- TSTORE's run (44_bitpacker_encoder R172). -/
def tstoreRun (s : State) : Except Abort (List Byte) := putBytes s [] (serializeTable s.codes)

/-- The regions of TSTORE (20_memory R73, 44_bitpacker_encoder R171). -/
def tstoreRegions (s : State) : Regions :=
  { reads := Span.empty, writes := { base := tableAddr s, len := (serializeTable s.codes).length } }

/-- The state TSTORE ends in (44_bitpacker_encoder R172). -/
def tstoreResult (s : State) : State :=
  match tstoreRun s with
  | .ok bytes =>
    finish
      { s with
        mem := storeBytes s.mem (tableAddr s) bytes
        results := { s.results with tableBytes := BitVec.ofNat 32 bytes.length } }
  | .error a =>
    raise a.error
      { s with
        mem := storeBytes s.mem (tableAddr s) a.wrote
        results := { s.results with tableBytes := 0#32 } }

/-- TSTORE (44_bitpacker_encoder R172), under the host duties on its region. -/
def execTstore (s : State) : Host.Outcome State Fault Refusal :=
  underDuties s.platform (tstoreRegions s) (tstoreRegions s) (tstoreResult s)

end Sys2Proof.Machine
end

