-- ==== Sys2Proof/Machine/Tree.lean ====
section
/-!
DEFINITION. TREE (42_tree_builder R131 to R133).
-/

namespace Sys2Proof.Machine

/-- An element of the working collection A with its weight: (w(i), i), the selection key (42_tree_builder R132). -/
structure Key where
  weight : Word
  index : Nat
  deriving DecidableEq, Repr

/-- Lexicographic order of selection keys (42_tree_builder R131). -/
def Key.lt (a b : Key) : Bool := decide (a.weight < b.weight) || (a.weight == b.weight && decide (a.index < b.index))

/-- The element with the smallest key, and the others in their order (42_tree_builder R131). -/
def extractMin : List Key → Option (Key × List Key)
  | [] => none
  | k :: ks =>
    match extractMin ks with
    | none => some (k, [])
    | some (m, rest) => if k.lt m then some (k, ks) else some (m, k :: rest)

/-- The seed: one leaf per value with a non-zero count, in ascending value (42_tree_builder R131, R132). -/
def seedLeaves (freq : Vector Word 256) : List Node :=
  allValues.filterMap (fun v => if tabGet freq v = 0#32 then none else some (.leaf v (tabGet freq v)))

/-- The keys of the leaves with indices from i on. -/
def keysFrom : Nat → List Node → List Key
  | _, [] => []
  | i, .leaf _ w :: ns => { weight := w, index := i } :: keysFrom (i + 1) ns
  | i, .internal w _ _ :: ns => { weight := w, index := i } :: keysFrom (i + 1) ns

/-- The merge loop of 42_tree_builder R131: at most `fuel` merges, each of the two smallest keys, the first the left child
(R133). Ends when one element is left. -/
def mergeNodes : Nat → List Node → List Key → List Node × List Key
  | 0, nodes, active => (nodes, active)
  | fuel + 1, nodes, active =>
    match extractMin active with
    | none => (nodes, active)
    | some (a, rest) =>
      match extractMin rest with
      | none => (nodes, active)
      | some (b, rest') =>
        mergeNodes fuel (nodes ++ [.internal (a.weight + b.weight) a.index b.index])
          (rest' ++ [{ weight := a.weight + b.weight, index := nodes.length }])

/-- The node store and ROOT that TREE builds from FREQ (42_tree_builder R131). -/
def buildTree (freq : Vector Word 256) : List Node × Option Nat :=
  let leaves := seedLeaves freq
  let built := mergeNodes leaves.length leaves (keysFrom 0 leaves)
  (built.1, built.2.head?.map Key.index)

/-- The weight of the root, 0 where there is no tree (10_state R40, ROOT_WEIGHT). -/
def rootWeightOf (nodes : List Node) : Option Nat → Word
  | none => 0#32
  | some r => weightAt nodes r

/-- The state TREE ends in (42_tree_builder R131). With no leaf there is "no tree", and EMPTY is set. -/
def treeResult (s : State) : State :=
  let t := buildTree s.freq
  finish (setEmptyIf t.2.isNone
    { s with
      nodes := t.1
      root := t.2
      results :=
        { s.results with
          treeNodes := BitVec.ofNat 10 t.1.length
          rootWeight := rootWeightOf t.1 t.2 } })

/-- TREE (42_tree_builder R131). It accesses no memory and cannot fail. -/
def execTree (s : State) : Host.Outcome State Fault Refusal := .next (treeResult s)

end Sys2Proof.Machine
end

