-- ==== Sys2Proof/Machine/Unpack.lean ====
section
/-!
DEFINITION. The decoder's commands: TLOAD (45_bitpacker_decoder R176 to R179) and UNPACK (R183 to R185).
-/

namespace Sys2Proof.Machine

/-! ### TLOAD -/

/-- TLOAD's get() at a byte offset (45_bitpacker_decoder R176). -/
def tableByte (s : State) (off : Nat) : Except Abort Byte :=
  match memRead s (tableAddr s + off) with
  | none => .error { error := .busError off (tableAddr s + off), wrote := [], read := off }
  | some b => .ok b

/-- A CORRUPT_ARTIFACT of TLOAD after `read` bytes (45_bitpacker_decoder R179). -/
def tableCorrupt (sub index read : Nat) : Abort :=
  { error := .corruptArtifact sub index, wrote := [], read := read }

/-- Reads the BITS bytes of entry e: `nbytes` bytes from an offset on, of which `left` bits are code bits; a padding bit
that is 1 is sub-cause 4 (45_bitpacker_decoder R176). Answers the code bits and the offset after them. -/
def loadBits (s : State) (e : Nat) : Nat → Nat → Nat → Except Abort (BitString × Nat)
  | 0, _, off => .ok ([], off)
  | nbytes + 1, left, off =>
    match tableByte s off with
    | .error a => .error a
    | .ok b =>
      if ((bitsOfByte b).drop left).any id then .error (tableCorrupt 4 e (off + 1))
      else
        match loadBits s e nbytes (left - 8) (off + 1) with
        | .error a => .error a
        | .ok (bits, off') => .ok ((bitsOfByte b).take left ++ bits, off')

/-- Reads n entries from entry e on, at an offset, into a staged table; `low` is one above the previous entry's VALUE
(45_bitpacker_decoder R176, in the check order of R178). Answers the table and the offset after the entries. -/
def loadEntries (s : State) : Nat → Nat → Nat → Nat → Vector BitString 256 → Except Abort (Vector BitString 256 × Nat)
  | 0, _, off, _, t => .ok (t, off)
  | n + 1, e, off, low, t =>
    match tableByte s off with
    | .error a => .error a
    | .ok v =>
      if v.toNat < low then .error (tableCorrupt 2 e (off + 1))
      else
        match tableByte s (off + 1) with
        | .error a => .error a
        | .ok len =>
          if len = 0#8 then .error (tableCorrupt 3 e (off + 2))
          else
            match loadBits s e (bytesFor len.toNat) len.toNat (off + 2) with
            | .error a => .error a
            | .ok (bits, off') => loadEntries s n (e + 1) off' (v.toNat + 1) (tabSet t v bits)

/-- No code of a list is a prefix of another one of it. -/
def noPrefixPairs : List BitString → Bool
  | [] => true
  | c :: cs => cs.all (fun d => !c.isPrefixOf d && !d.isPrefixOf c) && noPrefixPairs cs

/-- The code table is prefix-free (45_bitpacker_decoder R176, R180): of two values with entries, neither code is a prefix
of the other. -/
def prefixFree (codes : Vector BitString 256) : Bool := noPrefixPairs (codes.toList.filter (fun c => !c.isEmpty))

/-- What a successful TLOAD read. -/
structure LoadedTable where
  codes : Vector BitString 256
  entries : Nat
  bytes : Nat
  deriving DecidableEq, Repr

/-- TLOAD's run (45_bitpacker_decoder R176): the count, its range, the entries, the prefix check. -/
def tloadRun (s : State) : Except Abort LoadedTable :=
  match tableByte s 0 with
  | .error a => .error a
  | .ok lo =>
    match tableByte s 1 with
    | .error a => .error a
    | .ok hi =>
      let k := lo.toNat + 256 * hi.toNat
      if 256 < k then .error (tableCorrupt 1 0 2)
      else
        match loadEntries s k 0 2 0 (tabOf fun _ => []) with
        | .error a => .error a
        | .ok (t, off) =>
          if prefixFree t then .ok { codes := t, entries := k, bytes := off }
          else .error (tableCorrupt 5 k off)

/-- The regions of TLOAD (20_memory R73): as far as the command gets. -/
def tloadRegions (s : State) : Regions :=
  { reads :=
      { base := tableAddr s
        len := match tloadRun s with
          | .ok l => l.bytes
          | .error a => a.read }
    writes := Span.empty }

/-- The state TLOAD ends in (45_bitpacker_decoder R176): the code table changes only on success. -/
def tloadResult (s : State) : State :=
  match tloadRun s with
  | .ok l =>
    finish
      { s with
        codes := l.codes
        results :=
          { s.results with
            codeEntries := BitVec.ofNat 9 l.entries
            maxCodeLen := BitVec.ofNat 8 (longestCode l.codes)
            tableBytes := BitVec.ofNat 32 l.bytes } }
  | .error a => raise a.error { s with results := { s.results with tableBytes := 0#32 } }

/-- TLOAD (45_bitpacker_decoder R176), under the host duties on its region. -/
def execTload (s : State) : Host.Outcome State Fault Refusal :=
  underDuties s.platform (tloadRegions s) (tloadRegions s) (tloadResult s)

/-! ### UNPACK -/

/-- UNPACK's cursor (45_bitpacker_decoder R183): the stream bit position p, the current input byte, and the samples written
so far. -/
structure UnpackCursor where
  pos : Nat
  cur : Byte
  out : List Byte
  deriving DecidableEq, Repr

/-- An error of UNPACK at a cursor: the samples written stay, and the stream bytes read are those p has entered. -/
def unpackAbort (e : CommandError) (c : UnpackCursor) : Abort :=
  { error := e, wrote := c.out, read := bytesFor c.pos }

/-- The next stream bit for sample i, MSB-first; a byte is read only when its first bit is needed, never at or beyond
IN_BYTES (45_bitpacker_decoder R183, R184). -/
def nextBit (s : State) (i : Nat) (c : UnpackCursor) : Except Abort (Bool × UnpackCursor) :=
  if c.pos % 8 = 0 then
    if inByteCount s ≤ c.pos / 8 then .error (unpackAbort (.corruptArtifact 6 i) c)
    else
      match memRead s (srcAddr s + c.pos / 8) with
      | none => .error (unpackAbort (.busError i (srcAddr s + c.pos / 8)) c)
      | some b => .ok (byteBit b 7, { c with pos := c.pos + 1, cur := b })
  else .ok (byteBit c.cur (7 - c.pos % 8), { c with pos := c.pos + 1 })

/-- The value whose code is a bit string, if there is one (45_bitpacker_decoder R183's leaf test). -/
def findCode (codes : Vector BitString 256) (pre : BitString) : Option Byte :=
  (codes.toList.findIdx? (fun c => !c.isEmpty && c == pre)).map (BitVec.ofNat 8)

/-- Some code has a bit string as a proper prefix (45_bitpacker_decoder R183's dead-end test, negated). -/
def extendable (codes : Vector BitString 256) (pre : BitString) : Bool :=
  codes.toList.any (fun c => pre.isPrefixOf c && decide (pre.length < c.length))

/-- Decodes sample i from the bits read so far for it (45_bitpacker_decoder R183). Every bit that does not end the loop
leaves a proper prefix of a code, so as many bits as the longest code are enough (R185). -/
def decodeSample (s : State) (i : Nat) : Nat → BitString → UnpackCursor → Except Abort (Byte × UnpackCursor)
  | 0, _, c => .error (unpackAbort (.corruptArtifact 7 i) c)
  | fuel + 1, pre, c =>
    match nextBit s i c with
    | .error a => .error a
    | .ok (b, c') =>
      match findCode s.codes (pre ++ [b]) with
      | some v => .ok (v, c')
      | none =>
        if extendable s.codes (pre ++ [b]) then decodeSample s i fuel (pre ++ [b]) c'
        else .error (unpackAbort (.corruptArtifact 7 i) c')

/-- Decodes and writes n samples from index i on (45_bitpacker_decoder R183). -/
def unpackSamples (s : State) : Nat → Nat → UnpackCursor → Except Abort UnpackCursor
  | 0, _, c => .ok c
  | n + 1, i, c =>
    match decodeSample s i (longestCode s.codes + 1) [] c with
    | .error a => .error a
    | .ok (v, c') =>
      if admitted s.platform (dstAddr s + i) then unpackSamples s n (i + 1) { c' with out := c'.out ++ [v] }
      else .error (unpackAbort (.busError i (dstAddr s + i)) c')

/-- UNPACK's run (45_bitpacker_decoder R183). -/
def unpackRun (s : State) : Except Abort UnpackCursor :=
  unpackSamples s (sampleCount s) 0 { pos := 0, cur := 0#8, out := [] }

/-- The regions of UNPACK (20_memory R73): the stream bytes it reads, and the matrix. -/
def unpackRegions (s : State) : Regions :=
  { reads :=
      { base := srcAddr s
        len := match unpackRun s with
          | .ok c => bytesFor c.pos
          | .error a => a.read }
    writes := { base := dstAddr s, len := sampleCount s } }

/-- The regions whose overlap 20_memory R86 forbids for UNPACK: IN_BYTES in place of the bytes read. With no sample UNPACK
consults neither region nor IN_BYTES (45_bitpacker_decoder R183). Log 8. -/
def unpackOverlap (s : State) : Regions :=
  { reads := { base := srcAddr s, len := if sampleCount s = 0 then 0 else inByteCount s }
    writes := { base := dstAddr s, len := sampleCount s } }

/-- The state UNPACK ends in (45_bitpacker_decoder R183). -/
def unpackResult (s : State) : State :=
  match unpackRun s with
  | .ok c =>
    finish (setEmptyIf (sampleCount s == 0)
      { s with
        mem := storeBytes s.mem (dstAddr s) c.out
        results :=
          { s.results with
            streamBytes := BitVec.ofNat 32 (bytesFor c.pos)
            streamLastBits := lastBits c.pos } })
  | .error a =>
    raise a.error
      { s with
        mem := storeBytes s.mem (dstAddr s) a.wrote
        results := { s.results with streamBytes := 0#32, streamLastBits := 0#4 } }

/-- UNPACK (45_bitpacker_decoder R183), under the host duties on its regions. -/
def execUnpack (s : State) : Host.Outcome State Fault Refusal :=
  underDuties s.platform (unpackRegions s) (unpackOverlap s) (unpackResult s)

end Sys2Proof.Machine
end

