-- ==== Sys2Proof/Machine/HostPort.lean ====
section
/-!
DEFINITION. The host's side: the register block as the host reads and writes it (10_state R24 to R50), the host statements
(30_encoding R102, R103), the reset input (70_reset_and_hazards R231, R232), and which agent moves next.
-/

namespace Sys2Proof.Machine

/-! ### The register map -/

/-- The registers of 10_state R26; `reserved` is every offset it does not list. -/
inductive Reg where
  | id | cmd | status | errCode | errIndex | errValue | faultAddr | intEn
  | width | height | srcBase | dstBase | tableBase | inBytes
  | streamBytes | streamLastBits | tableBytes | numSymbols | treeNodes | rootWeight | codeEntries | maxCodeLen
  | freqWin (v : Byte)
  | codeLenWin (v : Byte)
  | reserved
  deriving DecidableEq, Repr

/-- The single registers of 10_state R26 by word number (offset / 4), 0x000 to 0x054. -/
def singleRegs : List Reg :=
  [.id, .cmd, .status, .errCode, .errIndex, .errValue, .faultAddr, .intEn, .width, .height, .srcBase, .dstBase, .tableBase,
   .inBytes, .streamBytes, .streamLastBits, .tableBytes, .numSymbols, .treeNodes, .rootWeight, .codeEntries, .maxCodeLen]

/-- The register at an aligned offset (10_state R26). -/
def regOf (offset : Nat) : Reg :=
  if 0x400 ≤ offset ∧ offset < 0x800 then .freqWin (BitVec.ofNat 8 ((offset - 0x400) / 4))
  else if 0x800 ≤ offset ∧ offset < 0xC00 then .codeLenWin (BitVec.ofNat 8 ((offset - 0x800) / 4))
  else (singleRegs[offset / 4]?).getD .reserved

/-- The offset of CMD (10_state R28). -/
def cmdOffset : Nat := 0x004

/-- The offset of STATUS (10_state R29). -/
def statusOffset : Nat := 0x008

/-- The offset of ERR_CODE (10_state R31). -/
def errCodeOffset : Nat := 0x00C

/-- The accesses 10_state R24 allows: 32 bits wide, aligned, inside the register space. -/
def accessOk (bytes offset : Nat) : Bool := bytes == 4 && offset % 4 == 0 && decide (offset < Config.registerSpace)

/-- A register that the engine reads as an operand, which a write while BUSY does not change (10_state R26 "cfg", R48). -/
def Reg.isCfg : Reg → Bool
  | .width | .height | .srcBase | .dstBase | .tableBase | .inBytes => true
  | _ => false

/-- A register whose whole value is unspecified while BUSY (10_state R49). -/
def Reg.unspecifiedWhileBusy : Reg → Bool
  | .errCode | .errIndex | .errValue | .faultAddr | .streamBytes | .streamLastBits | .tableBytes | .numSymbols | .treeNodes
  | .rootWeight | .codeEntries | .maxCodeLen | .freqWin _ | .codeLenWin _ => true
  | _ => false

/-- The number of bits a register uses, from bit 0 on; the others are reserved (10_state R26). -/
def Reg.usedBits : Reg → Nat
  | .status | .width | .height => 16
  | .errCode | .streamLastBits => 4
  | .intEn => 1
  | .numSymbols | .codeEntries => 9
  | .treeNodes => 10
  | .maxCodeLen | .codeLenWin _ => 8
  | .reserved => 0
  | _ => 32

/-- What a register reads as while ENG = IDLE (10_state R26 to R46). -/
def regValue (s : State) : Reg → Word
  | .id => Config.idValue
  | .cmd => 0#32
  | .status => statusWord s
  | .errCode => s.errors.code.setWidth 32
  | .errIndex => s.errors.index
  | .errValue => s.errors.value
  | .faultAddr => s.errors.faultAddr
  | .intEn => bitAt s.doneIe 0
  | .width => s.cfg.width.setWidth 32
  | .height => s.cfg.height.setWidth 32
  | .srcBase => s.cfg.srcBase
  | .dstBase => s.cfg.dstBase
  | .tableBase => s.cfg.tableBase
  | .inBytes => s.cfg.inBytes
  | .streamBytes => s.results.streamBytes
  | .streamLastBits => s.results.streamLastBits.setWidth 32
  | .tableBytes => s.results.tableBytes
  | .numSymbols => s.results.numSymbols.setWidth 32
  | .treeNodes => s.results.treeNodes.setWidth 32
  | .rootWeight => s.results.rootWeight
  | .codeEntries => s.results.codeEntries.setWidth 32
  | .maxCodeLen => s.results.maxCodeLen.setWidth 32
  | .freqWin v => freqAt s v
  | .codeLenWin v => (codeLen s v).setWidth 32
  | .reserved => 0#32

/-- One free value is used up (00_scope R18). -/
def draw (s : State) : State := { s with draws := s.draws + 1 }

/-- A host read of a register: its value, and the state after it. While BUSY, the reads of 10_state R49 are free values,
drawn afresh, in the bits the register uses (R25: its reserved bits read 0). -/
def regRead (r : Reg) (s : State) : Word × State :=
  if busy s then
    if r.unspecifiedWhileBusy then ((Config.freeWord s.draws) &&& BitVec.ofNat 32 (2 ^ r.usedBits - 1), draw s)
    else if r = .status then (statusWordWith s ((Config.freeWord s.draws).getLsbD 5), draw s)
    else (regValue s r, s)
  else (regValue s r, s)

/-- A host write to a cfg register while ENG = IDLE (10_state R36 to R38); a write to any other register here changes
nothing. -/
def writeCfg (r : Reg) (w : Word) (c : CfgRegs) : CfgRegs :=
  match r with
  | .width => { c with width := w.setWidth 16 }
  | .height => { c with height := w.setWidth 16 }
  | .srcBase => { c with srcBase := w }
  | .dstBase => { c with dstBase := w }
  | .tableBase => { c with tableBase := w }
  | .inBytes => { c with inBytes := w }
  | _ => c

/-- A host write of a word to a register (10_state R25, R28, R30, R35 to R38, R48). -/
def regWrite (r : Reg) (w : Word) (s : State) : State :=
  if r = .cmd then (if busy s then setOverrun s else accept w s)
  else if r = .status then writeStatus w s
  else if r = .intEn then { s with doneIe := w.getLsbD 0 }
  else if r.isCfg then (if busy s then setOverrun s else { s with cfg := writeCfg r w s.cfg })
  else s

/-! ### The running command's memory -/

/-- The regions of a command on the current state (20_memory R73). -/
def commandRegions (i : Instr) (s : State) : Regions :=
  match i with
  | .freq => freqRegions s
  | .pack => packRegions s
  | .unpack => unpackRegions s
  | .tstore => tstoreRegions s
  | .tload => tloadRegions s
  | .nop | .clear | .tree | .codes => { reads := Span.empty, writes := Span.empty }

/-- The regions whose overlap 20_memory R86 forbids. -/
def overlapRegions (i : Instr) (s : State) : Regions :=
  match i with
  | .unpack => unpackOverlap s
  | _ => commandRegions i s

/-- Where a command's memory writes start, and the bytes they write, in write order (20_memory R73, 70_reset_and_hazards
R232's write sequence). -/
def commandWrites (i : Instr) (s : State) : Nat × List Byte :=
  match i with
  | .pack =>
    (dstAddr s, match packRun s with
      | .ok d => d.out
      | .error a => a.wrote)
  | .unpack =>
    (dstAddr s, match unpackRun s with
      | .ok c => c.out
      | .error a => a.wrote)
  | .tstore =>
    (tableAddr s, match tstoreRun s with
      | .ok bytes => bytes
      | .error a => a.wrote)
  | .nop | .clear | .freq | .tree | .codes | .tload => (0, [])

/-- The command a busy engine is running, if its word is one (30_encoding R97). -/
def runningCommand (s : State) : Option Instr :=
  match s.eng with
  | .idle => none
  | .busy w =>
    match decode w with
    | .ok i => some i
    | .error _ => none

/-- The regions of the running command; empty without one. -/
def runningRegions (s : State) : Regions :=
  match runningCommand s with
  | some i => commandRegions i s
  | none => { reads := Span.empty, writes := Span.empty }

/-! ### Reset -/

/-- `rst` asserted and released (70_reset_and_hazards R231, R232). IDLE: the block takes its reset state. BUSY: the command
is abandoned with a prefix of its write sequence done, its length free, and the block takes its reset state; a command
that breaks a host duty is refused, as its own meaning refuses it. -/
def hostReset (s : State) : Host.Outcome State Fault Refusal :=
  match runningCommand s with
  | none => .next (resetBlock s)
  | some i =>
    underDuties s.platform (commandRegions i s) (overlapRegions i s)
      (draw (resetBlock
        { s with
          mem :=
            storeBytes s.mem (commandWrites i s).1
              ((commandWrites i s).2.take (Config.freeWriteCount s.draws)) }))

/-! ### Host statements -/

/-- The host notes what a read gave (30_encoding R102). -/
def observe (o : Observation) (s : State) : State := { s with observed := o :: s.observed }

/-- The host reads a register at its offset and notes the value (30_encoding R102). -/
def readNoted (r : Reg) (offset : Nat) (s : State) : State :=
  observe (.register offset (regRead r s).1) (regRead r s).2

/-- The bytes a host memory read gives: the memory's, but free values in the write region of a running command
(20_memory R85). -/
def hostLoad (s : State) (writes : Span) (a : Nat) : Nat → List Byte
  | 0 => []
  | n + 1 =>
    (if writes.has a then Config.freeByte s.draws a else Memory.read s.mem a) :: hostLoad s writes (a + 1) n

/-- MEMWR (30_encoding R102) under the duties of 20_memory R85 and R91. -/
def hostMemWrite (a : Nat) (bs : List Byte) (s : State) : Host.Outcome State Fault Refusal :=
  if Config.addressSpace < a + bs.length then .fault .hostAddressOutsideMemory
  else if hitsDevice s.platform a (a + bs.length) then .refused .hostDeviceAccess
  else if (runningRegions s).reads.meets { base := a, len := bs.length }
      || (runningRegions s).writes.meets { base := a, len := bs.length } then .refused .hostWroteRegion
  else .next { s with mem := storeBytes s.mem a bs }

/-- MEMRD (30_encoding R102); a byte of a running command's write region is a free value (20_memory R85). -/
def hostMemRead (a n : Nat) (s : State) : Host.Outcome State Fault Refusal :=
  if Config.addressSpace < a + n then .fault .hostAddressOutsideMemory
  else if hitsDevice s.platform a (a + n) then .refused .hostDeviceAccess
  else .next (draw (observe (.memory a (hostLoad s (runningRegions s).writes a n)) s))

/-- WR (30_encoding R102); an access outside 10_state R24 is refused. -/
def hostRegWrite (bytes offset : Nat) (w : Word) (s : State) : Host.Outcome State Fault Refusal :=
  if accessOk bytes offset then .next (regWrite (regOf offset) w s) else .refused .badRegisterAccess

/-- RD (30_encoding R102); an access outside 10_state R24 is refused. -/
def hostRegRead (bytes offset : Nat) (s : State) : Host.Outcome State Fault Refusal :=
  if accessOk bytes offset then .next (readNoted (regOf offset) offset s) else .refused .badRegisterAccess

/-- One turn of WAIT's loop (30_encoding R103): `RD STATUS -> s; if s[0] = 1 goto loop`. Bit 0 of the value read is BUSY
(10_state R29), which is no free value while a command runs (R49); while it is 1, WAIT stays the next statement. -/
def pollStatus (s : State) : State :=
  if busy s then { readNoted .status statusOffset s with host := .wait :: s.host } else readNoted .status statusOffset s

/-- The last part of RUN (30_encoding R103): with ERR = 1 the host reads ERR_CODE and its program halts. -/
def stopOnError (s : State) : State :=
  if (statusWord s).getLsbD 2 then { readNoted .errCode errCodeOffset s with host := [] } else s

/-- One host statement, taken off the host's list already. `awaitIrq` comes here only when `irq` is 1. -/
def hostStep (op : HostOp) (s : State) : Host.Outcome State Fault Refusal :=
  match op with
  | .wr bytes offset w => hostRegWrite bytes offset w s
  | .rd bytes offset => hostRegRead bytes offset s
  | .memWr a bs => hostMemWrite a bs s
  | .memRd a n => hostMemRead a n s
  | .wait => .next (pollStatus s)
  | .awaitIrq => .next s
  | .stopOnError => .next (stopOnError s)
  | .rst => hostReset s

/-! ### The statements of 30_encoding R102 and R103 -/

/-- `CMD <mnemonic>`. -/
def hostCmd (i : Instr) : HostOp := .wr 4 cmdOffset (encode i)

/-- `RUN <mnemonic>` (30_encoding R103). -/
def hostRun (i : Instr) : List HostOp := [hostCmd i, .wait, .rd 4 statusOffset, .stopOnError]

/-- `COMPRESS` (30_encoding R103). -/
def hostCompress : List HostOp :=
  hostRun .freq ++ hostRun .tree ++ hostRun .codes ++ hostRun .pack ++ hostRun .tstore

/-- `DECOMPRESS` (30_encoding R103). -/
def hostDecompress : List HostOp := hostRun .tload ++ hostRun .unpack

/-- `WAITIRQ` (30_encoding R103). -/
def hostWaitIrq : List HostOp := [.awaitIrq, .wr 4 statusOffset 0x2#32]

/-! ### Who moves next -/

/-- The host's next statement waits, without a bus access, for something that has not come (30_encoding R103: WAITIRQ's
wait for `irq`). -/
def blocked (op : HostOp) (s : State) : Bool :=
  match op with
  | .awaitIrq => !irq s
  | _ => false

/-- The host can act now. -/
def hostReady (s : State) : Bool :=
  match s.host with
  | [] => false
  | op :: _ => !blocked op s

/-- The turns to come where the host and a BUSY engine can both move, which is not fixed (00_scope R19): the schedule's, and
where it is empty a free finite number of host turns and then the engine's. Log 4. -/
def agenda (s : State) : List Agent :=
  match s.schedule with
  | [] => List.replicate (Config.freeHostTurns s.draws) .host ++ [.engine]
  | a :: rest => a :: rest

/-- With a command BUSY and the host ready: the next turn is the engine's. -/
def engineFirst (s : State) : Bool :=
  match agenda s with
  | [] => true
  | a :: _ => a == .engine

/-- The next turn is used up. -/
def takeTurn (s : State) : State :=
  { s with schedule := (agenda s).tail, draws := if s.schedule.isEmpty then s.draws + 1 else s.draws }

end Sys2Proof.Machine
end

