-- ==== Sys2Proof/Machine/Perform.lean ====
section
/-!
DEFINITION. The engine's only step (60_exceptions R206).
-/

namespace Sys2Proof.Machine

/-- The perform step on an accepted word (60_exceptions R206): decode, then the command's rule; a reserved word completes with
ILLEGAL_COMMAND (R203). -/
def perform (w : Word) (s : State) : Host.Outcome State Fault Refusal :=
  match decode w with
  | .ok i => exec i s
  | .error _ => .next (rejectWord w s)

/-- The engine's move: perform while BUSY; while IDLE it waits for a CMD write and changes nothing (70_reset_and_hazards
R233, 60_exceptions R221). -/
def engineStep (s : State) : Host.Outcome State Fault Refusal :=
  match s.eng with
  | .idle => .next s
  | .busy w => perform w s

/-- The host takes its next statement and carries it out. -/
def hostMove (s : State) : Host.Outcome State Fault Refusal :=
  match s.host with
  | [] => .next s
  | op :: rest => hostStep op { s with host := rest }

/-- One step of the machine: the one agent that can move, or, where both can, the one `engineFirst` names. -/
def machineStep (s : State) : Host.Outcome State Fault Refusal :=
  if hostReady s then
    if busy s then
      if engineFirst s then engineStep (takeTurn s) else hostMove (takeTurn s)
    else hostMove s
  else engineStep s

/-- The state with a command word accepted (10_state R28) and the engine to move next. Where the host could move too, the
engine's turn is put before the schedule. -/
def withPendingWord (w : Word) (s : State) : State :=
  if hostReady (accept w s) then { accept w s with schedule := .engine :: s.schedule } else accept w s

end Sys2Proof.Machine
end

