-- ==== Sys2Proof/Machine/Step.lean ====
section
/-!
DEFINITION. The step function (60_exceptions R206 for the engine, 30_encoding R102 for the host), and placing a command word
where the next step runs it.
-/

namespace Sys2Proof.Machine

/-- One step of the machine. -/
def step (s : State) : Host.Outcome State Fault Refusal := machineStep s

/-- The block fetches nothing (10_state R23): a word comes to run by an accepted CMD write. This is the state just after the
acceptance of the word, with the engine to move next. Log 3. -/
def State.withFetchWord (s : State) (nbits w : Nat) : State := withPendingWord (BitVec.ofNat 32 (w % 2 ^ nbits)) s

end Sys2Proof.Machine
end

