-- ==== Sys2Proof/Safety.lean ====
section
/-!
DEFINITION. The vocabulary claims use: the host duties a command rests on (20_memory R86, R87, R91), what a matrix, a stream
and a tree are as plain data, the invariants of the block, and what a safe run is.
-/

namespace Sys2Proof.Machine

/-! ### Host duties -/

/-- Every address of a region is admitted (20_memory R76). -/
def AllAdmitted (p : Platform) (r : Span) : Prop :=
  ∀ a, r.base ≤ a → a < r.base + r.len → admitted p a = true

/-- Every admitted address of a region is plain memory (20_memory R91). -/
def PlainMemory (p : Platform) (r : Span) : Prop :=
  ∀ a, r.base ≤ a → a < r.base + r.len → admitted p a = true → kindOf p a = .memory

/-- No address lies in both regions (20_memory R86). -/
def Apart (r q : Span) : Prop := ∀ a, ¬ (r.has a = true ∧ q.has a = true)

/-- The host duties on a command's regions are kept (20_memory R87, R91). -/
def DutiesKept (i : Instr) (s : State) : Prop :=
  PlainMemory s.platform (commandRegions i s).reads ∧ PlainMemory s.platform (commandRegions i s).writes ∧
    Apart (overlapRegions i s).reads (overlapRegions i s).writes

/-! ### Matrices, streams, trees -/

/-- The sample matrix a command reads, row-major (20_memory R80): N bytes at SRC_BASE. -/
def matrixAt (s : State) : List Byte := loadBytes s.mem (srcAddr s) (sampleCount s)

/-- The packed stream of a list of samples as a bit string (44_bitpacker_encoder R157's P). -/
def streamBits (s : State) (vs : List Byte) : BitString := vs.flatMap (codeAt s)

/-- K, the entry count that the first two bytes of the table at TABLE_BASE give (44_bitpacker_encoder R170). -/
def tableCountAt (s : State) : Nat :=
  (Memory.read s.mem (tableAddr s)).toNat + 256 * (Memory.read s.mem (tableAddr s + 1)).toNat

/-- The values with a non-zero count, ascending. -/
def presentValues (freq : Vector Word 256) : List Byte := allValues.filter (fun v => tabGet freq v != 0#32)

/-- The child indices that the internal nodes of a store name, in store order. -/
def childIndices : List Node → List Nat
  | [] => []
  | .leaf _ _ :: ns => childIndices ns
  | .internal _ l r :: ns => l :: r :: childIndices ns

/-- The values of a store's leaves, in store order. -/
def leafValues : List Node → List Byte
  | [] => []
  | .leaf v _ :: ns => v :: leafValues ns
  | .internal _ _ _ :: ns => leafValues ns

/-- The value of the leaf that a path leads to: left on "0", right on "1" (43_code_assigner R146). -/
def followPath (nodes : List Node) : Nat → BitString → Option Byte
  | i, [] =>
    match nodes[i]? with
    | some (.leaf v _) => some v
    | _ => none
  | i, b :: bs =>
    match nodes[i]? with
    | some (.internal _ l r) => followPath nodes (if b then r else l) bs
    | _ => none

/-! ### Invariants -/

/-- The node store facts of 10_state R43 and 42_tree_builder R134: within capacity; the root is the last node, and there is
one exactly when there are nodes; children come before their parent and carry its weight; every node but the root is a
child exactly once; no value has two leaves. -/
structure NodeStoreOk (nodes : List Node) (root : Option Nat) : Prop where
  capacity : nodes.length ≤ Config.nodeCapacity
  rootLast : root = if nodes.length = 0 then none else some (nodes.length - 1)
  childrenBelow : ∀ (i : Nat) (w : Word) (l r : Nat), nodes[i]? = some (Node.internal w l r) → l < i ∧ r < i
  weightSum : ∀ (i : Nat) (w : Word) (l r : Nat), nodes[i]? = some (Node.internal w l r) → w = weightAt nodes l + weightAt nodes r
  ownedOnce : (childIndices nodes).Perm (List.range (nodes.length - 1))
  leavesDistinct : (leafValues nodes).Nodup

/-- The code table is prefix-free (45_bitpacker_decoder R180). -/
def PrefixFreeCodes (codes : Vector BitString 256) : Prop :=
  ∀ u v, u ≠ v → tabGet codes u ≠ [] → tabGet codes v ≠ [] → ¬ tabGet codes u <+: tabGet codes v

/-- Every code fits MAX_LEN (00_scope R10, 10_state R45). -/
def CodesFit (codes : Vector BitString 256) : Prop := ∀ v, (tabGet codes v).length ≤ Config.maxLen

/-- STATUS and the error registers agree: a running command has none of DONE, ERR, EMPTY and no record (10_state R28, R29);
ERR says ERR_CODE ≠ 0 (60_exceptions R207); codes 5 to 15 are never written (R201); EMPTY comes with no error (R204); the
detail registers are 0 where 10_state R32 to R34 say so, and FAULT_ADDR is an address that was not admitted. -/
structure FlagsOk (s : State) : Prop where
  busyClean : busy s = true → s.status.done = false ∧ s.status.err = false ∧ s.status.empty = false ∧ s.errors.code = 0#4
  errIsCode : s.status.err = true ↔ s.errors.code ≠ 0#4
  codeAssigned : s.errors.code.toNat ≤ 4
  emptyNoError : s.status.empty = true → s.errors.code = 0#4
  successClean : s.errors.code = 0#4 → s.errors.index = 0#32 ∧ s.errors.value = 0#32
  faultAddrClean : s.errors.code ≠ 3#4 → s.errors.faultAddr = 0#32
  busErrorExact : s.errors.code = 3#4 → s.errors.value = 0#32 ∧ admitted s.platform s.errors.faultAddr.toNat = false

/-- The result registers that summarise the datapath agree with it (10_state R40). -/
structure ResultsOk (s : State) : Prop where
  numSymbols : s.results.numSymbols.toNat = (presentValues s.freq).length
  treeNodes : s.results.treeNodes.toNat = s.nodes.length
  rootWeight : s.results.rootWeight = match s.root with
    | none => 0#32
    | some r => weightAt s.nodes r
  codeEntries : s.results.codeEntries.toNat = (allValues.filter (fun v => codeAt s v != [])).length
  maxCodeLen : (∀ v, (codeAt s v).length ≤ s.results.maxCodeLen.toNat) ∧
    (s.results.maxCodeLen = 0#8 ∨ ∃ v, (codeAt s v).length = s.results.maxCodeLen.toNat)

/-- The counts of FREQ never exceed the largest matrix (00_scope R11). -/
def FreqFits (s : State) : Prop := (allValues.map (fun v => (freqAt s v).toNat)).sum ≤ 65535 * 65535

/-- The invariant of the whole machine. -/
structure Inv (s : State) : Prop where
  memory : Memory.wf s.mem = true
  flags : FlagsOk s
  freq : FreqFits s
  tree : NodeStoreOk s.nodes s.root
  prefixFree : PrefixFreeCodes s.codes
  codesFit : CodesFit s.codes
  results : ResultsOk s

/-! ### Safe runs -/

/-- A step that goes on: the model has a meaning for it and no fault stops it. -/
def StepsOn (s : State) : Prop := ∃ t, step s = .next t

/-- The state after n steps, or the first stop. -/
def runSteps : Nat → State → Host.Outcome State Fault Refusal
  | 0, s => .next s
  | n + 1, s =>
    match step s with
    | .next t => runSteps n t
    | .fault r => .fault r
    | .refused r => .refused r

/-- A run of any length that the model never refuses and that never faults. -/
def RunsSafely (s : State) : Prop := ∀ n, ∃ t, runSteps n s = .next t

/-- The last command completed without an error (60_exceptions R207). -/
def CommandSucceeded (s : State) : Prop := busy s = false ∧ s.status.done = true ∧ s.status.err = false

end Sys2Proof.Machine
end

