-- ==== Sys2Proof/Certificates/Slice0/Obligations.lean ====
section
/-!
DEFINITION. The statements for the provers. Each docstring names the rule of spec/ the statement formalises; statements that
rest on a choice of the model name the log entry. Free values (Config's opaque constants, the draw counter) appear in no
conclusion.
-/

open Sys2Proof Sys2Proof.Machine

/-! ### Encoding -/

/-- 30_encoding R99: the nine command words, written out from the opcode map, decode to the commands the map gives them. -/
def Obligations.TableWordsDecode : Prop :=
  decode 0x00000000#32 = .ok .nop ∧ decode 0x00000001#32 = .ok .clear ∧ decode 0x00000010#32 = .ok .freq ∧
  decode 0x00000020#32 = .ok .tree ∧ decode 0x00000030#32 = .ok .codes ∧ decode 0x00000040#32 = .ok .pack ∧
  decode 0x00000050#32 = .ok .unpack ∧ decode 0x00000060#32 = .ok .tstore ∧ decode 0x00000061#32 = .ok .tload

/-- 30_encoding R97, R99: a word decodes to a command exactly if it is that command's word; every bit of the word counts. -/
def Obligations.DecodeIsInverseOfEncode : Prop :=
  ∀ (w : Word) (i : Instr), decode w = .ok i ↔ w = encode i

/-- 30_encoding R100: the reserved words are those with RSV ≠ 0 and those whose OP is none of the nine, and the decoder says
which of the two. -/
def Obligations.ReservedWordsAreRejected : Prop :=
  ∀ w : Word,
    (decode w = .error .reservedBitsSet ↔ 256 ≤ w.toNat) ∧
    (decode w = .error .unassignedOpcode ↔
      w.toNat < 256 ∧ w.toNat ∉ [0x00, 0x01, 0x10, 0x20, 0x30, 0x40, 0x50, 0x60, 0x61])

/-! ### Steps -/

/-- 60_exceptions R206, R97: with an accepted word that decodes, the engine's step is exec of its command, on the state
itself if the host can do nothing, and, where the host could act and it is the engine's turn, on the state with that turn
used up, which differs in the model's schedule and draw counter only (log 4). -/
def Obligations.StepRunsTheAcceptedCommand : Prop :=
  ∀ (s : State) (w : Word) (i : Instr), s.eng = .busy w → decode w = .ok i →
    (hostReady s = false → step s = exec i s) ∧
    (hostReady s = true → engineFirst s = true → step s = exec i (takeTurn s)) ∧
    takeTurn s = { s with schedule := (takeTurn s).schedule, draws := (takeTurn s).draws }

/-- Log 3: the step after a word is placed runs that word's command on the state its acceptance leaves. -/
def Obligations.PlacedWordRunsNext : Prop :=
  ∀ (s : State) (nbits w : Nat) (i : Instr), decode (BitVec.ofNat 32 (w % 2 ^ nbits)) = .ok i →
    step (s.withFetchWord nbits w) = exec i (accept (BitVec.ofNat 32 (w % 2 ^ nbits)) s)

/-- 60_exceptions R203: a reserved word, accepted, completes with ILLEGAL_COMMAND, ERR_VALUE the word, ERR_INDEX and
FAULT_ADDR 0, LAST_OP its low byte, and nothing else changed. -/
def Obligations.ReservedWordCompletesIllegal : Prop :=
  ∀ (s : State) (w : Word), w.toNat ∉ [0x00, 0x01, 0x10, 0x20, 0x30, 0x40, 0x50, 0x60, 0x61] →
    perform w (accept w s) = .next
      { s with
        status := { s.status with done := true, err := true, empty := false, lastOp := BitVec.ofNat 8 w.toNat }
        errors := { code := 4#4, index := 0#32, value := w, faultAddr := 0#32 }
        eng := .idle }

/-- 30_encoding R102 to R104, 00_scope R19: the host's statements run in their order, one a step: while the engine is IDLE, and,
while it is BUSY, when the host moves first (the host's list is the model's own, log 3, and so is who moves first and the
turn that is used up, log 4). WAIT is a read of STATUS, and stays the next statement while BUSY; only WAITIRQ's wait for
`irq` holds the host up. -/
def Obligations.StepRunsTheHostStatement : Prop :=
  (∀ (s : State) (op : HostOp) (rest : List HostOp), s.host = op :: rest → blocked op s = false →
    (busy s = false → step s = hostStep op { s with host := rest }) ∧
    (busy s = true → engineFirst s = false → step s = hostStep op { takeTurn s with host := rest })) ∧
  (∀ s : State, ∃ t, hostRegRead 4 0x008 s = .next t ∧
    hostStep .wait s = .next (if busy s then { t with host := .wait :: t.host } else t)) ∧
  (∀ (op : HostOp) (s : State), blocked op s = true ↔ op = .awaitIrq ∧ irq s = false)

/-- 00_scope R19, 60_exceptions R206, R207: an accepted command completes (IDLE with DONE = 1) after some number of steps, if the
host's list asserts no reset, which would abandon it (70_reset_and_hazards R232), unless the model stops before that. With an
idle host and the duties kept, the next step completes it. Where the schedule of the model names a turn of the engine, its
length bounds the number (logs 4 and 9). -/
def Obligations.AcceptedCommandCompletes : Prop :=
  ∀ (s : State) (w : Word), s.eng = .busy w → HostOp.rst ∉ s.host →
    (∃ n, (Agent.engine ∈ s.schedule → n ≤ s.schedule.length) ∧
      ((∃ t, runSteps n s = .next t ∧ busy t = false ∧ t.status.done = true) ∨
        (∃ r, runSteps n s = .fault r) ∨ ∃ r, runSteps n s = .refused r)) ∧
    (s.host = [] → (∀ i, decode w = .ok i → DutiesKept i s) →
      ∃ t, step s = .next t ∧ busy t = false ∧ t.status.done = true)

/-! ### The register port -/

/-- 10_state R28: a CMD write is accepted while IDLE, with exactly these effects and without decoding the word; while BUSY it
is dropped and sets OVERRUN; a read of CMD returns 0. -/
def Obligations.CmdWriteIsAcceptedOrDropped : Prop :=
  ∀ (s : State) (w : Word),
    (s.eng = .idle → hostRegWrite 4 0x004 w s = .next
      { s with
        status := { s.status with lastOp := w.extractLsb' 0 8, done := false, err := false, empty := false }
        errors := { code := 0#4, index := 0#32, value := 0#32, faultAddr := 0#32 }
        eng := .busy w }) ∧
    (s.eng ≠ .idle → hostRegWrite 4 0x004 w s = .next { s with status := { s.status with overrun := true } }) ∧
    hostRegRead 4 0x004 s = .next { s with observed := .register 0x004 0#32 :: s.observed }

/-- 10_state R48: while BUSY a write to CMD or a cfg register is dropped and sets OVERRUN; writes to STATUS and INT_EN take
effect; writes to the other registers are ignored. -/
def Obligations.WritesWhileBusy : Prop :=
  ∀ (s : State) (w : Word) (off : Nat), s.eng ≠ .idle → off < 4096 → off % 4 = 0 →
    hostRegWrite 4 off w s = .next
      (if off = 0x004 ∨ off ∈ [0x020, 0x024, 0x028, 0x02C, 0x030, 0x034] then
        { s with status := { s.status with overrun := true } }
      else if off = 0x008 then
        { s with
          status :=
            { s.status with
              done := s.status.done && !w.getLsbD 1
              overrun := s.status.overrun && !w.getLsbD 4 } }
      else if off = 0x01C then { s with doneIe := w.getLsbD 0 }
      else s)

/-- 10_state R30: a write to STATUS clears DONE if w[1] = 1 and OVERRUN if w[4] = 1, at any time, and does nothing else. -/
def Obligations.StatusWriteClears : Prop :=
  ∀ (s : State) (w : Word), hostRegWrite 4 0x008 w s = .next
    { s with
      status :=
        { s.status with
          done := if w.getLsbD 1 then false else s.status.done
          overrun := if w.getLsbD 4 then false else s.status.overrun } }

/-- 10_state R25, R35 to R38: while IDLE a write to a cfg register or INT_EN stores its bits, and a write to a read-only
register or a reserved offset is ignored. -/
def Obligations.WritesWhileIdle : Prop :=
  ∀ (s : State) (w : Word), s.eng = .idle →
    hostRegWrite 4 0x01C w s = .next { s with doneIe := w.getLsbD 0 } ∧
    hostRegWrite 4 0x020 w s = .next { s with cfg := { s.cfg with width := w.extractLsb' 0 16 } } ∧
    hostRegWrite 4 0x024 w s = .next { s with cfg := { s.cfg with height := w.extractLsb' 0 16 } } ∧
    hostRegWrite 4 0x028 w s = .next { s with cfg := { s.cfg with srcBase := w } } ∧
    hostRegWrite 4 0x02C w s = .next { s with cfg := { s.cfg with dstBase := w } } ∧
    hostRegWrite 4 0x030 w s = .next { s with cfg := { s.cfg with tableBase := w } } ∧
    hostRegWrite 4 0x034 w s = .next { s with cfg := { s.cfg with inBytes := w } } ∧
    (∀ off, off < 4096 → off % 4 = 0 → off = 0 ∨ (0x00C ≤ off ∧ off ≤ 0x018) ∨ 0x038 ≤ off →
      hostRegWrite 4 off w s = .next s)

/-- 10_state R26, R27, R31 to R42, R46: what each register reads as while IDLE; a read changes nothing but the host's own
notes. STATUS is `StatusReadsItsFields`. -/
def Obligations.ReadsWhileIdle : Prop :=
  ∀ s : State, s.eng = .idle →
    let reads := fun (off : Nat) (v : Word) =>
      hostRegRead 4 off s = .next { s with observed := .register off v :: s.observed }
    reads 0x000 0x48464131#32 ∧ reads 0x004 0#32 ∧
    reads 0x00C (s.errors.code.setWidth 32) ∧ reads 0x010 s.errors.index ∧ reads 0x014 s.errors.value ∧
    reads 0x018 s.errors.faultAddr ∧ reads 0x01C (if s.doneIe then 1#32 else 0#32) ∧
    reads 0x020 (s.cfg.width.setWidth 32) ∧ reads 0x024 (s.cfg.height.setWidth 32) ∧
    reads 0x028 s.cfg.srcBase ∧ reads 0x02C s.cfg.dstBase ∧ reads 0x030 s.cfg.tableBase ∧ reads 0x034 s.cfg.inBytes ∧
    reads 0x038 s.results.streamBytes ∧ reads 0x03C (s.results.streamLastBits.setWidth 32) ∧
    reads 0x040 s.results.tableBytes ∧ reads 0x044 (s.results.numSymbols.setWidth 32) ∧
    reads 0x048 (s.results.treeNodes.setWidth 32) ∧ reads 0x04C s.results.rootWeight ∧
    reads 0x050 (s.results.codeEntries.setWidth 32) ∧ reads 0x054 (s.results.maxCodeLen.setWidth 32) ∧
    (∀ v : Byte, reads (0x400 + 4 * v.toNat) (freqAt s v)) ∧
    (∀ v : Byte, (codeAt s v).length ≤ 255 → reads (0x800 + 4 * v.toNat) (BitVec.ofNat 32 (codeAt s v).length)) ∧
    (∀ off, off % 4 = 0 → (0x058 ≤ off ∧ off ≤ 0x3FC) ∨ (0xC00 ≤ off ∧ off ≤ 0xFFC) → reads off 0#32)

/-- 10_state R29: the fields of STATUS, bit by bit, as a host reads it while IDLE. -/
def Obligations.StatusReadsItsFields : Prop :=
  ∀ s : State, s.eng = .idle →
    ∃ w : Word, hostRegRead 4 0x008 s = .next { s with observed := .register 0x008 w :: s.observed } ∧
      w.getLsbD 0 = false ∧ w.getLsbD 1 = s.status.done ∧ w.getLsbD 2 = s.status.err ∧ w.getLsbD 3 = s.status.empty ∧
      w.getLsbD 4 = s.status.overrun ∧ w.getLsbD 5 = s.root.isSome ∧ w.getLsbD 6 = false ∧ w.getLsbD 7 = false ∧
      w.extractLsb' 8 8 = s.status.lastOp ∧ w.extractLsb' 16 16 = 0#16

/-- 10_state R49, R25, R29: while BUSY, ID, INT_EN and the cfg registers read their values, CMD and the reserved offsets 0, and
STATUS reads BUSY = 1, its stored bits and 0 in bits 7:6 and 31:16, with TREE_VALID free; where the flags agree (`FlagsOk`,
which every step keeps), DONE, ERR and EMPTY read 0. Every other register reads some value (free, log 5), and that read
changes nothing but the host's notes and the draw counter. -/
def Obligations.ReadsWhileBusy : Prop :=
  ∀ s : State, s.eng ≠ .idle →
    let reads := fun (off : Nat) (v : Word) =>
      hostRegRead 4 off s = .next { s with observed := .register off v :: s.observed }
    let readsSome := fun (off : Nat) (p : Word → Prop) => ∃ w : Word, p w ∧
      hostRegRead 4 off s = .next { s with observed := .register off w :: s.observed, draws := s.draws + 1 }
    reads 0x000 0x48464131#32 ∧ reads 0x004 0#32 ∧ reads 0x01C (if s.doneIe then 1#32 else 0#32) ∧
    reads 0x020 (s.cfg.width.setWidth 32) ∧ reads 0x024 (s.cfg.height.setWidth 32) ∧
    reads 0x028 s.cfg.srcBase ∧ reads 0x02C s.cfg.dstBase ∧ reads 0x030 s.cfg.tableBase ∧ reads 0x034 s.cfg.inBytes ∧
    (∀ off, off % 4 = 0 → (0x058 ≤ off ∧ off ≤ 0x3FC) ∨ (0xC00 ≤ off ∧ off ≤ 0xFFC) → reads off 0#32) ∧
    readsSome 0x008 (fun w =>
      w.getLsbD 0 = true ∧ w.getLsbD 1 = s.status.done ∧ w.getLsbD 2 = s.status.err ∧ w.getLsbD 3 = s.status.empty ∧
      w.getLsbD 4 = s.status.overrun ∧ w.getLsbD 6 = false ∧ w.getLsbD 7 = false ∧ w.extractLsb' 8 8 = s.status.lastOp ∧
      w.extractLsb' 16 16 = 0#16 ∧
      (FlagsOk s → w.getLsbD 1 = false ∧ w.getLsbD 2 = false ∧ w.getLsbD 3 = false)) ∧
    (∀ off, off % 4 = 0 → (0x00C ≤ off ∧ off ≤ 0x018) ∨ (0x038 ≤ off ∧ off ≤ 0x054) ∨ (0x400 ≤ off ∧ off ≤ 0xBFC) →
      readsSome off (fun _ => True))

/-- 10_state R24: a register access that is not an aligned 32-bit access of the register space has no meaning; the model refuses it (log 15). -/
def Obligations.OtherAccessesAreRefused : Prop :=
  ∀ (s : State) (bytes off : Nat) (w : Word), bytes ≠ 4 ∨ off % 4 ≠ 0 ∨ 4096 ≤ off →
    hostRegWrite bytes off w s = .refused .badRegisterAccess ∧ hostRegRead bytes off s = .refused .badRegisterAccess

/-- 60_exceptions R214, R215: completion of any command, with or without an error, makes `irq` DONE_IE; an accepted command
and a W1C write of STATUS bit 1 make it 0; INT_EN acts on it at once. -/
def Obligations.IrqFollowsDoneAndEnable : Prop :=
  (∀ (i : Instr) (s t : State), exec i s = .next t → irq t = s.doneIe) ∧
  (∀ (s : State) (w : Word), irq (rejectWord w s) = s.doneIe ∧ irq (accept w s) = false) ∧
  (∀ (s : State) (w : Word), w.getLsbD 1 = true →
    ∃ t, hostRegWrite 4 0x008 w s = .next t ∧ irq t = false) ∧
  (∀ (s : State) (w : Word), ∃ t, hostRegWrite 4 0x01C w s = .next t ∧ irq t = (s.status.done && w.getLsbD 0)) ∧
  irq State.reset = false

/-! ### The host's memory statements and reset -/

/-- 30_encoding R102, 20_memory R74, R84, R85: in the address space and off every device (log 13), MEMWR makes each byte of its
range what was written and leaves every other byte, where it meets no region of a running command; MEMRD gives the memory's
bytes, except that a byte in a running command's write region is free (log 5), and changes nothing but the host's notes and
the draw counter. -/
def Obligations.HostMemoryWritesAndReads : Prop :=
  ∀ (s : State) (a : Nat) (bs : List Byte), Memory.wf s.mem = true → a + bs.length ≤ 2 ^ 32 →
    (∀ x, a ≤ x → x < a + bs.length → kindOf s.platform x ≠ .device) →
    (Apart (runningRegions s).reads { base := a, len := bs.length } →
      Apart (runningRegions s).writes { base := a, len := bs.length } →
      ∃ t, hostMemWrite a bs s = .next t ∧ t = { s with mem := t.mem } ∧ loadBytes t.mem a bs.length = bs ∧
        ∀ x, x < a ∨ a + bs.length ≤ x → Memory.read t.mem x = Memory.read s.mem x) ∧
    ∃ got, hostMemRead a bs.length s =
        .next { s with observed := .memory a got :: s.observed, draws := s.draws + 1 } ∧
      got.length = bs.length ∧
      ∀ k, k < bs.length → (runningRegions s).writes.has (a + k) = false →
        got[k]? = some (Memory.read s.mem (a + k))

/-- 20_memory R85: a host write that touches a region of the running command is refused. -/
def Obligations.HostWriteIntoRunningRegionRefused : Prop :=
  ∀ (s : State) (w : Word) (i : Instr) (a x : Nat) (bs : List Byte), s.eng = .busy w → decode w = .ok i →
    a + bs.length ≤ 2 ^ 32 → (∀ y, a ≤ y → y < a + bs.length → kindOf s.platform y ≠ .device) →
    a ≤ x → x < a + bs.length →
    (commandRegions i s).reads.has x = true ∨ (commandRegions i s).writes.has x = true →
    hostMemWrite a bs s = .refused .hostWroteRegion

/-- 70_reset_and_hazards R231: a reset while IDLE leaves every register and the datapath at the reset values and data memory
untouched. -/
def Obligations.ResetWhileIdle : Prop :=
  ∀ s : State, s.eng = .idle →
    ∃ t, hostReset s = .next t ∧
      t.status = { done := false, err := false, empty := false, overrun := false, lastOp := 0#8 } ∧
      t.errors = { code := 0#4, index := 0#32, value := 0#32, faultAddr := 0#32 } ∧ t.doneIe = false ∧
      t.cfg = { width := 0#16, height := 0#16, srcBase := 0#32, dstBase := 0#32, tableBase := 0#32, inBytes := 0#32 } ∧
      t.results = { streamBytes := 0#32, streamLastBits := 0#4, tableBytes := 0#32, numSymbols := 0#9, treeNodes := 0#10,
                    rootWeight := 0#32, codeEntries := 0#9, maxCodeLen := 0#8 } ∧
      (∀ v, freqAt t v = 0#32) ∧ t.nodes = [] ∧ t.root = none ∧ (∀ v, codeAt t v = []) ∧ t.eng = .idle ∧
      irq t = false ∧ statusWord t = 0#32 ∧
      t.mem = s.mem ∧ t.platform = s.platform ∧ t.host = s.host ∧ t.observed = s.observed ∧ t.schedule = s.schedule ∧
      t.draws = s.draws

/-- 70_reset_and_hazards R232: a reset while a command runs abandons it: the block takes the reset state, and of the
command's write sequence a prefix has been performed, each byte with the value the rule writes. How long a prefix is free
(log 6). A reserved word that was accepted has no writes: the reset leaves all of memory. -/
def Obligations.ResetAbandonsTheCommand : Prop :=
  (∀ (s : State) (w : Word) (i : Instr), s.eng = .busy w → decode w = .ok i → DutiesKept i s → Memory.wf s.mem = true →
    ∃ (t : State) (k : Nat), hostReset s = .next t ∧ k ≤ (commandWrites i s).2.length ∧
      t = { resetBlock s with mem := t.mem, draws := t.draws } ∧
      loadBytes t.mem (commandWrites i s).1 k = (commandWrites i s).2.take k ∧
      ∀ x, x < (commandWrites i s).1 ∨ (commandWrites i s).1 + k ≤ x → Memory.read t.mem x = Memory.read s.mem x) ∧
  (∀ (s : State) (w : Word) (e : DecodeError), s.eng = .busy w → decode w = .error e →
    hostReset s = .next (resetBlock s) ∧ (resetBlock s).eng = .idle ∧ (resetBlock s).mem = s.mem ∧
      (resetBlock s).status = { done := false, err := false, empty := false, overrun := false, lastOp := 0#8 } ∧
      (resetBlock s).errors = { code := 0#4, index := 0#32, value := 0#32, faultAddr := 0#32 })

/-! ### What every command does at its end -/

/-- 60_exceptions R206, R207, 10_state R47, 30_encoding R105: a command that goes on ends IDLE with DONE = 1 and ERR saying
ERR_CODE ≠ 0; it writes no cfg register, not INT_EN, not OVERRUN, not LAST_OP, and nothing of the platform or the host. -/
def Obligations.EveryCommandCompletes : Prop :=
  ∀ (i : Instr) (s t : State), exec i s = .next t →
    t.eng = .idle ∧ t.status.done = true ∧ (t.status.err = true ↔ t.errors.code ≠ 0#4) ∧
    t.status.overrun = s.status.overrun ∧ t.status.lastOp = s.status.lastOp ∧ t.cfg = s.cfg ∧ t.doneIe = s.doneIe ∧
    t.platform = s.platform ∧ t.host = s.host ∧ t.observed = s.observed ∧ t.schedule = s.schedule ∧ t.draws = s.draws

/-- 10_state R47, R40: each datapath element and each result register has the writers those rules name, and keeps its value
under every other command, with or without an error. -/
def Obligations.OnlyTheNamedCommandsWrite : Prop :=
  ∀ (i : Instr) (s t : State), exec i s = .next t →
    (i ∉ [.freq, .clear] → t.freq = s.freq ∧ t.results.numSymbols = s.results.numSymbols) ∧
    (i ∉ [.tree, .codes, .clear] → t.nodes = s.nodes ∧ t.root = s.root ∧
      t.results.treeNodes = s.results.treeNodes ∧ t.results.rootWeight = s.results.rootWeight) ∧
    (i ∉ [.codes, .tload, .clear] → t.codes = s.codes ∧ t.results.codeEntries = s.results.codeEntries ∧
      t.results.maxCodeLen = s.results.maxCodeLen) ∧
    (i ∉ [.pack, .unpack, .clear] → t.results.streamBytes = s.results.streamBytes ∧
      t.results.streamLastBits = s.results.streamLastBits) ∧
    (i ∉ [.tstore, .tload, .clear] → t.results.tableBytes = s.results.tableBytes)

/-- 20_memory R73: the memory frame of every command: NOP, CLEAR, FREQ, TREE, CODES and TLOAD change no byte; PACK, UNPACK and
TSTORE change bytes of their write region only, whose base is the register the command names. -/
def Obligations.OnlyTheWriteRegionChanges : Prop :=
  ∀ (i : Instr) (s t : State), exec i s = .next t → Memory.wf s.mem = true →
    (i ∉ [.pack, .unpack, .tstore] → t.mem = s.mem) ∧
    ∀ a,
      (i = .pack → a < dstAddr s ∨ dstAddr s + (packRegions s).writes.len ≤ a → Memory.read t.mem a = Memory.read s.mem a) ∧
      (i = .unpack → a < dstAddr s ∨ dstAddr s + sampleCount s ≤ a → Memory.read t.mem a = Memory.read s.mem a) ∧
      (i = .tstore → a < tableAddr s ∨ tableAddr s + (serializeTable s.codes).length ≤ a →
        Memory.read t.mem a = Memory.read s.mem a)

/-- 20_memory R87, R91: a command goes on exactly when the host duties on its regions are kept; where a region maps a device
the model refuses it as such, and otherwise as overlapping. Which ranges the regions are is log 8. -/
def Obligations.DutiesDecideRefusal : Prop :=
  ∀ (i : Instr) (s : State),
    (DutiesKept i s ↔ ∃ t, exec i s = .next t) ∧
    (exec i s = .refused .deviceRegion ↔
      ¬ (PlainMemory s.platform (commandRegions i s).reads ∧ PlainMemory s.platform (commandRegions i s).writes)) ∧
    (exec i s = .refused .overlappingRegions ↔
      PlainMemory s.platform (commandRegions i s).reads ∧ PlainMemory s.platform (commandRegions i s).writes ∧
        ¬ Apart (overlapRegions i s).reads (overlapRegions i s).writes)

/-- 60_exceptions R204: after an accepted command EMPTY is 1 in exactly the five cases of the table, each with ERR_CODE 0. -/
def Obligations.EmptyInExactlyFiveCases : Prop :=
  ∀ (i : Instr) (s t : State), exec i s = .next t → s.status.empty = false →
    (t.status.empty = true ↔
      (i = .freq ∧ sampleCount s = 0) ∨ (i = .tree ∧ ∀ v, freqAt s v = 0#32) ∨ (i = .codes ∧ s.root = none) ∨
      (i = .pack ∧ sampleCount s = 0) ∨ (i = .unpack ∧ sampleCount s = 0)) ∧
    (t.status.empty = true → t.errors.code = 0#4)

/-- 60_exceptions R202, R201, 45_bitpacker_decoder R179: which command can end with which error code, and what it records in
ERR_INDEX, ERR_VALUE and FAULT_ADDR. A success leaves the three as acceptance made them. For code 1 the index is that of the
first sample without a code; for code 2 from TLOAD it is 0, the entry's or K; for TSTORE's and TLOAD's code 3 the byte offset;
otherwise a sample's, or N for PACK's last byte. FAULT_ADDR for code 3 is `FaultAddrIsExact`. -/
def Obligations.ErrorCodesByCommand : Prop :=
  ∀ (i : Instr) (s t : State), exec i s = .next t →
    t.errors.code ∈ [0#4, 1#4, 2#4, 3#4] ∧
    (i ∈ [.nop, .clear, .tree, .codes] → t.errors.code = 0#4) ∧
    (t.errors.code = 0#4 → t.errors = { s.errors with code := 0#4 }) ∧
    (t.errors.code = 1#4 → i = .pack ∧ t.errors.faultAddr = 0#32 ∧
      ∃ v : Byte, codeAt s v = [] ∧ t.errors.value = v.setWidth 32 ∧
        (matrixAt s)[t.errors.index.toNat]? = some v ∧ ∀ u ∈ (matrixAt s).take t.errors.index.toNat, codeAt s u ≠ []) ∧
    (t.errors.code = 2#4 → t.errors.faultAddr = 0#32 ∧
      ((i = .tload ∧
        ((t.errors.value = 1#32 ∧ t.errors.index = 0#32 ∧ 256 < tableCountAt s) ∨
         (t.errors.value ∈ [2#32, 3#32, 4#32] ∧ t.errors.index.toNat < tableCountAt s ∧ tableCountAt s ≤ 256) ∨
         (t.errors.value = 5#32 ∧ t.errors.index.toNat = tableCountAt s ∧ tableCountAt s ≤ 256))) ∨
       (i = .unpack ∧ t.errors.value ∈ [6#32, 7#32] ∧ t.errors.index.toNat < sampleCount s))) ∧
    (t.errors.code = 3#4 → t.errors.value = 0#32 ∧
      ((i ∈ [.freq, .unpack] ∧ t.errors.index.toNat < sampleCount s) ∨
       (i = .pack ∧ t.errors.index.toNat ≤ sampleCount s) ∨
       (i ∈ [.tstore, .tload] ∧ t.errors.faultAddr.toNat = tableAddr s + t.errors.index.toNat)))

/-- 10_state R34, 20_memory R73, R75, R76 (90_conflicts C7): a BUS_ERROR records the exact failing address: FAULT_ADDR is the
lowest address, of a region the command accesses, that is not admitted: the region's base register plus an offset inside the
region, not wrapped, with every lower offset admitted. Where the access is that of a sample or of a table byte, ERR_INDEX is
its offset. TLOAD's region ends at the latest where the longest table does (44_bitpacker_encoder R171). PACK's write region is
that of log 8. -/
def Obligations.FaultAddrIsExact : Prop :=
  ∀ (i : Instr) (s t : State), exec i s = .next t → t.errors.code = 3#4 →
    ∃ base k : Nat, t.errors.faultAddr.toNat = base + k ∧ admitted s.platform (base + k) = false ∧
      AllAdmitted s.platform { base := base, len := k } ∧
      ((i = .freq ∧ base = srcAddr s ∧ k < sampleCount s ∧ t.errors.index.toNat = k) ∨
       (i = .pack ∧ base = srcAddr s ∧ k < sampleCount s ∧ t.errors.index.toNat = k) ∨
       (i = .pack ∧ base = dstAddr s ∧ k < (packRegions s).writes.len) ∨
       (i = .tstore ∧ base = tableAddr s ∧ k < (serializeTable s.codes).length ∧ t.errors.index.toNat = k) ∨
       (i = .tload ∧ base = tableAddr s ∧ k < 8706 ∧ t.errors.index.toNat = k) ∨
       (i = .unpack ∧ base = srcAddr s ∧ k < inByteCount s) ∨
       (i = .unpack ∧ base = dstAddr s ∧ k < sampleCount s ∧ t.errors.index.toNat = k))

/-! ### NOP and CLEAR -/

/-- 40_control R111: NOP completes and changes nothing else. EMPTY stays what acceptance made it. -/
def Obligations.NopOnlyCompletes : Prop :=
  ∀ s : State, exec .nop s = .next
    { s with
      status := { s.status with done := true, err := false }
      errors := { s.errors with code := 0#4 }
      eng := .idle }

/-- 40_control R112, 70_reset_and_hazards R234: CLEAR gives the datapath and the result registers their reset values, keeps
configuration, INT_EN, OVERRUN and data memory, and completes. -/
def Obligations.ClearEmptiesTheDatapath : Prop :=
  ∀ s : State, ∃ t, exec .clear s = .next t ∧
    (∀ v, freqAt t v = 0#32) ∧ (∀ v, codeAt t v = []) ∧ t.nodes = [] ∧ t.root = none ∧
    t.results = { streamBytes := 0#32, streamLastBits := 0#4, tableBytes := 0#32, numSymbols := 0#9, treeNodes := 0#10,
                  rootWeight := 0#32, codeEntries := 0#9, maxCodeLen := 0#8 } ∧
    t = { s with
      freq := t.freq, codes := t.codes, nodes := t.nodes, root := t.root, results := t.results
      status := { s.status with done := true, err := false }
      errors := { s.errors with code := 0#4 }
      eng := .idle }

/-! ### FREQ -/

/-- 41_frequency_analyzer R121: with every sample address admitted and plain, FREQ counts every sample of the matrix into
FREQ, replacing what was there, writes NUM_SYMBOLS, sets EMPTY for an empty matrix, and changes nothing else. -/
def Obligations.FreqCountsEverySample : Prop :=
  ∀ s : State, AllAdmitted s.platform { base := srcAddr s, len := sampleCount s } →
    PlainMemory s.platform { base := srcAddr s, len := sampleCount s } →
    ∃ t, exec .freq s = .next t ∧
      (∀ v, (freqAt t v).toNat = (matrixAt s).count v) ∧
      t.results = { s.results with numSymbols := BitVec.ofNat 9 (presentValues t.freq).length } ∧
      t = { s with
        freq := t.freq, results := t.results
        status := { s.status with done := true, err := false, empty := decide (sampleCount s = 0) || s.status.empty }
        errors := { s.errors with code := 0#4 }
        eng := .idle }

/-- 41_frequency_analyzer R121's abort actions, R123: a BUS_ERROR at the lowest sample index whose address is not admitted
clears FREQ and NUM_SYMBOLS, records index and address, and changes nothing else. -/
def Obligations.FreqBusErrorAtLowestIndex : Prop :=
  ∀ (s : State) (i : Nat), i < sampleCount s → AllAdmitted s.platform { base := srcAddr s, len := i } →
    admitted s.platform (srcAddr s + i) = false →
    PlainMemory s.platform { base := srcAddr s, len := sampleCount s } →
    ∃ t, exec .freq s = .next t ∧ (∀ v, freqAt t v = 0#32) ∧ srcAddr s + i ≤ 0xFFFFFFFF ∧
      t = { s with
        freq := t.freq
        results := { s.results with numSymbols := 0#9 }
        status := { s.status with done := true, err := true }
        errors := { code := 3#4, index := BitVec.ofNat 32 i, value := 0#32, faultAddr := BitVec.ofNat 32 (srcAddr s + i) }
        eng := .idle }

/-- 41_frequency_analyzer R122: after a successful FREQ the counts sum to N. -/
def Obligations.FrequencyConservation : Prop :=
  ∀ s t : State, exec .freq s = .next t → t.status.err = false →
    (allValues.map (fun v => (freqAt t v).toNat)).sum = s.cfg.width.toNat * s.cfg.height.toNat

/-! ### TREE -/

/-- 42_tree_builder R131, R134: TREE completes in every state. Without a present value there is no tree and EMPTY is set.
With k of them the store has the k leaves in ascending value, then k − 1 internal nodes, the root last; children come before
their parents, own their weights' sum and are owned once; the root's weight is the sum of the counts; every leaf is at depth
at most k − 1. FREQ, the code table, memory and the other registers stay. -/
def Obligations.TreeBuildsTheNodeStore : Prop :=
  ∀ s : State, ∃ t, exec .tree s = .next t ∧
    (presentValues s.freq = [] → t.nodes = [] ∧ t.root = none ∧ t.results.treeNodes = 0#10 ∧ t.results.rootWeight = 0#32) ∧
    (∀ k, (presentValues s.freq).length = k + 1 →
      t.nodes.length = 2 * k + 1 ∧ t.root = some (2 * k) ∧
      t.nodes.take (k + 1) = (presentValues s.freq).map (fun v => Node.leaf v (freqAt s v)) ∧
      (∀ i, k < i → i < 2 * k + 1 → ∃ w l r, t.nodes[i]? = some (Node.internal w l r)) ∧
      NodeStoreOk t.nodes t.root ∧
      (FreqFits s → (weightAt t.nodes (2 * k)).toNat = (allValues.map (fun v => (freqAt s v).toNat)).sum) ∧
      (∀ v p, followPath t.nodes (2 * k) p = some v → p.length ≤ k) ∧
      t.results.treeNodes = BitVec.ofNat 10 (2 * k + 1) ∧ t.results.rootWeight = weightAt t.nodes (2 * k)) ∧
    t = { s with
      nodes := t.nodes, root := t.root
      results := { s.results with treeNodes := t.results.treeNodes, rootWeight := t.results.rootWeight }
      status := { s.status with done := true, err := false, empty := (presentValues s.freq).isEmpty || s.status.empty }
      errors := { s.errors with code := 0#4 }
      eng := .idle }

/-- 42_tree_builder R131 to R133: each merge takes, of the nodes that have no parent yet, the one with the smallest key
(weight, insertion index) as the left child and the one with the next smallest as the right child. -/
def Obligations.TreeMergesTheTwoSmallestKeys : Prop :=
  ∀ s t : State, exec .tree s = .next t →
    ∀ (n : Nat) (w : Word) (a b : Nat), t.nodes[n]? = some (Node.internal w a b) →
      let free := fun j => j < n ∧ j ∉ childIndices (t.nodes.take n)
      let before := fun i j => weightAt t.nodes i < weightAt t.nodes j ∨ (weightAt t.nodes i = weightAt t.nodes j ∧ i < j)
      free a ∧ free b ∧ before a b ∧ ∀ j, free j → j ≠ a → j ≠ b → before b j

/-! ### CODES -/

/-- 43_code_assigner R146: CODES gives every leaf the path from the root to it, or "0" to a root that is a leaf, leaves every
other value without a code, discards the tree, and writes CODE_ENTRIES and MAX_CODE_LEN. -/
def Obligations.CodesAreRootToLeafPaths : Prop :=
  ∀ (s : State) (r : Nat), NodeStoreOk s.nodes s.root → s.root = some r →
    ∃ t, exec .codes s = .next t ∧
      (∀ v w, s.nodes[r]? = some (Node.leaf v w) → ∀ u, codeAt t u = if u = v then [false] else []) ∧
      (∀ w a b, s.nodes[r]? = some (Node.internal w a b) →
        ∀ u p, p ≠ [] → (codeAt t u = p ↔ followPath s.nodes r p = some u)) ∧
      t.results =
        { s.results with
          codeEntries := BitVec.ofNat 9 (allValues.filter (fun v => codeAt t v != [])).length
          maxCodeLen := t.results.maxCodeLen, treeNodes := 0#10, rootWeight := 0#32 } ∧
      (∀ u, (codeAt t u).length ≤ t.results.maxCodeLen.toNat) ∧
      (∃ u, (codeAt t u).length = t.results.maxCodeLen.toNat) ∧
      t = { s with
        codes := t.codes, nodes := [], root := none, results := t.results
        status := { s.status with done := true, err := false }
        errors := { s.errors with code := 0#4 }
        eng := .idle }

/-- 43_code_assigner R146: without a tree CODES empties the code table, sets EMPTY and completes. -/
def Obligations.CodesWithoutATree : Prop :=
  ∀ s : State, s.root = none →
    ∃ t, exec .codes s = .next t ∧ (∀ v, codeAt t v = []) ∧
      t = { s with
        codes := t.codes, nodes := []
        results := { s.results with codeEntries := 0#9, maxCodeLen := 0#8, treeNodes := 0#10, rootWeight := 0#32 }
        status := { s.status with done := true, err := false, empty := true }
        errors := { s.errors with code := 0#4 }
        eng := .idle }

/-- 43_code_assigner R148: the code table that TREE and then CODES make: an entry for exactly the counted values; no code is a
prefix of another; a single value has "0"; with two or more values the code is complete (its Kraft sum is 1, written over
2^255). -/
def Obligations.HuffmanCodeIsCompletePrefixCode : Prop :=
  ∀ s t u : State, exec .tree s = .next t → exec .codes t = .next u → presentValues s.freq ≠ [] →
    (∀ v, codeAt u v ≠ [] ↔ freqAt s v ≠ 0#32) ∧
    PrefixFreeCodes u.codes ∧ CodesFit u.codes ∧
    (∀ v, presentValues s.freq = [v] → codeAt u v = [false]) ∧
    (2 ≤ (presentValues s.freq).length →
      ((presentValues s.freq).map (fun v => 2 ^ (255 - (codeAt u v).length))).sum = 2 ^ 255)

/-! ### PACK -/

/-- 44_bitpacker_encoder R156, R157, 20_memory R81: where every sample is readable and has a code, every output byte's address
is admitted and the duties are kept, PACK writes the concatenated codes MSB-first, zero-padded, at DST_BASE, and
STREAM_BYTES and STREAM_LAST_BITS; no other byte and no other state changes but STATUS and ERR_CODE. -/
def Obligations.PackWritesTheStream : Prop :=
  ∀ s : State, Memory.wf s.mem = true → DutiesKept .pack s →
    AllAdmitted s.platform { base := srcAddr s, len := sampleCount s } →
    (∀ v ∈ matrixAt s, codeAt s v ≠ []) →
    let p := streamBits s (matrixAt s)
    let n := (p.length + 7) / 8
    AllAdmitted s.platform { base := dstAddr s, len := n } →
    ∃ t, exec .pack s = .next t ∧
      (∃ pad, pad < 8 ∧ bitsOfBytes (loadBytes t.mem (dstAddr s) n) = p ++ List.replicate pad false) ∧
      (∀ a, a < dstAddr s ∨ dstAddr s + n ≤ a → Memory.read t.mem a = Memory.read s.mem a) ∧
      t.results =
        { s.results with
          streamBytes := BitVec.ofNat 32 n
          streamLastBits := if p.length = 0 then 0#4 else BitVec.ofNat 4 ((p.length - 1) % 8 + 1) } ∧
      t = { s with
        mem := t.mem, results := t.results
        status := { s.status with done := true, err := false, empty := decide (sampleCount s = 0) || s.status.empty }
        errors := { s.errors with code := 0#4 }
        eng := .idle }

/-- 44_bitpacker_encoder R156's abort actions: PACK stops at the first sample whose address is not admitted (BUS_ERROR) or
that has no code (INCONSISTENT_CODE_TABLE), with the full bytes of the stream before it written and the pending bits not. -/
def Obligations.PackStopsAtFirstBadSample : Prop :=
  ∀ (s : State) (i : Nat), Memory.wf s.mem = true → DutiesKept .pack s → i < sampleCount s →
    (∀ u ∈ (matrixAt s).take i, codeAt s u ≠ []) → AllAdmitted s.platform { base := srcAddr s, len := i } →
    let p := streamBits s ((matrixAt s).take i)
    AllAdmitted s.platform { base := dstAddr s, len := p.length / 8 } →
    let stopsWith := fun (e : ErrorRegs) => ∃ t, exec .pack s = .next t ∧
      bitsOfBytes (loadBytes t.mem (dstAddr s) (p.length / 8)) = p.take (8 * (p.length / 8)) ∧
      (∀ a, a < dstAddr s ∨ dstAddr s + p.length / 8 ≤ a → Memory.read t.mem a = Memory.read s.mem a) ∧
      t = { s with
        mem := t.mem
        results := { s.results with streamBytes := 0#32, streamLastBits := 0#4 }
        status := { s.status with done := true, err := true }
        errors := e
        eng := .idle }
    (admitted s.platform (srcAddr s + i) = false →
      stopsWith { code := 3#4, index := BitVec.ofNat 32 i, value := 0#32, faultAddr := BitVec.ofNat 32 (srcAddr s + i) }) ∧
    (∀ v, admitted s.platform (srcAddr s + i) = true → (matrixAt s)[i]? = some v → codeAt s v = [] →
      stopsWith { code := 1#4, index := BitVec.ofNat 32 i, value := v.setWidth 32, faultAddr := 0#32 })

/-- 44_bitpacker_encoder R156's abort actions: a BUS_ERROR on output byte j, the first that is not admitted, records the
sample whose bit completed the byte, or N for the final partial byte; the bytes before j stay written. -/
def Obligations.PackBusErrorOnOutputByte : Prop :=
  ∀ (s : State) (i j : Nat), Memory.wf s.mem = true → DutiesKept .pack s → i ≤ sampleCount s →
    let p := fun k => streamBits s ((matrixAt s).take k)
    (p i).length < 8 * (j + 1) → (i < sampleCount s → 8 * (j + 1) ≤ (p (i + 1)).length) →
    (i = sampleCount s → 8 * j < (p i).length) →
    (∀ u ∈ (matrixAt s).take (i + 1), codeAt s u ≠ []) →
    AllAdmitted s.platform { base := srcAddr s, len := min (i + 1) (sampleCount s) } →
    AllAdmitted s.platform { base := dstAddr s, len := j } → admitted s.platform (dstAddr s + j) = false →
    ∃ t, exec .pack s = .next t ∧
      bitsOfBytes (loadBytes t.mem (dstAddr s) j) = (p (i + 1)).take (8 * j) ∧
      (∀ a, a < dstAddr s ∨ dstAddr s + j ≤ a → Memory.read t.mem a = Memory.read s.mem a) ∧
      t = { s with
        mem := t.mem
        results := { s.results with streamBytes := 0#32, streamLastBits := 0#4 }
        status := { s.status with done := true, err := true }
        errors := { code := 3#4, index := BitVec.ofNat 32 i, value := 0#32, faultAddr := BitVec.ofNat 32 (dstAddr s + j) }
        eng := .idle }

/-! ### TSTORE -/

/-- 44_bitpacker_encoder R171: the length of the serialized table, its least and its greatest value. -/
def Obligations.SerializedTableLength : Prop :=
  (∀ codes : Vector BitString 256,
    (serializeTable codes).length =
      2 + ((allValues.filter (fun v => tabGet codes v != [])).map (fun v => 2 + ((tabGet codes v).length + 7) / 8)).sum) ∧
  (∀ codes : Vector BitString 256, CodesFit codes → 2 ≤ (serializeTable codes).length ∧ (serializeTable codes).length ≤ 8706) ∧
  serializeTable State.reset.codes = [0#8, 0#8] ∧
  (∀ codes : Vector BitString 256, (∀ v, (tabGet codes v).length = 255) → (serializeTable codes).length = 8706)

/-- 44_bitpacker_encoder R170, R172: TSTORE writes the serialized table at TABLE_BASE: the entry count, low byte first; then
for each value with a code, in ascending value, its VALUE, its LEN and its BITS. No other byte changes. -/
def Obligations.TstoreWritesTheTable : Prop :=
  ∀ s : State, Memory.wf s.mem = true →
    AllAdmitted s.platform { base := tableAddr s, len := (serializeTable s.codes).length } →
    PlainMemory s.platform { base := tableAddr s, len := (serializeTable s.codes).length } →
    let present := allValues.filter (fun v => codeAt s v != [])
    let k := present.length
    let n := (serializeTable s.codes).length
    ∃ t, exec .tstore s = .next t ∧
      loadBytes t.mem (tableAddr s) n =
        BitVec.ofNat 8 k :: BitVec.ofNat 8 (k / 256) ::
          present.flatMap (fun v => v :: BitVec.ofNat 8 (codeAt s v).length :: packBytes (codeAt s v)) ∧
      (∀ a, a < tableAddr s ∨ tableAddr s + n ≤ a → Memory.read t.mem a = Memory.read s.mem a) ∧
      t = { s with
        mem := t.mem
        results := { s.results with tableBytes := BitVec.ofNat 32 n }
        status := { s.status with done := true, err := false }
        errors := { s.errors with code := 0#4 }
        eng := .idle }

/-- 44_bitpacker_encoder R172's abort actions: a BUS_ERROR at byte offset j leaves the bytes below j written and records j. -/
def Obligations.TstoreBusErrorAtOffset : Prop :=
  ∀ (s : State) (j : Nat), Memory.wf s.mem = true → j < (serializeTable s.codes).length →
    AllAdmitted s.platform { base := tableAddr s, len := j } → admitted s.platform (tableAddr s + j) = false →
    PlainMemory s.platform { base := tableAddr s, len := (serializeTable s.codes).length } →
    ∃ t, exec .tstore s = .next t ∧
      loadBytes t.mem (tableAddr s) j = (serializeTable s.codes).take j ∧
      (∀ a, a < tableAddr s ∨ tableAddr s + j ≤ a → Memory.read t.mem a = Memory.read s.mem a) ∧
      t = { s with
        mem := t.mem
        results := { s.results with tableBytes := 0#32 }
        status := { s.status with done := true, err := true }
        errors := { code := 3#4, index := BitVec.ofNat 32 j, value := 0#32, faultAddr := BitVec.ofNat 32 (tableAddr s + j) }
        eng := .idle }

/-! ### TLOAD -/

/-- 45_bitpacker_decoder R176, R177: where memory at TABLE_BASE spells a prefix-free table whose codes fit, TLOAD makes it the
code table and writes TABLE_BYTES, CODE_ENTRIES and MAX_CODE_LEN; nothing else changes but STATUS and ERR_CODE. -/
def Obligations.TloadReadsASerializedTable : Prop :=
  ∀ (s : State) (codes : Vector BitString 256), PrefixFreeCodes codes → CodesFit codes →
    let n := (serializeTable codes).length
    loadBytes s.mem (tableAddr s) n = serializeTable codes →
    AllAdmitted s.platform { base := tableAddr s, len := n } → PlainMemory s.platform { base := tableAddr s, len := n } →
    ∃ t, exec .tload s = .next t ∧ t.codes = codes ∧
      (∀ v, (tabGet codes v).length ≤ t.results.maxCodeLen.toNat) ∧
      (t.results.maxCodeLen = 0#8 ∨ ∃ v, (tabGet codes v).length = t.results.maxCodeLen.toNat) ∧
      t = { s with
        codes := codes
        results :=
          { s.results with
            tableBytes := BitVec.ofNat 32 n
            codeEntries := BitVec.ofNat 9 (allValues.filter (fun v => tabGet codes v != [])).length
            maxCodeLen := t.results.maxCodeLen }
        status := { s.status with done := true, err := false }
        errors := { s.errors with code := 0#4 }
        eng := .idle }

/-- 45_bitpacker_decoder R176's abort actions, R178: a BUS_ERROR at byte offset j, the first that is not admitted, of a table
that shows no defect as far as it can be read, is recorded with that offset: where the bytes before it begin a serialized
table; and, whether or not some table continues them, where they are nothing, the low count byte, or a count K of at most 256,
fewer than K good entries (values rising, codes of 1 to 255 bits) and of the next entry nothing, or a higher VALUE, or that
and a LEN other than 0 and fewer bytes than LEN needs. -/
def Obligations.TloadBusErrorAtOffset : Prop :=
  ∀ s : State,
    let failsAt := fun (j : Nat) => exec .tload s = .next
      { s with
        results := { s.results with tableBytes := 0#32 }
        status := { s.status with done := true, err := true }
        errors := { code := 3#4, index := BitVec.ofNat 32 j, value := 0#32, faultAddr := BitVec.ofNat 32 (tableAddr s + j) }
        eng := .idle }
    let firstBad := fun (j : Nat) => AllAdmitted s.platform { base := tableAddr s, len := j } ∧
      admitted s.platform (tableAddr s + j) = false ∧ PlainMemory s.platform { base := tableAddr s, len := j }
    (∀ (codes : Vector BitString 256) (j : Nat), CodesFit codes → j < (serializeTable codes).length →
      loadBytes s.mem (tableAddr s) j = (serializeTable codes).take j → firstBad j → failsAt j) ∧
    (firstBad 0 → failsAt 0) ∧ (firstBad 1 → failsAt 1) ∧
    (∀ (es : List (Byte × BitString)) (lo hi : Byte) (more : List Byte),
      let entries := es.flatMap (fun e => e.1 :: BitVec.ofNat 8 e.2.length :: packBytes e.2)
      let n := 2 + entries.length + more.length
      loadBytes s.mem (tableAddr s) n = lo :: hi :: (entries ++ more) → firstBad n →
      (es.map Prod.fst).Pairwise (· < ·) → (∀ e ∈ es, e.2 ≠ [] ∧ e.2.length ≤ 255) →
      lo.toNat + 256 * hi.toNat ≤ 256 → es.length < lo.toNat + 256 * hi.toNat →
      (more = [] ∨ ∃ (v : Byte) (tail : List Byte), more = v :: tail ∧ (∀ e ∈ es.getLast?, e.1 < v) ∧
        (tail = [] ∨ ∃ (len : Byte) (bs : List Byte), tail = len :: bs ∧ len ≠ 0#8 ∧ bs.length < (len.toNat + 7) / 8)) →
      failsAt n)

/-- 45_bitpacker_decoder R176's abort actions, R178, R179: a TLOAD that fails leaves the code table, CODE_ENTRIES,
MAX_CODE_LEN, FREQ, the tree and memory as they were, and TABLE_BYTES 0. -/
def Obligations.TloadFailureKeepsTheTable : Prop :=
  ∀ s t : State, exec .tload s = .next t → t.status.err = true →
    (t.errors.code = 2#4 ∨ t.errors.code = 3#4) ∧
    t = { s with
      results := { s.results with tableBytes := 0#32 }
      status := { s.status with done := true, err := true }
      errors := t.errors
      eng := .idle }

/-- 45_bitpacker_decoder R176, R178, R179: TLOAD reports the first defect of a table. The table begins with the entries `es`,
each with a value above the one before and a code of 1 to 255 bits, and its count K is at most 256; then: an entry count
above 256 is sub-cause 1; a next entry whose VALUE is not above the last is sub-cause 2; one with LEN = 0 is sub-cause 3; one
with a padding bit that is 1 is sub-cause 4; a table of exactly these entries that is not prefix-free is sub-cause 5. -/
def Obligations.TloadReportsTheFirstDefect : Prop :=
  ∀ (s : State) (es : List (Byte × BitString)) (lo hi : Byte) (more : List Byte),
    let entries := es.flatMap (fun e => e.1 :: BitVec.ofNat 8 e.2.length :: packBytes e.2)
    let k := lo.toNat + 256 * hi.toNat
    let n := 2 + entries.length + more.length
    loadBytes s.mem (tableAddr s) n = lo :: hi :: (entries ++ more) →
    AllAdmitted s.platform { base := tableAddr s, len := n } → PlainMemory s.platform { base := tableAddr s, len := n } →
    (es.map Prod.fst).Pairwise (· < ·) → (∀ e ∈ es, e.2 ≠ [] ∧ e.2.length ≤ 255) →
    let fails := fun (sub index : Nat) => ∃ t, exec .tload s = .next t ∧
      t.errors = { code := 2#4, index := BitVec.ofNat 32 index, value := BitVec.ofNat 32 sub, faultAddr := 0#32 }
    (256 < k → fails 1 0) ∧
    (k ≤ 256 → es.length < k → ∀ v, more = [v] → (∃ e ∈ es.getLast?, v ≤ e.1) → fails 2 es.length) ∧
    (k ≤ 256 → es.length < k → ∀ v, more = [v, 0#8] → (∀ e ∈ es.getLast?, e.1 < v) → fails 3 es.length) ∧
    (k ≤ 256 → es.length < k → ∀ v len bs, more = v :: len :: bs → (∀ e ∈ es.getLast?, e.1 < v) → len ≠ 0#8 →
      bs.length = (len.toNat + 7) / 8 → (∃ q, len.toNat ≤ q ∧ (bitsOfBytes bs)[q]? = some true) → fails 4 es.length) ∧
    (k ≤ 256 → k = es.length → more = [] → (∃ d ∈ es, ∃ e ∈ es, d.1 ≠ e.1 ∧ d.2 <+: e.2) → fails 5 k)

/-- 45_bitpacker_decoder R181: TSTORE then TLOAD is the identity on the code table, and TABLE_BYTES is the same. The bytes of
the table stand unchanged between the two, and both commands succeed. -/
def Obligations.TstoreThenTloadIsIdentity : Prop :=
  ∀ s t u v : State, Memory.wf s.mem = true → PrefixFreeCodes s.codes → CodesFit s.codes →
    exec .tstore s = .next t → t.status.err = false →
    u.cfg.tableBase = s.cfg.tableBase →
    (∀ a, tableAddr s ≤ a → a < tableAddr s + t.results.tableBytes.toNat → Memory.read u.mem a = Memory.read t.mem a) →
    exec .tload u = .next v → v.status.err = false →
    v.codes = s.codes ∧ v.results.tableBytes = t.results.tableBytes

/-! ### UNPACK -/

/-- 45_bitpacker_decoder R183, R184, R39: where the stream at SRC_BASE begins with the codes of N samples and the table is
prefix-free, UNPACK writes those samples at DST_BASE, reads only the bytes that hold those codes, whatever the bits after
them, and writes STREAM_BYTES and STREAM_LAST_BITS; no other byte and no other state changes but STATUS and ERR_CODE. -/
def Obligations.UnpackDecodesTheStream : Prop :=
  ∀ (s : State) (vs : List Byte), Memory.wf s.mem = true → DutiesKept .unpack s → PrefixFreeCodes s.codes →
    vs.length = sampleCount s → (∀ v ∈ vs, codeAt s v ≠ []) →
    let p := streamBits s vs
    let n := (p.length + 7) / 8
    n ≤ inByteCount s → p <+: bitsOfBytes (loadBytes s.mem (srcAddr s) n) →
    AllAdmitted s.platform { base := srcAddr s, len := n } →
    AllAdmitted s.platform { base := dstAddr s, len := sampleCount s } →
    ∃ t, exec .unpack s = .next t ∧ loadBytes t.mem (dstAddr s) (sampleCount s) = vs ∧
      (∀ a, a < dstAddr s ∨ dstAddr s + sampleCount s ≤ a → Memory.read t.mem a = Memory.read s.mem a) ∧
      t = { s with
        mem := t.mem
        results :=
          { s.results with
            streamBytes := BitVec.ofNat 32 n
            streamLastBits := if p.length = 0 then 0#4 else BitVec.ofNat 4 ((p.length - 1) % 8 + 1) }
        status := { s.status with done := true, err := false, empty := decide (sampleCount s = 0) || s.status.empty }
        errors := { s.errors with code := 0#4 }
        eng := .idle }

/-- 45_bitpacker_decoder R183, R185, R179: the first m bytes of the stream hold the codes of the samples `vs` and the start of
another code. If m is IN_BYTES, UNPACK reports STREAM_EXHAUSTED at the next sample; if byte m is not admitted, BUS_ERROR at
it; either way with `vs` written. -/
def Obligations.UnpackNeedsAByteItCannotRead : Prop :=
  ∀ (s : State) (vs : List Byte) (q : BitString) (m : Nat), Memory.wf s.mem = true → DutiesKept .unpack s →
    PrefixFreeCodes s.codes → vs.length < sampleCount s → (∀ v ∈ vs, codeAt s v ≠ []) →
    (q = [] ∨ ∃ u, q <+: codeAt s u ∧ q ≠ codeAt s u) →
    bitsOfBytes (loadBytes s.mem (srcAddr s) m) = streamBits s vs ++ q → m ≤ inByteCount s →
    AllAdmitted s.platform { base := srcAddr s, len := m } →
    AllAdmitted s.platform { base := dstAddr s, len := vs.length } →
    let stopsWith := fun (e : ErrorRegs) => ∃ t, exec .unpack s = .next t ∧ loadBytes t.mem (dstAddr s) vs.length = vs ∧
      (∀ a, a < dstAddr s ∨ dstAddr s + vs.length ≤ a → Memory.read t.mem a = Memory.read s.mem a) ∧
      t = { s with
        mem := t.mem
        results := { s.results with streamBytes := 0#32, streamLastBits := 0#4 }
        status := { s.status with done := true, err := true }
        errors := e
        eng := .idle }
    (m = inByteCount s →
      stopsWith { code := 2#4, index := BitVec.ofNat 32 vs.length, value := 6#32, faultAddr := 0#32 }) ∧
    (m < inByteCount s → admitted s.platform (srcAddr s + m) = false →
      stopsWith
        { code := 3#4, index := BitVec.ofNat 32 vs.length, value := 0#32, faultAddr := BitVec.ofNat 32 (srcAddr s + m) })

/-- 45_bitpacker_decoder R183's abort actions: a BUS_ERROR on the write of a sample whose code was read leaves the samples
before it written and records its index. -/
def Obligations.UnpackBusErrorOnSampleWrite : Prop :=
  ∀ (s : State) (vs : List Byte) (v : Byte), Memory.wf s.mem = true → DutiesKept .unpack s → PrefixFreeCodes s.codes →
    vs.length < sampleCount s → (∀ u ∈ vs ++ [v], codeAt s u ≠ []) →
    let p := streamBits s (vs ++ [v])
    let n := (p.length + 7) / 8
    n ≤ inByteCount s → p <+: bitsOfBytes (loadBytes s.mem (srcAddr s) n) →
    AllAdmitted s.platform { base := srcAddr s, len := n } →
    AllAdmitted s.platform { base := dstAddr s, len := vs.length } →
    admitted s.platform (dstAddr s + vs.length) = false →
    ∃ t, exec .unpack s = .next t ∧ loadBytes t.mem (dstAddr s) vs.length = vs ∧
      (∀ a, a < dstAddr s ∨ dstAddr s + vs.length ≤ a → Memory.read t.mem a = Memory.read s.mem a) ∧
      t = { s with
        mem := t.mem
        results := { s.results with streamBytes := 0#32, streamLastBits := 0#4 }
        status := { s.status with done := true, err := true }
        errors :=
          { code := 3#4, index := BitVec.ofNat 32 vs.length, value := 0#32
            faultAddr := BitVec.ofNat 32 (dstAddr s + vs.length) }
        eng := .idle }

/-- 45_bitpacker_decoder R183, R185, R179: after the samples `vs` come bits `q ++ [b]` where q is [] or a proper prefix of a
code and `q ++ [b]` is no prefix of any code: NO_LEAF at the next sample, with `vs` written. -/
def Obligations.UnpackReportsDeadEnd : Prop :=
  ∀ (s : State) (vs : List Byte) (q : BitString) (b : Bool), Memory.wf s.mem = true → DutiesKept .unpack s →
    PrefixFreeCodes s.codes → vs.length < sampleCount s → (∀ v ∈ vs, codeAt s v ≠ []) →
    (q = [] ∨ ∃ u, q <+: codeAt s u ∧ q ≠ codeAt s u) → (∀ u, codeAt s u ≠ [] → ¬ (q ++ [b]) <+: codeAt s u) →
    let p := streamBits s vs ++ (q ++ [b])
    let n := (p.length + 7) / 8
    n ≤ inByteCount s → p <+: bitsOfBytes (loadBytes s.mem (srcAddr s) n) →
    AllAdmitted s.platform { base := srcAddr s, len := n } →
    AllAdmitted s.platform { base := dstAddr s, len := vs.length } →
    ∃ t, exec .unpack s = .next t ∧ loadBytes t.mem (dstAddr s) vs.length = vs ∧
      (∀ a, a < dstAddr s ∨ dstAddr s + vs.length ≤ a → Memory.read t.mem a = Memory.read s.mem a) ∧
      t = { s with
        mem := t.mem
        results := { s.results with streamBytes := 0#32, streamLastBits := 0#4 }
        status := { s.status with done := true, err := true }
        errors := { code := 2#4, index := BitVec.ofNat 32 vs.length, value := 7#32, faultAddr := 0#32 }
        eng := .idle }

/-! ### The codec as a whole -/

/-- 45_bitpacker_decoder R187: for a non-empty matrix, the five commands of COMPRESS and then, from any state with the same
WIDTH and HEIGHT, the table where TSTORE wrote it and the stream where PACK wrote it (the two regions apart), the two
commands of DECOMPRESS write the matrix at the new DST_BASE. The commands of COMPRESS succeed, and the accesses of
DECOMPRESS are admitted plain memory with its read and write regions apart. -/
def Obligations.CompressThenDecompressRestoresTheMatrix : Prop :=
  ∀ s s1 s2 s3 s4 s5 u : State, Memory.wf s.mem = true → Memory.wf u.mem = true → sampleCount s ≠ 0 →
    exec .freq s = .next s1 → s1.status.err = false → exec .tree s1 = .next s2 → exec .codes s2 = .next s3 →
    exec .pack s3 = .next s4 → s4.status.err = false → exec .tstore s4 = .next s5 → s5.status.err = false →
    Apart { base := dstAddr s, len := s5.results.streamBytes.toNat }
      { base := tableAddr s, len := s5.results.tableBytes.toNat } →
    u.cfg.width = s.cfg.width → u.cfg.height = s.cfg.height → u.cfg.srcBase = s.cfg.dstBase →
    u.cfg.tableBase = s.cfg.tableBase → u.cfg.inBytes = s5.results.streamBytes →
    (∀ a, dstAddr s ≤ a → a < dstAddr s + s5.results.streamBytes.toNat → Memory.read u.mem a = Memory.read s5.mem a) →
    (∀ a, tableAddr s ≤ a → a < tableAddr s + s5.results.tableBytes.toNat →
      Memory.read u.mem a = Memory.read s5.mem a) →
    (∀ r ∈ [{ base := srcAddr u, len := inByteCount u : Span }, { base := dstAddr u, len := sampleCount u },
        { base := tableAddr u, len := s5.results.tableBytes.toNat }],
      AllAdmitted u.platform r ∧ PlainMemory u.platform r) →
    Apart { base := srcAddr u, len := inByteCount u } { base := dstAddr u, len := sampleCount u } →
    ∃ v w, exec .tload u = .next v ∧ v.status.err = false ∧ exec .unpack v = .next w ∧ w.status.err = false ∧
      loadBytes w.mem (dstAddr u) (sampleCount u) = matrixAt s

/-- 45_bitpacker_decoder R188: with IN_BYTES one less than STREAM_BYTES, UNPACK of a non-empty matrix's stream ends with
CORRUPT_ARTIFACT, sub-cause 6. -/
def Obligations.TruncationIsDetected : Prop :=
  ∀ s t u : State, Memory.wf s.mem = true → PrefixFreeCodes s.codes → sampleCount s ≠ 0 →
    exec .pack s = .next t → t.status.err = false →
    u.cfg.width = s.cfg.width → u.cfg.height = s.cfg.height → u.codes = s.codes →
    u.cfg.srcBase = s.cfg.dstBase → inByteCount u + 1 = t.results.streamBytes.toNat →
    (∀ a, dstAddr s ≤ a → a < dstAddr s + inByteCount u → Memory.read u.mem a = Memory.read t.mem a) →
    DutiesKept .unpack u → AllAdmitted u.platform { base := srcAddr u, len := inByteCount u } →
    AllAdmitted u.platform { base := dstAddr u, len := sampleCount u } →
    ∃ v, exec .unpack u = .next v ∧ v.errors.code = 2#4 ∧ v.errors.value = 6#32 ∧ v.status.err = true

/-! ### Invariants -/

/-- Every step keeps the canonical form of data memory (the model's own form of 20_memory R71, R74: rising addresses of the
address space, no default byte listed). -/
def Obligations.StepKeepsMemoryCanonical : Prop :=
  ∀ s t : State, Memory.wf s.mem = true → step s = .next t → Memory.wf t.mem = true

/-- 45_bitpacker_decoder R180: the code table is always prefix-free: every step of the machine keeps it so. -/
def Obligations.CodeTableStaysPrefixFree : Prop :=
  ∀ s t : State, PrefixFreeCodes s.codes → step s = .next t → PrefixFreeCodes t.codes

/-- 10_state R28, R29, R31 to R34, 60_exceptions R201, R204, R207: every step keeps STATUS and the error registers in
agreement. -/
def Obligations.FlagsStayConsistent : Prop :=
  ∀ s t : State, FlagsOk s → step s = .next t → FlagsOk t

/-- Every step keeps the whole machine's invariant: canonical memory, consistent flags, counts within 32 bits (00_scope R11),
a well-formed node store (10_state R43, 42_tree_builder R134), a prefix-free code table (45_bitpacker_decoder R180) of codes of
at most 255 bits (10_state R45), and result registers that agree with the datapath (10_state R40). The canonical form of memory
is the model's own, log 2. -/
def Obligations.StepKeepsInvariant : Prop :=
  ∀ s t : State, Inv s → step s = .next t → Inv t

/-- 70_reset_and_hazards R231, R233: the state after reset meets the invariant, whose canonical form of memory is the model's own
(log 2). -/
def Obligations.ResetMeetsInvariant : Prop := Inv State.reset
end

