-- ==== Sys2Proof/Laws/Bits.lean ====
section
/-!
SUPPORT. Bytes and bit strings: what a packed bit string reads back as (20_memory R81), and the lengths.
-/

namespace Sys2Proof.Machine

@[simp] theorem length_bitsOfByte (b : Byte) : (bitsOfByte b).length = 8 := rfl

@[simp] theorem bitsOfBytes_nil : bitsOfBytes [] = [] := rfl

@[simp] theorem bitsOfBytes_cons (b : Byte) (bs : List Byte) : bitsOfBytes (b :: bs) = bitsOfByte b ++ bitsOfBytes bs := rfl

@[simp] theorem bitsOfBytes_append (as bs : List Byte) : bitsOfBytes (as ++ bs) = bitsOfBytes as ++ bitsOfBytes bs := by
  simp [bitsOfBytes]

@[simp] theorem length_bitsOfBytes (bs : List Byte) : (bitsOfBytes bs).length = 8 * bs.length := by
  induction bs with
  | nil => rfl
  | cons b bs ih => simp [ih]; omega

/-- Bit k of a byte in stream order is its bit 7 − k. -/
theorem getElem?_bitsOfByte (b : Byte) (k : Nat) (h : k < 8) : (bitsOfByte b)[k]? = some (byteBit b (7 - k)) := by
  interval_cases k <;> rfl

/-- Bit k of a byte sequence in stream order is in byte k / 8. -/
theorem getElem?_bitsOfBytes : ∀ (bs : List Byte) (k : Nat),
    (bitsOfBytes bs)[k]? = (bs[k / 8]?).map (fun b => byteBit b (7 - k % 8))
  | [], k => by simp
  | b :: bs, k => by
    rw [bitsOfBytes_cons]
    by_cases h : k < 8
    · rw [List.getElem?_append_left (by simpa using h), getElem?_bitsOfByte b k h, show k / 8 = 0 by omega,
        show k % 8 = k by omega]
      rfl
    · rw [List.getElem?_append_right (by simp; omega), length_bitsOfByte, getElem?_bitsOfBytes bs (k - 8),
        show k / 8 = (k - 8) / 8 + 1 by omega, show (k - 8) % 8 = k % 8 by omega]
      rfl

theorem natOfBits_replicate : ∀ (k n : Nat), natOfBits k (List.replicate n false) = 0
  | 0, n => by simp [natOfBits]
  | _ + 1, 0 => rfl
  | k + 1, n + 1 => by simp [List.replicate_succ, natOfBits, natOfBits_replicate k n]

/-- Missing bits count as 0. -/
theorem natOfBits_append_replicate : ∀ (k : Nat) (bs : BitString) (n : Nat),
    natOfBits k (bs ++ List.replicate n false) = natOfBits k bs
  | 0, _, _ => by simp [natOfBits]
  | k + 1, [], n => by rw [List.nil_append, natOfBits_replicate, natOfBits]
  | k + 1, b :: bs, n => by simp [natOfBits, natOfBits_append_replicate k bs n]

theorem byteOfBits_append_replicate (bs : BitString) (n : Nat) :
    byteOfBits (bs ++ List.replicate n false) = byteOfBits bs := by
  rw [byteOfBits, natOfBits_append_replicate, byteOfBits]

/-- Eight bits made a byte read back as themselves. -/
theorem bitsOfByte_byteOfBits_of_length (bs : BitString) (h : bs.length = 8) : bitsOfByte (byteOfBits bs) = bs := by
  match bs, h with
  | [a, b, c, d, e, f, g, i], _ => revert a b c d e f g i; decide

/-- At most eight bits made a byte read back as themselves, zero-padded (20_memory R81). -/
theorem bitsOfByte_byteOfBits (bs : BitString) (h : bs.length ≤ 8) :
    bitsOfByte (byteOfBits bs) = bs ++ List.replicate (8 - bs.length) false := by
  rw [← byteOfBits_append_replicate bs (8 - bs.length)]
  exact bitsOfByte_byteOfBits_of_length _ (by simp; omega)

theorem byteOfBits_bitsOfByte (b : Byte) : byteOfBits (bitsOfByte b) = b := by
  revert b
  decide +kernel

/-- Only the first eight bits of a bit string count for its first byte. -/
theorem natOfBits_take : ∀ (k : Nat) (bs : BitString), natOfBits k (bs.take k) = natOfBits k bs
  | 0, _ => by simp [natOfBits]
  | _ + 1, [] => rfl
  | k + 1, b :: bs => by simp [natOfBits, natOfBits_take k bs]

theorem byteOfBits_take (bs : BitString) : byteOfBits (bs.take 8) = byteOfBits bs := by
  rw [byteOfBits, natOfBits_take, byteOfBits]

/-- Two byte sequences that carry the same bits are the same. -/
theorem bitsOfBytes_inj : ∀ (as bs : List Byte), bitsOfBytes as = bitsOfBytes bs → as = bs
  | [], [], _ => rfl
  | [], b :: bs, h => by
    have := congrArg List.length h
    simp only [length_bitsOfBytes, List.length_nil, List.length_cons] at this
    omega
  | a :: as, [], h => by
    have := congrArg List.length h
    simp only [length_bitsOfBytes, List.length_nil, List.length_cons] at this
    omega
  | a :: as, b :: bs, h => by
    rw [bitsOfBytes_cons, bitsOfBytes_cons] at h
    obtain ⟨h1, h2⟩ := List.append_inj h rfl
    rw [← byteOfBits_bitsOfByte a, h1, byteOfBits_bitsOfByte, bitsOfBytes_inj as bs h2]

@[simp] theorem length_bytesOfBits : ∀ (n : Nat) (bs : BitString), (bytesOfBits n bs).length = n
  | 0, _ => rfl
  | n + 1, bs => by simp [bytesOfBits, length_bytesOfBits n]

@[simp] theorem length_packBytes (bs : BitString) : (packBytes bs).length = bytesFor bs.length := by simp [packBytes]

/-- n bytes of a bit string carry its first 8 · n bits, zero-padded. -/
theorem bitsOfBytes_bytesOfBits : ∀ (n : Nat) (bs : BitString),
    bitsOfBytes (bytesOfBits n bs) = bs.take (8 * n) ++ List.replicate (8 * n - bs.length) false
  | 0, _ => by simp [bytesOfBits]
  | n + 1, bs => by
    rw [bytesOfBits, bitsOfBytes_cons, bitsOfBytes_bytesOfBits n, ← byteOfBits_take,
      bitsOfByte_byteOfBits _ (by simp)]
    by_cases h : 8 ≤ bs.length
    · simp only [List.length_take, Nat.min_eq_left h, Nat.sub_self, List.replicate_zero, List.append_nil, List.length_drop]
      rw [← List.append_assoc, ← List.take_add, show 8 + 8 * n = 8 * (n + 1) by omega,
        show 8 * n - (bs.length - 8) = 8 * (n + 1) - bs.length by omega]
    · rw [List.drop_eq_nil_of_le (by omega), List.take_of_length_le (by omega : bs.length ≤ 8),
        List.take_of_length_le (by omega : bs.length ≤ 8 * (n + 1))]
      simp only [List.take_nil, List.nil_append, List.append_assoc, List.replicate_append_replicate, List.length_nil]
      rw [show 8 - bs.length + (8 * n - 0) = 8 * (n + 1) - bs.length by omega]

/-- A packed bit string reads back as itself and fewer than eight 0 bits (20_memory R81). -/
theorem bitsOfBytes_packBytes (bs : BitString) :
    bitsOfBytes (packBytes bs) = bs ++ List.replicate (8 * bytesFor bs.length - bs.length) false := by
  rw [packBytes, bitsOfBytes_bytesOfBits, List.take_of_length_le (by unfold bytesFor; omega)]

theorem bytesFor_pad_lt (n : Nat) : 8 * bytesFor n - n < 8 := by unfold bytesFor; omega

theorem le_bytesFor (n : Nat) : n ≤ 8 * bytesFor n := by unfold bytesFor; omega

/-- A byte sequence is the packing of a bit string exactly if it carries the bits and then 0 bits only. -/
theorem eq_packBytes_iff (bytes : List Byte) (bs : BitString) :
    bytes = packBytes bs ↔ bitsOfBytes bytes = bs ++ List.replicate (8 * bytesFor bs.length - bs.length) false := by
  rw [← bitsOfBytes_packBytes]
  exact ⟨fun h => h ▸ rfl, bitsOfBytes_inj _ _⟩

@[simp] theorem bytesFor_zero : bytesFor 0 = 0 := rfl

/-- The position after k whole bytes. -/
theorem bytesFor_mul (k : Nat) : bytesFor (8 * k) = k := by unfold bytesFor; omega

end Sys2Proof.Machine
end

