-- ==== Sys2Proof/Laws/Tables.lean ====
section
/-!
SUPPORT. Tables indexed by intensity value: reading, replacing, building; and counting over them.
-/

namespace Sys2Proof.Machine

@[simp] theorem length_allValues : allValues.length = 256 := by simp [allValues]

theorem getElem?_allValues (i : Nat) (h : i < 256) : allValues[i]? = some (BitVec.ofNat 8 i) := by
  simp [allValues, h]

@[simp] theorem mem_allValues (v : Byte) : v ∈ allValues := by
  simp only [allValues, List.mem_map, List.mem_range]
  exact ⟨v.toNat, v.isLt, by simp⟩

theorem nodup_allValues : allValues.Nodup := by
  refine List.Nodup.map_on ?_ List.nodup_range
  intro i hi j hj h
  simp only [List.mem_range] at hi hj
  have := congrArg BitVec.toNat h
  simpa [Nat.mod_eq_of_lt hi, Nat.mod_eq_of_lt hj] using this

theorem pairwise_allValues : allValues.Pairwise (· < ·) := by
  rw [allValues, List.pairwise_map]
  refine List.Pairwise.imp_of_mem ?_ List.pairwise_lt_range
  intro i j hi hj h
  simp only [List.mem_range] at hi hj
  rw [BitVec.lt_def]
  simpa [Nat.mod_eq_of_lt hi, Nat.mod_eq_of_lt hj] using h

@[simp] theorem tabGet_tabOf {α : Type} (f : Byte → α) (v : Byte) : tabGet (tabOf f) v = f v := by
  simp [tabGet, tabOf, allValues]

@[simp] theorem tabGet_tabSet {α : Type} (t : Vector α 256) (v u : Byte) (x : α) :
    tabGet (tabSet t v x) u = if u = v then x else tabGet t u := by
  simp only [tabGet, tabSet, Vector.getElem_set]
  by_cases h : u = v
  · simp [h]
  · rw [if_neg, if_neg h]
    intro h'
    exact h (BitVec.eq_of_toNat_eq h'.symm)

@[simp] theorem tabGet_replicate {α : Type} (x : α) (v : Byte) : tabGet (Vector.replicate 256 x) v = x := by
  simp [tabGet]

/-- Two tables with the same entries are the same table. -/
theorem tab_ext {α : Type} {s t : Vector α 256} (h : ∀ v, tabGet s v = tabGet t v) : s = t := by
  apply Vector.ext
  intro i hi
  have := h (BitVec.ofNat 8 i)
  simpa [tabGet, Nat.mod_eq_of_lt hi] using this

/-- The entries of a table in ascending value. -/
theorem toList_eq_map_allValues {α : Type} (t : Vector α 256) : t.toList = allValues.map (tabGet t) := by
  apply List.ext_getElem
  · simp
  · intro i h1 h2
    simp only [Vector.length_toList] at h1
    simp [allValues, tabGet, Nat.mod_eq_of_lt h1]

/-- What counting over a table's entries counts. -/
theorem countP_toList {α : Type} (t : Vector α 256) (p : α → Bool) :
    t.toList.countP p = (allValues.filter (fun v => p (tabGet t v))).length := by
  rw [toList_eq_map_allValues, List.countP_map, List.countP_eq_length_filter]
  rfl

theorem entryCount_eq (codes : Vector BitString 256) :
    entryCount codes = (allValues.filter (fun v => tabGet codes v != [])).length := by
  rw [entryCount, countP_toList]
  congr 2
  funext v
  cases tabGet codes v <;> rfl

theorem symbolCount_eq (freq : Vector Word 256) :
    symbolCount freq = (allValues.filter (fun v => tabGet freq v != 0#32)).length :=
  countP_toList freq _

/-- Every code is at most as long as the longest. -/
theorem length_le_longestCode (codes : Vector BitString 256) (v : Byte) :
    (tabGet codes v).length ≤ longestCode codes := by
  have key : ∀ (l : List BitString) (m : Nat), m ≤ l.foldl (fun m c => max m c.length) m ∧
      ∀ c ∈ l, c.length ≤ l.foldl (fun m c => max m c.length) m := by
    intro l
    induction l with
    | nil => intro m; simp
    | cons d l ih =>
      intro m
      obtain ⟨h1, h2⟩ := ih (max m d.length)
      simp only [List.foldl_cons, List.mem_cons, forall_eq_or_imp]
      exact ⟨by omega, by omega, h2⟩
  refine (key codes.toList 0).2 _ ?_
  rw [toList_eq_map_allValues]
  exact List.mem_map_of_mem (mem_allValues v)

/-- Some code is as long as the longest. -/
theorem exists_length_eq_longestCode (codes : Vector BitString 256) :
    ∃ v, (tabGet codes v).length = longestCode codes := by
  have key : ∀ (l : List BitString) (m : Nat), l.foldl (fun m c => max m c.length) m = m ∨
      ∃ c ∈ l, c.length = l.foldl (fun m c => max m c.length) m := by
    intro l
    induction l with
    | nil => intro m; simp
    | cons d l ih =>
      intro m
      simp only [List.foldl_cons, List.mem_cons, exists_eq_or_imp]
      rcases ih (max m d.length) with h | ⟨c, hc, h⟩
      · rw [h]
        rcases Nat.le_total m d.length with h' | h'
        · right; left; omega
        · left; omega
      · exact .inr (.inr ⟨c, hc, h⟩)
  rcases key codes.toList 0 with h | ⟨c, hc, h⟩
  · refine ⟨0#8, ?_⟩
    have := length_le_longestCode codes 0#8
    simp only [longestCode, h] at this ⊢
    omega
  · rw [toList_eq_map_allValues] at hc
    obtain ⟨v, -, rfl⟩ := List.mem_map.mp hc
    exact ⟨v, h⟩

/-! ### Setting several entries -/

/-- The table with every entry of a list set. -/
def setAll (t : Vector BitString 256) (es : List (Byte × BitString)) : Vector BitString 256 :=
  es.foldl (fun t e => tabSet t e.1 e.2) t

@[simp] theorem setAll_nil (t : Vector BitString 256) : setAll t [] = t := rfl

@[simp] theorem setAll_cons (t : Vector BitString 256) (e : Byte × BitString) (es : List (Byte × BitString)) :
    setAll t (e :: es) = setAll (tabSet t e.1 e.2) es := rfl

/-- After setting entries a value has the code of some entry that names it, or its old one. -/
theorem tabGet_setAll : ∀ (es : List (Byte × BitString)) (t : Vector BitString 256) (v : Byte),
    (∃ e ∈ es, e.1 = v ∧ tabGet (setAll t es) v = e.2) ∨
    (v ∉ es.map Prod.fst ∧ tabGet (setAll t es) v = tabGet t v)
  | [], _, _ => .inr ⟨by simp, rfl⟩
  | e :: es, t, v => by
    rw [setAll_cons]
    rcases tabGet_setAll es (tabSet t e.1 e.2) v with ⟨d, hd, h1, h2⟩ | ⟨h1, h2⟩
    · exact .inl ⟨d, List.mem_cons_of_mem _ hd, h1, h2⟩
    · rw [tabGet_tabSet] at h2
      by_cases hv : v = e.1
      · exact .inl ⟨e, List.mem_cons_self, hv.symm, by rw [h2, if_pos hv]⟩
      · refine .inr ⟨?_, by rw [h2, if_neg hv]⟩
        rw [List.map_cons, List.mem_cons, not_or]
        exact ⟨hv, h1⟩

/-- Where the entries of a value agree, the value has their code. -/
theorem tabGet_setAll_of_mem {es : List (Byte × BitString)} (t : Vector BitString 256) {e : Byte × BitString}
    (hf : ∀ d ∈ es, d.1 = e.1 → d.2 = e.2) (he : e ∈ es) : tabGet (setAll t es) e.1 = e.2 := by
  rcases tabGet_setAll es t e.1 with ⟨d, hd, h1, h2⟩ | ⟨h1, -⟩
  · rw [h2, hf d hd h1]
  · exact absurd (List.mem_map_of_mem he) h1

/-- Entries that name no value twice agree. -/
theorem entries_agree {es : List (Byte × BitString)} (hn : (es.map Prod.fst).Nodup) {d e : Byte × BitString}
    (hd : d ∈ es) (he : e ∈ es) (h : d.1 = e.1) : d.2 = e.2 := by
  rw [List.inj_on_of_nodup_map hn hd he h]

/-- The empty code table. -/
def noCodes : Vector BitString 256 := tabOf fun _ => []

/-- In a table made of entries a value has a code exactly if an entry gives it one. -/
theorem tabGet_setAll_noCodes (es : List (Byte × BitString)) (v : Byte) :
    (∃ e ∈ es, e.1 = v ∧ tabGet (setAll noCodes es) v = e.2) ∨
    (v ∉ es.map Prod.fst ∧ tabGet (setAll noCodes es) v = []) := by
  simpa [noCodes] using tabGet_setAll es noCodes v

/-- A table made of entries with codes has as many entries as there are. -/
theorem entryCount_setAll {es : List (Byte × BitString)} (hn : (es.map Prod.fst).Nodup) (hne : ∀ e ∈ es, e.2 ≠ []) :
    entryCount (setAll noCodes es) = es.length := by
  rw [entryCount_eq, ← List.length_map (f := Prod.fst) (as := es)]
  refine List.Perm.length_eq ((List.perm_ext_iff_of_nodup (nodup_allValues.filter _) hn).2 fun v => ?_)
  simp only [List.mem_filter, mem_allValues, true_and, bne_iff_ne, ne_eq]
  rcases tabGet_setAll_noCodes es v with ⟨e, he, rfl, h⟩ | ⟨h1, h2⟩
  · rw [h]
    simp only [hne e he, not_false_eq_true, true_iff]
    exact List.mem_map_of_mem he
  · simp [h1, h2]

/-- The entries of a code table, ascending. -/
def entriesOf (codes : Vector BitString 256) : List (Byte × BitString) :=
  (allValues.filter (fun v => tabGet codes v != [])).map (fun v => (v, tabGet codes v))

theorem fst_entriesOf (codes : Vector BitString 256) :
    (entriesOf codes).map Prod.fst = allValues.filter (fun v => tabGet codes v != []) := by
  rw [entriesOf, List.map_map]
  exact List.map_id _

theorem length_entriesOf (codes : Vector BitString 256) : (entriesOf codes).length = entryCount codes := by
  rw [entriesOf, List.length_map, entryCount_eq]

theorem nodup_entriesOf (codes : Vector BitString 256) : ((entriesOf codes).map Prod.fst).Nodup := by
  rw [fst_entriesOf]
  exact nodup_allValues.filter _

/-- A code table is the table of its entries. -/
theorem setAll_entriesOf (codes : Vector BitString 256) : setAll noCodes (entriesOf codes) = codes := by
  refine tab_ext fun v => ?_
  rcases tabGet_setAll_noCodes (entriesOf codes) v with ⟨e, he, rfl, h⟩ | ⟨h1, h2⟩
  · rw [h]
    obtain ⟨u, -, rfl⟩ := List.mem_map.1 he
    rfl
  · rw [h2]
    by_contra hne
    refine h1 ?_
    rw [fst_entriesOf, List.mem_filter]
    exact ⟨mem_allValues v, by simpa using fun h => hne h.symm⟩

theorem entryCount_le (codes : Vector BitString 256) : entryCount codes ≤ 256 := by
  rw [entryCount_eq, ← length_allValues]
  exact List.length_filter_le _ _

end Sys2Proof.Machine
end

