-- ==== Sys2Proof/Laws/Tree.lean ====
section
/-!
SUPPORT. TREE: what the greedy merging builds (42_tree_builder R131 to R134).
-/

namespace Sys2Proof.Machine

/-! ### The smallest key -/

theorem Key.lt_iff (a b : Key) :
    a.lt b = true ↔ a.weight < b.weight ∨ (a.weight = b.weight ∧ a.index < b.index) := by
  simp [Key.lt]

/-- Keys of different indices are ordered. -/
theorem Key.lt_of_not_lt {a b : Key} (h : ¬ a.lt b = true) (hne : a.index ≠ b.index) : b.lt a = true := by
  rw [Key.lt_iff] at h ⊢
  simp only [BitVec.lt_def, ← BitVec.toNat_inj] at h ⊢
  omega

theorem Key.lt_trans {a b c : Key} (h1 : a.lt b = true) (h2 : b.lt c = true) : a.lt c = true := by
  rw [Key.lt_iff] at h1 h2 ⊢
  simp only [BitVec.lt_def, ← BitVec.toNat_inj] at h1 h2 ⊢
  omega

/-- Everything `extractMin` can answer: nothing for an empty collection; otherwise one element, which comes before all the
others where no two have one index. -/
theorem extractMin_spec : ∀ (ks : List Key), (ks.map Key.index).Nodup →
    (ks = [] ∧ extractMin ks = none) ∨
    (∃ m rest, extractMin ks = some (m, rest) ∧ ks.Perm (m :: rest) ∧ ∀ k ∈ rest, m.lt k = true)
  | [], _ => .inl ⟨rfl, rfl⟩
  | k :: ks, hn => by
    rw [List.map_cons, List.nodup_cons] at hn
    rw [extractMin]
    rcases extractMin_spec ks hn.2 with ⟨h1, h2⟩ | ⟨m, rest, h1, h2, h3⟩
    · rw [h2, h1]
      exact .inr ⟨k, [], rfl, List.Perm.refl _, by simp⟩
    · rw [h1]
      simp only
      by_cases hlt : k.lt m = true
      · rw [if_pos hlt]
        refine .inr ⟨k, ks, rfl, List.Perm.refl _, fun j hj => ?_⟩
        rcases List.mem_cons.1 (h2.mem_iff.1 hj) with rfl | hj
        · exact hlt
        · exact Key.lt_trans hlt (h3 j hj)
      · rw [if_neg hlt]
        refine .inr ⟨m, k :: rest, rfl, (h2.cons k).trans (List.Perm.swap m k rest), fun j hj => ?_⟩
        rcases List.mem_cons.1 hj with rfl | hj
        · refine Key.lt_of_not_lt hlt fun he => hn.1 ?_
          rw [he]
          exact List.mem_map_of_mem (h2.mem_iff.2 (by simp))
        · exact h3 j hj

/-! ### The store grows at its end -/

theorem childIndices_append (as bs : List Node) : childIndices (as ++ bs) = childIndices as ++ childIndices bs := by
  induction as with
  | nil => rfl
  | cons a as ih => cases a <;> simp [childIndices, ih]

theorem leafValues_append (as bs : List Node) : leafValues (as ++ bs) = leafValues as ++ leafValues bs := by
  induction as with
  | nil => rfl
  | cons a as ih => cases a <;> simp [leafValues, ih]

/-- A child index is named by an internal node. -/
theorem mem_childIndices {nodes : List Node} {j : Nat} :
    j ∈ childIndices nodes ↔ ∃ (i : Nat) (w : Word) (l r : Nat),
      nodes[i]? = some (Node.internal w l r) ∧ (j = l ∨ j = r) := by
  induction nodes with
  | nil => simp [childIndices]
  | cons a ns ih =>
    have step : (∃ (i : Nat) (w : Word) (l r : Nat), (a :: ns)[i]? = some (Node.internal w l r) ∧ (j = l ∨ j = r)) ↔
        (∃ (w : Word) (l r : Nat), a = Node.internal w l r ∧ (j = l ∨ j = r)) ∨ j ∈ childIndices ns := by
      rw [ih]
      constructor
      · rintro ⟨_ | i, w, l, r, h1, h2⟩
        · exact .inl ⟨w, l, r, by simpa using h1, h2⟩
        · exact .inr ⟨i, w, l, r, by simpa using h1, h2⟩
      · rintro (⟨w, l, r, h1, h2⟩ | ⟨i, w, l, r, h1, h2⟩)
        · exact ⟨0, w, l, r, by simpa using h1, h2⟩
        · exact ⟨i + 1, w, l, r, by simpa using h1, h2⟩
    rw [step]
    cases a with
    | leaf v w => simp [childIndices]
    | internal w l r =>
      simp only [childIndices, List.mem_cons, Node.internal.injEq]
      constructor
      · rintro (h | h | h)
        · exact .inl ⟨w, l, r, ⟨rfl, rfl, rfl⟩, .inl h⟩
        · exact .inl ⟨w, l, r, ⟨rfl, rfl, rfl⟩, .inr h⟩
        · exact .inr h
      · rintro (⟨w', l', r', ⟨rfl, rfl, rfl⟩, h | h⟩ | h)
        · exact .inl h
        · exact .inr (.inl h)
        · exact .inr (.inr h)

theorem weightAt_append {nodes more : List Node} {i : Nat} (h : i < nodes.length) :
    weightAt (nodes ++ more) i = weightAt nodes i := by
  rw [weightAt, weightAt, List.getElem?_append_left h]

/-! ### The merge loop -/

/-- Before node n the nodes without a parent. -/
def Free (nodes : List Node) (n j : Nat) : Prop := j < n ∧ j ∉ childIndices (nodes.take n)

/-- The order of the selection keys (weight, insertion index) of two nodes (42_tree_builder R131). -/
def Before (nodes : List Node) (i j : Nat) : Prop :=
  weightAt nodes i < weightAt nodes j ∨ (weightAt nodes i = weightAt nodes j ∧ i < j)

/-- Node n merges the two free nodes with the smallest keys, the smaller to the left (42_tree_builder R133). -/
def MergesSmallest (nodes : List Node) (n a b : Nat) : Prop :=
  Free nodes n a ∧ Free nodes n b ∧ Before nodes a b ∧ ∀ j, Free nodes n j → j ≠ a → j ≠ b → Before nodes b j

theorem MergesSmallest.append {nodes more : List Node} {n a b : Nat} (hn : n ≤ nodes.length)
    (h : MergesSmallest nodes n a b) : MergesSmallest (nodes ++ more) n a b := by
  have free : ∀ {j}, Free (nodes ++ more) n j ↔ Free nodes n j := by
    intro j
    rw [Free, Free, List.take_append_of_le_length hn]
  have wt : ∀ {j}, j < n → weightAt (nodes ++ more) j = weightAt nodes j := fun hj => weightAt_append (by omega)
  obtain ⟨h1, h2, h3, h4⟩ := h
  refine ⟨free.2 h1, free.2 h2, ?_, fun j hj hja hjb => ?_⟩
  · rw [Before, wt h1.1, wt h2.1]
    exact h3
  · rw [Before, wt h2.1, wt (free.1 hj).1]
    exact h4 j (free.1 hj) hja hjb

/-- What holds between two merges: the working collection holds the keys of the nodes without a parent, and the store is as
42_tree_builder R131 to R133 built it so far. -/
structure Merging (nodes : List Node) (active : List Key) : Prop where
  keys : ∀ k ∈ active, k.weight = weightAt nodes k.index
  owned : (active.map Key.index ++ childIndices nodes).Perm (List.range nodes.length)
  below : ∀ (i : Nat) (w : Word) (l r : Nat), nodes[i]? = some (Node.internal w l r) → l < i ∧ r < i
  sums : ∀ (i : Nat) (w : Word) (l r : Nat), nodes[i]? = some (Node.internal w l r) →
    w = weightAt nodes l + weightAt nodes r
  smallest : ∀ (i : Nat) (w : Word) (l r : Nat), nodes[i]? = some (Node.internal w l r) → MergesSmallest nodes i l r

theorem Merging.index_lt {nodes : List Node} {active : List Key} (h : Merging nodes active) {k : Key}
    (hk : k ∈ active) : k.index < nodes.length := by
  have : k.index ∈ List.range nodes.length :=
    h.owned.mem_iff.1 (List.mem_append_left _ (List.mem_map_of_mem hk))
  simpa using this

theorem Merging.nodup {nodes : List Node} {active : List Key} (h : Merging nodes active) :
    (active.map Key.index).Nodup :=
  (List.nodup_append.1 (h.owned.nodup_iff.2 List.nodup_range)).1

theorem Merging.free_iff {nodes : List Node} {active : List Key} (h : Merging nodes active) (j : Nat) :
    Free nodes nodes.length j ↔ j ∈ active.map Key.index := by
  have hmem : j ∈ active.map Key.index ++ childIndices nodes ↔ j < nodes.length := by
    rw [h.owned.mem_iff, List.mem_range]
  have hdisj := (List.nodup_append.1 (h.owned.nodup_iff.2 List.nodup_range)).2.2
  rw [Free, List.take_length]
  rw [List.mem_append] at hmem
  constructor
  · rintro ⟨h1, h2⟩
    exact (hmem.2 h1).resolve_right h2
  · intro hj
    exact ⟨hmem.1 (.inl hj), fun hc => hdisj j hj j hc rfl⟩

/-- One merge of the two smallest keys. -/
theorem Merging.merge {nodes : List Node} {active rest : List Key} {a b : Key} (h : Merging nodes active)
    (hp : active.Perm (a :: b :: rest)) (hab : a.lt b = true) (hb : ∀ k ∈ rest, b.lt k = true) :
    Merging (nodes ++ [.internal (a.weight + b.weight) a.index b.index])
      (rest ++ [{ weight := a.weight + b.weight, index := nodes.length }]) := by
  have ha : a ∈ active := hp.mem_iff.2 (by simp)
  have hbm : b ∈ active := hp.mem_iff.2 (by simp)
  have hrest : ∀ k ∈ rest, k ∈ active := fun k hk => hp.mem_iff.2 (by simp [hk])
  have hia := h.index_lt ha
  have hib := h.index_lt hbm
  have new : (nodes ++ [Node.internal (a.weight + b.weight) a.index b.index])[nodes.length]?
      = some (Node.internal (a.weight + b.weight) a.index b.index) := by simp
  have old : ∀ {i : Nat} {x : Node}, (nodes ++ [Node.internal (a.weight + b.weight) a.index b.index])[i]? = some x →
      (i < nodes.length ∧ nodes[i]? = some x) ∨
        (i = nodes.length ∧ x = Node.internal (a.weight + b.weight) a.index b.index) := by
    intro i x hx
    rcases Nat.lt_trichotomy i nodes.length with hi | hi | hi
    · rw [List.getElem?_append_left hi] at hx
      exact .inl ⟨hi, hx⟩
    · rw [hi, new] at hx
      exact .inr ⟨hi, (Option.some.inj hx).symm⟩
    · rw [List.getElem?_eq_none (by simp; omega)] at hx
      cases hx
  have wt : ∀ {j : Nat}, j < nodes.length →
      weightAt (nodes ++ [Node.internal (a.weight + b.weight) a.index b.index]) j = weightAt nodes j := weightAt_append
  refine ⟨?_, ?_, ?_, ?_, ?_⟩
  · intro k hk
    rcases List.mem_append.1 hk with hk | hk
    · rw [wt (h.index_lt (hrest k hk))]
      exact h.keys k (hrest k hk)
    · rw [List.mem_singleton] at hk
      rw [hk, weightAt, new]
  · rw [childIndices_append, List.map_append, List.length_append, List.length_singleton, List.range_succ]
    have h1 : (rest.map Key.index ++ [nodes.length] ++ (childIndices nodes ++ [a.index, b.index])).Perm
        ((a :: b :: rest).map Key.index ++ childIndices nodes ++ [nodes.length]) := by
      simp only [List.map_cons]
      rw [List.perm_iff_count]
      intro x
      simp only [List.count_append, List.count_cons, List.count_nil]
      omega
    refine List.Perm.trans h1 (List.Perm.append_right _ ?_)
    exact ((hp.map Key.index).symm.append_right _).trans h.owned
  · intro i w l r hi
    rcases old hi with ⟨-, hi⟩ | ⟨rfl, hx⟩
    · exact h.below i w l r hi
    · cases hx
      exact ⟨hia, hib⟩
  · intro i w l r hi
    rcases old hi with ⟨hlt, hi⟩ | ⟨rfl, hx⟩
    · obtain ⟨h1, h2⟩ := h.below i w l r hi
      rw [wt (by omega), wt (by omega)]
      exact h.sums i w l r hi
    · cases hx
      rw [wt hia, wt hib, h.keys a ha, h.keys b hbm]
  · intro i w l r hi
    rcases old hi with ⟨hlt, hi⟩ | ⟨rfl, hx⟩
    · exact (h.smallest i w l r hi).append (by omega)
    · cases hx
      have before : ∀ {j k : Key}, j ∈ active → k ∈ active → j.lt k = true → Before nodes j.index k.index := by
        intro j k hj hk hlt
        rw [Before, ← h.keys j hj, ← h.keys k hk]
        exact (Key.lt_iff j k).1 hlt
      refine MergesSmallest.append (Nat.le_refl _) ⟨(h.free_iff _).2 (List.mem_map_of_mem ha),
        (h.free_iff _).2 (List.mem_map_of_mem hbm), before ha hbm hab, fun j hj hja hjb => ?_⟩
      obtain ⟨k, hk, rfl⟩ := List.mem_map.1 ((h.free_iff _).1 hj)
      rcases List.mem_cons.1 (hp.mem_iff.1 hk) with rfl | hk'
      · exact absurd rfl hja
      · rcases List.mem_cons.1 hk' with rfl | hk'
        · exact absurd rfl hjb
        · exact before hbm hk (hb k hk')

/-- The weights of a working collection, added up as numbers. -/
def totalWeight (active : List Key) : Nat := (active.map (fun k => k.weight.toNat)).sum

/-- Everything the merge loop does: it appends internal nodes until one key is left; the weights' sum stays, modulo
2^32. -/
theorem mergeNodes_spec : ∀ (fuel : Nat) (nodes : List Node) (active : List Key), Merging nodes active →
    active.length ≤ fuel + 1 →
    ∃ merged left, mergeNodes fuel nodes active = (nodes ++ merged, left) ∧ Merging (nodes ++ merged) left ∧
      merged.length = active.length - 1 ∧ left.length = min active.length 1 ∧
      (∀ x ∈ merged, ∃ w l r, x = Node.internal w l r) ∧ totalWeight left % 2 ^ 32 = totalWeight active % 2 ^ 32
  | 0, nodes, active, h, hlen =>
    ⟨[], active, by simp [mergeNodes], by simpa using h, by simp; omega, by omega, by simp, rfl⟩
  | fuel + 1, nodes, active, h, hlen => by
    rw [mergeNodes]
    rcases extractMin_spec active h.nodup with ⟨h1, h2⟩ | ⟨a, rest, h1, h2, h3⟩
    · rw [h2]
      exact ⟨[], active, by simp, by simpa using h, by simp [h1], by simp [h1], by simp, rfl⟩
    · rw [h1]
      simp only
      have hnr : (rest.map Key.index).Nodup := by
        have := (h2.map Key.index).nodup_iff.1 h.nodup
        rw [List.map_cons, List.nodup_cons] at this
        exact this.2
      have hl := h2.length_eq
      rw [List.length_cons] at hl
      rcases extractMin_spec rest hnr with ⟨h4, h5⟩ | ⟨b, rest', h4, h5, h6⟩
      · rw [h5]
        refine ⟨[], active, by simp, by simpa using h, ?_, ?_, by simp, rfl⟩
        · simp [hl, h4]
        · simp [hl, h4]
      · rw [h4]
        simp only
        have hp : active.Perm (a :: b :: rest') := h2.trans (h5.cons a)
        have hl' := h5.length_eq
        rw [List.length_cons] at hl'
        have hm := h.merge hp (h3 b (h5.mem_iff.2 (by simp))) h6
        obtain ⟨merged, left, k1, k2, k3, k4, k5, k6⟩ :=
          mergeNodes_spec fuel _ _ hm (by simp; omega)
        refine ⟨Node.internal (a.weight + b.weight) a.index b.index :: merged, left, ?_, ?_, ?_, ?_, ?_, ?_⟩
        · rw [k1]
          simp
        · simpa using k2
        · simp only [List.length_cons, List.length_append, List.length_nil] at k3 ⊢
          omega
        · simp only [List.length_append, List.length_cons, List.length_nil] at k4
          omega
        · intro x hx
          rcases List.mem_cons.1 hx with rfl | hx
          · exact ⟨_, _, _, rfl⟩
          · exact k5 x hx
        · rw [k6]
          have hsum : totalWeight active = a.weight.toNat + (b.weight.toNat + totalWeight rest') := by
            have := (hp.map (fun k => k.weight.toNat)).sum_eq
            simpa [totalWeight] using this
          rw [hsum, totalWeight, List.map_append, List.sum_append]
          simp only [List.map_cons, List.map_nil, List.sum_cons, List.sum_nil, BitVec.toNat_add]
          rw [← totalWeight]
          omega

/-! ### The seed -/

theorem seedLeaves_eq (freq : Vector Word 256) :
    seedLeaves freq = (presentValues freq).map (fun v => Node.leaf v (tabGet freq v)) := by
  rw [seedLeaves, presentValues]
  induction allValues with
  | nil => rfl
  | cons v l ih => by_cases h : tabGet freq v = 0#32 <;> simp [h, ih]

theorem map_index_keysFrom : ∀ (ns : List Node) (i : Nat), (keysFrom i ns).map Key.index = List.range' i ns.length
  | [], _ => rfl
  | .leaf _ _ :: ns, i => by simp [keysFrom, map_index_keysFrom ns, List.range'_succ]
  | .internal _ _ _ :: ns, i => by simp [keysFrom, map_index_keysFrom ns, List.range'_succ]

theorem keysFrom_leaves : ∀ (vs : List Byte) (f : Byte → Word) (i : Nat) (before : List Node), before.length = i →
    (∀ k ∈ keysFrom i (vs.map (fun v => Node.leaf v (f v))),
      k.weight = weightAt (before ++ vs.map (fun v => Node.leaf v (f v))) k.index) ∧
    totalWeight (keysFrom i (vs.map (fun v => Node.leaf v (f v)))) = (vs.map (fun v => (f v).toNat)).sum
  | [], _, _, _, _ => ⟨by simp [keysFrom], rfl⟩
  | v :: vs, f, i, before, hi => by
    obtain ⟨h1, h2⟩ := keysFrom_leaves vs f (i + 1) (before ++ [Node.leaf v (f v)]) (by simp [hi])
    rw [List.map_cons, keysFrom]
    refine ⟨fun k hk => ?_, ?_⟩
    · rcases List.mem_cons.1 hk with rfl | hk
      · subst hi
        simp [weightAt]
      · have := h1 k hk
        rwa [List.append_assoc, List.singleton_append] at this
    · rw [totalWeight] at h2 ⊢
      simp only [List.map_cons, List.sum_cons, h2]

theorem childIndices_leaves (vs : List Byte) (f : Byte → Word) :
    childIndices (vs.map (fun v => Node.leaf v (f v))) = [] := by
  induction vs with
  | nil => rfl
  | cons v vs ih => simpa [childIndices] using ih

theorem leafValues_leaves (vs : List Byte) (f : Byte → Word) :
    leafValues (vs.map (fun v => Node.leaf v (f v))) = vs := by
  induction vs with
  | nil => rfl
  | cons v vs ih => simp [leafValues, ih]

theorem leafValues_internals {ns : List Node} (h : ∀ x ∈ ns, ∃ w l r, x = Node.internal w l r) :
    leafValues ns = [] := by
  induction ns with
  | nil => rfl
  | cons x ns ih =>
    obtain ⟨w, l, r, rfl⟩ := h x (by simp)
    rw [leafValues, ih fun y hy => h y (by simp [hy])]

/-- Before the first merge. -/
theorem merging_seed (vs : List Byte) (f : Byte → Word) :
    Merging (vs.map (fun v => Node.leaf v (f v))) (keysFrom 0 (vs.map (fun v => Node.leaf v (f v)))) := by
  have none_internal : ∀ {i : Nat} {w : Word} {l r : Nat},
      (vs.map (fun v => Node.leaf v (f v)))[i]? ≠ some (Node.internal w l r) := by
    intro i w l r hi
    obtain ⟨v, -, hv⟩ := List.mem_map.1 (List.mem_of_getElem? hi)
    cases hv
  refine ⟨(keysFrom_leaves vs f 0 [] rfl).1, ?_, ?_, ?_, ?_⟩
  · rw [map_index_keysFrom, childIndices_leaves, List.append_nil, List.range_eq_range']
  · exact fun i w l r hi => absurd hi none_internal
  · exact fun i w l r hi => absurd hi none_internal
  · exact fun i w l r hi => absurd hi none_internal

/-! ### The tree -/

theorem length_presentValues_le (freq : Vector Word 256) : (presentValues freq).length ≤ 256 := by
  rw [← length_allValues]
  exact List.length_filter_le _ _

/-- The sum of the counts of the present values is the sum of all counts. -/
theorem sum_presentValues (freq : Vector Word 256) :
    ((presentValues freq).map (fun v => (tabGet freq v).toNat)).sum
      = (allValues.map (fun v => (tabGet freq v).toNat)).sum := by
  rw [presentValues]
  induction allValues with
  | nil => rfl
  | cons v l ih => by_cases h : tabGet freq v = 0#32 <;> simp [h, ih]

/-- With every node but the last a child, a store's last node is the one without a parent. -/
theorem Merging.root {nodes : List Node} {k : Key} (h : Merging nodes [k]) : k.index = nodes.length - 1 := by
  have hk := h.index_lt (List.mem_singleton.2 rfl)
  have hmem : nodes.length - 1 ∈ [k].map Key.index ++ childIndices nodes :=
    h.owned.mem_iff.2 (List.mem_range.2 (by omega))
  rcases List.mem_append.1 hmem with hm | hm
  · simpa using (List.mem_singleton.1 hm).symm
  · exfalso
    obtain ⟨i, w, l, r, h1, h2⟩ := mem_childIndices.1 hm
    have hb := h.below i w l r h1
    obtain ⟨hi, -⟩ := List.getElem?_eq_some_iff.1 h1
    omega

/-- What TREE builds from no present value. -/
theorem buildTree_empty {freq : Vector Word 256} (h : presentValues freq = []) : buildTree freq = ([], none) := by
  simp [buildTree, seedLeaves_eq, h, keysFrom, mergeNodes]

/-- What TREE builds from k + 1 present values: their leaves, then k internal nodes; one node without a parent, the last;
its weight the sum of the counts, modulo 2^32. -/
theorem buildTree_spec {freq : Vector Word 256} {k : Nat} (h : (presentValues freq).length = k + 1) :
    ∃ merged w, buildTree freq =
        ((presentValues freq).map (fun v => Node.leaf v (tabGet freq v)) ++ merged, some (2 * k)) ∧
      merged.length = k ∧ (∀ x ∈ merged, ∃ w l r, x = Node.internal w l r) ∧
      Merging ((presentValues freq).map (fun v => Node.leaf v (tabGet freq v)) ++ merged)
        [{ weight := w, index := 2 * k }] ∧
      w.toNat % 2 ^ 32 = (allValues.map (fun v => (tabGet freq v).toNat)).sum % 2 ^ 32 := by
  have hlen : (keysFrom 0 ((presentValues freq).map (fun v => Node.leaf v (tabGet freq v)))).length = k + 1 := by
    rw [← List.length_map (f := Key.index), map_index_keysFrom]
    simp [h]
  obtain ⟨merged, left, h1, h2, h3, h4, h5, h6⟩ := mergeNodes_spec (k + 1) _ _
    (merging_seed (presentValues freq) (tabGet freq)) (by omega)
  rw [hlen] at h3 h4
  obtain ⟨key, rfl⟩ : ∃ key, left = [key] := List.length_eq_one_iff.1 (by omega)
  have hroot := h2.root
  simp only [List.length_append, List.length_map, h, h3] at hroot
  have hidx : key.index = 2 * k := by omega
  refine ⟨merged, key.weight, ?_, by omega, h5, ?_, ?_⟩
  · rw [buildTree]
    simp only [seedLeaves_eq, List.length_map, h, h1, List.head?_cons, Option.map_some, hidx]
  · rw [← hidx]
    exact h2
  · rw [(keysFrom_leaves (presentValues freq) (tabGet freq) 0 [] rfl).2, sum_presentValues] at h6
    simpa [totalWeight] using h6

/-- The store that TREE builds is well formed (10_state R43, 42_tree_builder R134). -/
theorem nodeStoreOk_buildTree (freq : Vector Word 256) : NodeStoreOk (buildTree freq).1 (buildTree freq).2 := by
  rcases Nat.eq_zero_or_pos (presentValues freq).length with h0 | hpos
  · rw [buildTree_empty (List.eq_nil_of_length_eq_zero h0)]
    exact ⟨by simp, by simp, by simp, by simp, by simp [childIndices], by simp [leafValues]⟩
  · obtain ⟨k, hk⟩ : ∃ k, (presentValues freq).length = k + 1 := ⟨_, (Nat.succ_pred_eq_of_pos hpos).symm⟩
    obtain ⟨merged, w, h1, h2, h3, h4, -⟩ := buildTree_spec hk
    have hlen : ((presentValues freq).map (fun v => Node.leaf v (tabGet freq v)) ++ merged).length = 2 * k + 1 := by
      simp [hk, h2]
      omega
    have hle := length_presentValues_le freq
    rw [h1]
    refine ⟨?_, ?_, h4.below, h4.sums, ?_, ?_⟩
    · simp only [hlen]
      unfold Config.nodeCapacity
      omega
    · simp only [hlen]
      rw [if_neg (by omega), Nat.add_sub_cancel]
    · have ho := h4.owned
      rw [hlen, List.range_succ] at ho
      simp only [hlen, Nat.add_sub_cancel]
      have : (2 * k :: childIndices ((presentValues freq).map (fun v => Node.leaf v (tabGet freq v)) ++ merged)).Perm
          (2 * k :: List.range (2 * k)) := ho.trans (List.perm_append_singleton _ _)
      exact this.cons_inv
    · simp only [leafValues_append, leafValues_leaves, leafValues_internals h3, List.append_nil]
      exact nodup_allValues.filter _

end Sys2Proof.Machine
end

