-- ==== Sys2Proof/Laws/Codes.lean ====
section
/-!
SUPPORT. CODES: paths through a node store, the assignments made from them, and the code table they make (43_code_assigner
R146, R148).
-/

namespace Sys2Proof.Machine

/-! ### Paths -/

/-- The node that a path leads to: left on "0", right on "1". -/
def nodeAt (nodes : List Node) : Nat → BitString → Option Nat
  | i, [] => some i
  | i, b :: bs =>
    match nodes[i]? with
    | some (.internal _ l r) => nodeAt nodes (if b then r else l) bs
    | _ => none

/-- A path to a value is a path to its leaf. -/
theorem followPath_eq_some {nodes : List Node} : ∀ {p : BitString} {i : Nat} {v : Byte},
    followPath nodes i p = some v ↔ ∃ j w, nodeAt nodes i p = some j ∧ nodes[j]? = some (Node.leaf v w)
  | [], i, v => by
    simp only [followPath, nodeAt, Option.some.injEq]
    constructor
    · intro h
      split at h
      · rename_i u w hn
        cases h
        exact ⟨i, w, rfl, hn⟩
      · cases h
    · rintro ⟨j, w, rfl, hn⟩
      rw [hn]
  | b :: bs, i, v => by
    rw [followPath, nodeAt]
    rcases nodes[i]? with _ | _ | ⟨w, l, r⟩
    · simp
    · simp
    · exact followPath_eq_some

/-- A child of a node on one side. -/
def IsChild (nodes : List Node) (i : Nat) (b : Bool) (j : Nat) : Prop :=
  ∃ w l r, nodes[i]? = some (Node.internal w l r) ∧ j = if b then r else l

theorem nodeAt_snoc {nodes : List Node} {b : Bool} : ∀ {p : BitString} {i j : Nat},
    nodeAt nodes i (p ++ [b]) = some j ↔ ∃ k, nodeAt nodes i p = some k ∧ IsChild nodes k b j
  | [], i, j => by
    simp only [List.nil_append, nodeAt, Option.some.injEq, exists_eq_left', IsChild]
    constructor
    · intro h
      split at h
      · rename_i w l r hn
        cases h
        exact ⟨w, l, r, hn, rfl⟩
      · cases h
    · rintro ⟨w, l, r, hn, rfl⟩
      rw [hn]
  | c :: p, i, j => by
    rw [List.cons_append, nodeAt, nodeAt]
    split
    · exact nodeAt_snoc
    · simp

/-- Nodes of a store: no child has two parents or two sides. -/
theorem isChild_unique : ∀ {nodes : List Node} {i k : Nat} {b c : Bool} {j : Nat}, (childIndices nodes).Nodup →
    IsChild nodes i b j → IsChild nodes k c j → i = k ∧ b = c := by
  intro nodes
  induction nodes with
  | nil =>
    rintro i k b c j - ⟨w, l, r, h, -⟩ -
    simp at h
  | cons a ns ih =>
    have mem : ∀ {i : Nat} {b : Bool} {j : Nat}, IsChild ns i b j → j ∈ childIndices ns := by
      rintro i b j ⟨w, l, r, h1, rfl⟩
      refine mem_childIndices.2 ⟨i, w, l, r, h1, ?_⟩
      cases b <;> simp
    have down : ∀ {i : Nat} {b : Bool} {j : Nat}, IsChild (a :: ns) (i + 1) b j → IsChild ns i b j := by
      rintro i b j ⟨w, l, r, h1, h2⟩
      exact ⟨w, l, r, by simpa using h1, h2⟩
    have nodup_tail : (childIndices (a :: ns)).Nodup → (childIndices ns).Nodup := by
      cases a with
      | leaf v w => exact id
      | internal w l r => exact fun h => (List.nodup_cons.1 (List.nodup_cons.1 h).2).2
    have head : ∀ {b : Bool} {j : Nat}, (childIndices (a :: ns)).Nodup → IsChild (a :: ns) 0 b j →
        j ∉ childIndices ns := by
      rintro b j hn ⟨w, l, r, h1, rfl⟩
      simp only [List.getElem?_cons_zero, Option.some.injEq] at h1
      subst h1
      simp only [childIndices, List.nodup_cons, List.mem_cons, not_or] at hn
      cases b
      · simpa using hn.1.2
      · simpa using hn.2.1
    rintro (_ | i) (_ | k) b c j hn h1 h2
    · refine ⟨rfl, ?_⟩
      obtain ⟨w, l, r, e1, e2⟩ := h1
      obtain ⟨w', l', r', e3, e4⟩ := h2
      rw [e1] at e3
      cases e3
      simp only [List.getElem?_cons_zero, Option.some.injEq] at e1
      subst e1
      simp only [childIndices, List.nodup_cons, List.mem_cons, not_or] at hn
      have hlr : l ≠ r := hn.1.1
      rw [e2] at e4
      cases b <;> cases c
      · rfl
      · exact absurd e4 hlr
      · exact absurd e4.symm hlr
      · rfl
    · exact absurd (mem (down h2)) (head hn h1)
    · exact absurd (mem (down h1)) (head hn h2)
    · obtain ⟨e1, e2⟩ := ih (nodup_tail hn) (down h1) (down h2)
      exact ⟨by rw [e1], e2⟩

/-- No value has two leaves. -/
theorem leaf_unique : ∀ {nodes : List Node} {i k : Nat} {v : Byte} {w w' : Word}, (leafValues nodes).Nodup →
    nodes[i]? = some (Node.leaf v w) → nodes[k]? = some (Node.leaf v w') → i = k := by
  intro nodes
  induction nodes with
  | nil =>
    intro i k v w w' _ h
    simp at h
  | cons a ns ih =>
    have mem : ∀ {i : Nat} {v : Byte} {w : Word}, ns[i]? = some (Node.leaf v w) → v ∈ leafValues ns := by
      intro i v w h
      obtain ⟨as, bs, rfl⟩ := List.append_of_mem (List.mem_of_getElem? h)
      simp [leafValues_append, leafValues]
    rintro (_ | i) (_ | k) v w w' hn h1 h2
    · rfl
    · simp only [List.getElem?_cons_zero, Option.some.injEq, List.getElem?_cons_succ] at h1 h2
      subst h1
      exact absurd (mem h2) (List.nodup_cons.1 hn).1
    · simp only [List.getElem?_cons_zero, Option.some.injEq, List.getElem?_cons_succ] at h1 h2
      subst h2
      exact absurd (mem h1) (List.nodup_cons.1 hn).1
    · simp only [List.getElem?_cons_succ] at h1 h2
      have hns : (leafValues ns).Nodup := by
        cases a with
        | leaf u w => exact (List.nodup_cons.1 hn).2
        | internal w l r => exact hn
      rw [ih hns h1 h2]

/-! ### Paths in a well-formed store -/

theorem NodeStoreOk.nodup_children {nodes : List Node} {root : Option Nat} (h : NodeStoreOk nodes root) :
    (childIndices nodes).Nodup := h.ownedOnce.nodup_iff.2 List.nodup_range

theorem NodeStoreOk.isChild_lt {nodes : List Node} {root : Option Nat} (h : NodeStoreOk nodes root) {i j : Nat} {b : Bool}
    (hc : IsChild nodes i b j) : j < i ∧ i < nodes.length ∧ j < nodes.length - 1 := by
  obtain ⟨w, l, r, h1, rfl⟩ := hc
  obtain ⟨h2, h3⟩ := h.childrenBelow i w l r h1
  obtain ⟨h4, -⟩ := List.getElem?_eq_some_iff.1 h1
  refine ⟨by cases b <;> simp <;> omega, h4, by cases b <;> simp <;> omega⟩

/-- Two paths from the root to one node are the same. -/
theorem NodeStoreOk.path_unique {nodes : List Node} {root : Option Nat} (h : NodeStoreOk nodes root) :
    ∀ {p q : BitString} {j : Nat}, nodeAt nodes (nodes.length - 1) p = some j →
      nodeAt nodes (nodes.length - 1) q = some j → p = q := by
  have root_path : ∀ {q : BitString}, nodeAt nodes (nodes.length - 1) q = some (nodes.length - 1) → q = [] := by
    intro q hq
    rcases List.eq_nil_or_concat q with rfl | ⟨q', b, rfl⟩
    · rfl
    · rw [List.concat_eq_append, nodeAt_snoc] at hq
      obtain ⟨k, -, hc⟩ := hq
      have := h.isChild_lt hc
      omega
  intro p
  induction p using List.reverseRecOn with
  | nil =>
    intro q j h1 h2
    rw [nodeAt, Option.some.injEq] at h1
    rw [← h1] at h2
    exact (root_path h2).symm
  | append_singleton p b ih =>
    intro q j h1 h2
    obtain ⟨k, hk, hc⟩ := nodeAt_snoc.1 h1
    rcases List.eq_nil_or_concat q with rfl | ⟨q', c, rfl⟩
    · rw [nodeAt, Option.some.injEq] at h2
      rw [← h2] at h1
      exact root_path h1
    · rw [List.concat_eq_append] at h2 ⊢
      obtain ⟨k', hk', hc'⟩ := nodeAt_snoc.1 h2
      obtain ⟨rfl, rfl⟩ := isChild_unique h.nodup_children hc hc'
      rw [ih hk hk']

/-- Every node is reached from the root. -/
theorem NodeStoreOk.reached {nodes : List Node} {root : Option Nat} (h : NodeStoreOk nodes root) (j : Nat)
    (hj : j < nodes.length) : ∃ p, nodeAt nodes (nodes.length - 1) p = some j := by
  rcases Nat.lt_or_ge j (nodes.length - 1) with hlt | hge
  · have hm : j ∈ childIndices nodes := h.ownedOnce.mem_iff.2 (List.mem_range.2 hlt)
    obtain ⟨i, w, l, r, h1, h2⟩ := mem_childIndices.1 hm
    obtain ⟨hi, -⟩ := List.getElem?_eq_some_iff.1 h1
    have hb := h.childrenBelow i w l r h1
    have : j < i := by omega
    obtain ⟨p, hp⟩ := h.reached i hi
    rcases h2 with rfl | rfl
    · exact ⟨p ++ [false], nodeAt_snoc.2 ⟨i, hp, w, _, r, h1, rfl⟩⟩
    · exact ⟨p ++ [true], nodeAt_snoc.2 ⟨i, hp, w, l, _, h1, rfl⟩⟩
  · exact ⟨[], by rw [nodeAt]; congr 1; omega⟩
termination_by nodes.length - j

/-- Two paths from the root to one value are the same. -/
theorem NodeStoreOk.followPath_unique {nodes : List Node} {root : Option Nat} (h : NodeStoreOk nodes root)
    {p q : BitString} {v : Byte} (hp : followPath nodes (nodes.length - 1) p = some v)
    (hq : followPath nodes (nodes.length - 1) q = some v) : p = q := by
  obtain ⟨i, w, h1, h2⟩ := followPath_eq_some.1 hp
  obtain ⟨j, w', h3, h4⟩ := followPath_eq_some.1 hq
  obtain rfl := leaf_unique h.leavesDistinct h2 h4
  exact h.path_unique h1 h3

/-- How many internal nodes stand at an index or below. -/
def internalsTo (nodes : List Node) (i : Nat) : Nat := (childIndices (nodes.take (i + 1))).length / 2

theorem length_childIndices_even : ∀ nodes : List Node, ∃ m, (childIndices nodes).length = 2 * m
  | [] => ⟨0, rfl⟩
  | .leaf _ _ :: ns => length_childIndices_even ns
  | .internal _ _ _ :: ns => by
    obtain ⟨m, hm⟩ := length_childIndices_even ns
    exact ⟨m + 1, by simp [childIndices, hm]; omega⟩

/-- A path to a node passes one internal node for each of its bits. -/
theorem length_path_le {nodes : List Node} (hb : ∀ (i : Nat) (w : Word) (l r : Nat),
      nodes[i]? = some (Node.internal w l r) → l < i ∧ r < i) : ∀ {p : BitString} {i j : Nat},
    nodeAt nodes i p = some j → p.length ≤ internalsTo nodes i
  | [], _, _, _ => Nat.zero_le _
  | b :: bs, i, j, h => by
    rw [nodeAt] at h
    split at h
    · rename_i w l r hn
      have hlt : (if b then r else l) < i := by
        have := hb i w l r hn
        cases b <;> simp <;> omega
      have ih := length_path_le hb h
      have hsplit : nodes.take (i + 1) = nodes.take i ++ [Node.internal w l r] := by
        rw [List.take_add_one, hn]
        rfl
      have hmono : (childIndices (nodes.take ((if b then r else l) + 1))).length
          ≤ (childIndices (nodes.take i)).length := by
        obtain ⟨rest, hr⟩ : nodes.take ((if b then r else l) + 1) <+: nodes.take i := List.take_prefix_take_left hlt
        rw [← hr, childIndices_append, List.length_append]
        omega
      rw [internalsTo] at ih ⊢
      rw [hsplit, childIndices_append, List.length_append, List.length_cons]
      simp only [childIndices, List.length_cons, List.length_nil]
      omega
    · cases h

/-- A path in a well-formed store has at most 255 bits (00_scope R10, 42_tree_builder R134). -/
theorem NodeStoreOk.length_path_le {nodes : List Node} {root : Option Nat} (h : NodeStoreOk nodes root) {p : BitString}
    {i j : Nat} (hp : nodeAt nodes i p = some j) : p.length ≤ Config.maxLen := by
  have h1 := Machine.length_path_le h.childrenBelow hp
  have h2 := h.ownedOnce.length_eq
  have h3 := h.capacity
  have h4 : (childIndices (nodes.take (i + 1))).length ≤ (childIndices nodes).length := by
    conv_rhs => rw [← List.take_append_drop (i + 1) nodes, childIndices_append, List.length_append]
    omega
  rw [List.length_range] at h2
  rw [internalsTo] at h1
  unfold Config.maxLen
  unfold Config.nodeCapacity at h3
  omega

/-! ### The assignments -/

/-- With enough fuel the assignments below a node are the paths from it to values. -/
theorem mem_assignCodes {nodes : List Node} (hb : ∀ (i : Nat) (w : Word) (l r : Nat),
      nodes[i]? = some (Node.internal w l r) → l < i ∧ r < i) : ∀ {fuel i : Nat} {pre : BitString} {e : Byte × BitString},
    i < fuel → (e ∈ assignCodes nodes fuel i pre ↔ ∃ q, e.2 = pre ++ q ∧ followPath nodes i q = some e.1)
  | 0, _, _, _, h => absurd h (Nat.not_lt_zero _)
  | fuel + 1, i, pre, e, h => by
    rw [assignCodes]
    rcases hn : nodes[i]? with _ | _ | ⟨w, l, r⟩
    · simp only [List.not_mem_nil, false_iff]
      rintro ⟨q, -, hq⟩
      cases q <;> simp [followPath, hn] at hq
    · rename_i v w
      simp only [List.mem_singleton]
      constructor
      · rintro rfl
        exact ⟨[], by simp, by simp [followPath, hn]⟩
      · rintro ⟨q, h1, h2⟩
        cases q with
        | nil =>
          simp only [followPath, hn, Option.some.injEq] at h2
          rw [List.append_nil] at h1
          exact Prod.ext h2.symm h1
        | cons b bs => simp [followPath, hn] at h2
    · obtain ⟨hl, hr⟩ := hb i w l r hn
      simp only [List.mem_append]
      rw [mem_assignCodes hb (by omega), mem_assignCodes hb (by omega)]
      constructor
      · rintro (⟨q, h1, h2⟩ | ⟨q, h1, h2⟩)
        · exact ⟨false :: q, by rw [h1]; simp, by simpa [followPath, hn] using h2⟩
        · exact ⟨true :: q, by rw [h1]; simp, by simpa [followPath, hn] using h2⟩
      · rintro ⟨_ | ⟨b, q⟩, h1, h2⟩
        · simp [followPath, hn] at h2
        · simp only [followPath, hn] at h2
          cases b
          · exact .inl ⟨q, by rw [h1]; simp, by simpa using h2⟩
          · exact .inr ⟨q, by rw [h1]; simp, by simpa using h2⟩

/-- Whatever the store, the assignments below a node extend the path to it. -/
theorem prefix_of_mem_assignCodes {nodes : List Node} : ∀ {fuel i : Nat} {pre : BitString} {e : Byte × BitString},
    e ∈ assignCodes nodes fuel i pre → pre <+: e.2
  | 0, _, _, _, h => by simp [assignCodes] at h
  | fuel + 1, i, pre, e, h => by
    rw [assignCodes] at h
    split at h
    · simp at h
    · rw [List.mem_singleton] at h
      rw [h]
    · rcases List.mem_append.1 h with h | h
      · exact (List.prefix_append _ _).trans (prefix_of_mem_assignCodes h)
      · exact (List.prefix_append _ _).trans (prefix_of_mem_assignCodes h)

/-- Whatever the store, no assignment's path is a prefix of another one's. -/
theorem assignCodes_prefixFree {nodes : List Node} : ∀ {fuel i : Nat} {pre : BitString} {d e : Byte × BitString},
    d ∈ assignCodes nodes fuel i pre → e ∈ assignCodes nodes fuel i pre → d.2 <+: e.2 → d = e
  | 0, _, _, _, _, h, _, _ => by simp [assignCodes] at h
  | fuel + 1, i, pre, d, e, hd, he, hp => by
    have apart : ∀ {l r : Nat} {b c : Bool} {d e : Byte × BitString}, b ≠ c →
        d ∈ assignCodes nodes fuel l (pre ++ [b]) → e ∈ assignCodes nodes fuel r (pre ++ [c]) → d.2 <+: e.2 → False := by
      intro l r b c d e hbc hd he hp
      have h1 := (prefix_of_mem_assignCodes hd).trans hp
      have h2 := prefix_of_mem_assignCodes he
      have := List.prefix_or_prefix_of_prefix h1 h2
      have heq : pre ++ [b] = pre ++ [c] := by
        rcases this with h | h
        · exact h.eq_of_length (by simp)
        · exact (h.eq_of_length (by simp)).symm
      simp only [List.append_cancel_left_eq, List.cons.injEq, and_true] at heq
      exact hbc heq
    rw [assignCodes] at hd he
    rcases hn : nodes[i]? with _ | _ | ⟨w, l, r⟩ <;> rw [hn] at hd he
    · simp at hd
    · rw [List.mem_singleton] at hd he
      rw [hd, he]
    · rcases List.mem_append.1 hd with hd | hd <;> rcases List.mem_append.1 he with he | he
      · exact assignCodes_prefixFree hd he hp
      · exact (apart (by simp) hd he hp).elim
      · exact (apart (by simp) hd he hp).elim
      · exact assignCodes_prefixFree hd he hp

/-- Whatever the store, no assignment is made twice. -/
theorem nodup_assignCodes {nodes : List Node} : ∀ (fuel i : Nat) (pre : BitString),
    (assignCodes nodes fuel i pre).Nodup
  | 0, _, _ => by simp [assignCodes]
  | fuel + 1, i, pre => by
    rw [assignCodes]
    split
    · simp
    · simp
    · refine List.nodup_append.2 ⟨nodup_assignCodes fuel _ _, nodup_assignCodes fuel _ _, fun d hd e he h => ?_⟩
      have h1 := prefix_of_mem_assignCodes hd
      have h2 := prefix_of_mem_assignCodes he
      rw [h] at h1
      have heq : pre ++ [false] = pre ++ [true] := by
        rcases List.prefix_or_prefix_of_prefix h1 h2 with h | h
        · exact h.eq_of_length (by simp)
        · exact (h.eq_of_length (by simp)).symm
      simp at heq

/-- The Kraft sum of the paths below a node, over a power of 2 that no path exceeds. -/
theorem kraft_assignCodes {nodes : List Node} (L : Nat) (hb : ∀ (i : Nat) (w : Word) (l r : Nat),
      nodes[i]? = some (Node.internal w l r) → l < i ∧ r < i) : ∀ {fuel i : Nat} {pre : BitString},
    i < fuel → i < nodes.length → (∀ e ∈ assignCodes nodes fuel i pre, e.2.length ≤ L) →
    ((assignCodes nodes fuel i pre).map (fun e => 2 ^ (L - e.2.length))).sum = 2 ^ (L - pre.length)
  | 0, _, _, h, _, _ => absurd h (Nat.not_lt_zero _)
  | fuel + 1, i, pre, h, hi, hL => by
    rw [assignCodes] at hL ⊢
    rcases hn : nodes[i]? with _ | _ | ⟨w, l, r⟩
    · rw [List.getElem?_eq_getElem hi] at hn
      cases hn
    · simp
    · obtain ⟨hl, hr⟩ := hb i w l r hn
      rw [hn] at hL
      simp only [List.mem_append] at hL
      have k1 := kraft_assignCodes L hb (fuel := fuel) (pre := pre ++ [false]) (show l < fuel by omega) (by omega)
        fun e he => hL e (.inl he)
      have k2 := kraft_assignCodes L hb (fuel := fuel) (pre := pre ++ [true]) (show r < fuel by omega) (by omega)
        fun e he => hL e (.inr he)
      simp only [List.map_append, List.sum_append, k1, k2, List.length_append, List.length_singleton]
      have hne : assignCodes nodes fuel l (pre ++ [false]) ≠ [] := by
        intro h0
        rw [h0] at k1
        exact (Nat.two_pow_pos _).ne k1
      obtain ⟨e, he⟩ := List.exists_mem_of_ne_nil _ hne
      have h1 := (prefix_of_mem_assignCodes he).length_le
      have h2 := hL e (.inl he)
      rw [List.length_append, List.length_singleton] at h1
      rw [← Nat.two_mul, ← pow_succ', show L - (pre.length + 1) + 1 = L - pre.length by omega]

/-! ### The code table -/

theorem codeTable_eq (nodes : List Node) (root : Option Nat) :
    codeTable nodes root = setAll noCodes (codeAssignments nodes root) := rfl

/-- Whatever the store, no path that CODES assigns is a prefix of another one. -/
theorem codeAssignments_prefixFree {nodes : List Node} {root : Option Nat} {d e : Byte × BitString}
    (hd : d ∈ codeAssignments nodes root) (he : e ∈ codeAssignments nodes root) (hp : d.2 <+: e.2) : d = e := by
  rcases root with _ | r
  · simp [codeAssignments] at hd
  · rw [codeAssignments] at hd he
    rcases hn : nodes[r]? with _ | _ | ⟨w, a, b⟩ <;> rw [hn] at hd he
    · exact assignCodes_prefixFree hd he hp
    · rw [List.mem_singleton] at hd he
      rw [hd, he]
    · exact assignCodes_prefixFree hd he hp

/-- Whatever the store, the table that CODES writes is prefix-free (45_bitpacker_decoder R180). -/
theorem prefixFree_codeTable (nodes : List Node) (root : Option Nat) : PrefixFreeCodes (codeTable nodes root) := by
  intro u v huv hu hv hp
  rw [codeTable_eq] at hu hv hp
  rcases tabGet_setAll_noCodes (codeAssignments nodes root) u with ⟨d, hd, rfl, h1⟩ | ⟨-, h1⟩
  · rcases tabGet_setAll_noCodes (codeAssignments nodes root) v with ⟨e, he, rfl, h2⟩ | ⟨-, h2⟩
    · rw [h1, h2] at hp
      exact huv (by rw [codeAssignments_prefixFree hd he hp])
    · exact hv h2
  · exact hu h1

/-- What CODES assigns in a well-formed store: the path from the root to each value, or "0" to a root that is a leaf. -/
theorem mem_codeAssignments {nodes : List Node} {r : Nat} (h : NodeStoreOk nodes (some r)) {e : Byte × BitString} :
    e ∈ codeAssignments nodes (some r) ↔
      (∃ w, nodes[r]? = some (Node.leaf e.1 w) ∧ e.2 = [false]) ∨
      ((∃ w a b, nodes[r]? = some (Node.internal w a b)) ∧ followPath nodes r e.2 = some e.1) := by
  have hr : 0 < nodes.length ∧ r = nodes.length - 1 := by
    have := h.rootLast
    split at this
    · cases this
    · exact ⟨by omega, Option.some.inj this⟩
  rw [codeAssignments]
  rcases hn : nodes[r]? with _ | _ | ⟨w, a, b⟩
  · exact absurd hn (by rw [List.getElem?_eq_getElem (by omega)]; simp)
  · rename_i v w
    simp only [List.mem_singleton, Option.some.injEq, Node.leaf.injEq, reduceCtorEq, exists_false, false_and, or_false]
    constructor
    · rintro rfl
      exact ⟨w, ⟨rfl, rfl⟩, rfl⟩
    · rintro ⟨w', ⟨h1, -⟩, h2⟩
      exact Prod.ext h1.symm h2
  · simp only [Option.some.injEq, reduceCtorEq, false_and, exists_false, false_or]
    rw [mem_assignCodes h.childrenBelow (by omega)]
    simp

/-- In a well-formed store a value's assignments agree. -/
theorem codeAssignments_agree {nodes : List Node} {r : Nat} (h : NodeStoreOk nodes (some r)) {d e : Byte × BitString}
    (hd : d ∈ codeAssignments nodes (some r)) (he : e ∈ codeAssignments nodes (some r)) (hv : d.1 = e.1) : d.2 = e.2 := by
  have hr : r = nodes.length - 1 := by
    have := h.rootLast
    split at this
    · cases this
    · exact Option.some.inj this
  rcases (mem_codeAssignments h).1 hd with ⟨w, h1, h2⟩ | ⟨⟨w, a, b, h1⟩, h2⟩ <;>
    rcases (mem_codeAssignments h).1 he with ⟨w', h3, h4⟩ | ⟨⟨w', a', b', h3⟩, h4⟩
  · rw [h2, h4]
  · rw [h1] at h3
    cases h3
  · rw [h1] at h3
    cases h3
  · subst hr
    rw [hv] at h2
    exact h.followPath_unique h2 h4

theorem mem_leafValues {nodes : List Node} {v : Byte} :
    v ∈ leafValues nodes ↔ ∃ (i : Nat) (w : Word), nodes[i]? = some (Node.leaf v w) := by
  constructor
  · intro h
    induction nodes with
    | nil => cases h
    | cons a ns ih =>
      cases a with
      | leaf u w =>
        rcases List.mem_cons.1 h with rfl | h
        · exact ⟨0, w, rfl⟩
        · obtain ⟨i, w', h⟩ := ih h
          exact ⟨i + 1, w', h⟩
      | internal w l r =>
        obtain ⟨i, w', h⟩ := ih h
        exact ⟨i + 1, w', h⟩
  · rintro ⟨i, w, h⟩
    obtain ⟨as, bs, rfl⟩ := List.append_of_mem (List.mem_of_getElem? h)
    simp [leafValues_append, leafValues]

/-- CODES assigns each value of a well-formed store's leaves once, and no other value. -/
theorem codeAssignments_keys {nodes : List Node} {r : Nat} (h : NodeStoreOk nodes (some r)) :
    ((codeAssignments nodes (some r)).map Prod.fst).Perm (leafValues nodes) := by
  have hr : 0 < nodes.length ∧ r = nodes.length - 1 := by
    have := h.rootLast
    split at this
    · cases this
    · exact ⟨by omega, Option.some.inj this⟩
  have hn : (codeAssignments nodes (some r)).Nodup := by
    rw [codeAssignments]
    split
    · simp
    · exact nodup_assignCodes _ _ _
  have hn' : ((codeAssignments nodes (some r)).map Prod.fst).Nodup :=
    List.Nodup.map_on (fun d hd e he hv => Prod.ext hv (codeAssignments_agree h hd he hv)) hn
  refine (List.perm_ext_iff_of_nodup hn' h.leavesDistinct).2 fun v => ?_
  rw [mem_leafValues]
  constructor
  · intro hv
    obtain ⟨e, he, rfl⟩ := List.mem_map.1 hv
    rcases (mem_codeAssignments h).1 he with ⟨w, h1, -⟩ | ⟨-, h2⟩
    · exact ⟨r, w, h1⟩
    · obtain ⟨j, w, -, h3⟩ := followPath_eq_some.1 h2
      exact ⟨j, w, h3⟩
  · rintro ⟨i, w, hi⟩
    obtain ⟨hlt, -⟩ := List.getElem?_eq_some_iff.1 hi
    obtain ⟨p, hp⟩ := h.reached i hlt
    rcases hroot : nodes[r]? with _ | _ | ⟨w', a, b⟩
    · exact absurd hroot (by rw [List.getElem?_eq_getElem (by omega)]; simp)
    · cases p with
      | nil =>
        rw [nodeAt, Option.some.injEq, ← hr.2] at hp
        subst hp
        exact List.mem_map.2 ⟨(v, [false]), (mem_codeAssignments h).2 (.inl ⟨w, hi, rfl⟩), rfl⟩
      | cons c p =>
        rw [nodeAt, ← hr.2, hroot] at hp
        cases hp
    · refine List.mem_map.2 ⟨(v, p), (mem_codeAssignments h).2 (.inr ⟨⟨w', a, b, hroot⟩, ?_⟩), rfl⟩
      exact followPath_eq_some.2 ⟨i, w, by rw [hr.2]; exact hp, hi⟩

/-- The code that CODES gives a value of a well-formed store. -/
theorem tabGet_codeTable {nodes : List Node} {r : Nat} (h : NodeStoreOk nodes (some r)) (v : Byte) {p : BitString}
    (hp : p ≠ []) : tabGet (codeTable nodes (some r)) v = p ↔ (v, p) ∈ codeAssignments nodes (some r) := by
  rw [codeTable_eq]
  constructor
  · intro hv
    rcases tabGet_setAll_noCodes (codeAssignments nodes (some r)) v with ⟨e, he, rfl, h1⟩ | ⟨-, h1⟩
    · rw [hv] at h1
      rwa [h1]
    · rw [hv] at h1
      exact absurd h1 hp
  · intro hm
    exact tabGet_setAll_of_mem (e := (v, p)) noCodes (fun d hd hdv => codeAssignments_agree h hd hm hdv) hm

/-- No path that CODES assigns is empty. -/
theorem codeAssignments_ne_nil {nodes : List Node} {r : Nat} (h : NodeStoreOk nodes (some r)) {e : Byte × BitString}
    (he : e ∈ codeAssignments nodes (some r)) : e.2 ≠ [] := by
  rcases (mem_codeAssignments h).1 he with ⟨w, -, h2⟩ | ⟨⟨w, a, b, h1⟩, h2⟩
  · simp [h2]
  · intro h0
    simp [h0, followPath, h1] at h2

/-- The codes of a well-formed store fit MAX_LEN. -/
theorem codesFit_codeTable {nodes : List Node} {root : Option Nat} (h : NodeStoreOk nodes root) :
    CodesFit (codeTable nodes root) := by
  intro v
  rw [codeTable_eq]
  rcases tabGet_setAll_noCodes (codeAssignments nodes root) v with ⟨e, he, -, h1⟩ | ⟨-, h1⟩
  · rw [h1]
    rcases root with _ | r
    · simp [codeAssignments] at he
    · rcases (mem_codeAssignments h).1 he with ⟨w, -, h2⟩ | ⟨-, h2⟩
      · rw [h2]
        decide
      · obtain ⟨j, w, h3, -⟩ := followPath_eq_some.1 h2
        exact h.length_path_le h3
  · rw [h1]
    exact Nat.zero_le _

end Sys2Proof.Machine
end

