-- ==== Sys2Proof/Laws/Platform.lean ====
section
/-!
SUPPORT. The platform's map, regions, and what the host duties decide: each shared check said once in plain terms.
-/

namespace Sys2Proof.Machine

/-- The device scan finds a device exactly if some address in range is one. -/
theorem hitsDevice_iff : ∀ (p : Platform) (lo hi : Nat),
    hitsDevice p lo hi = true ↔ ∃ a, lo ≤ a ∧ a < hi ∧ kindOf p a = .device
  | [], lo, hi => by simp [hitsDevice, kindOf]
  | r :: p, lo, hi => by
    simp only [hitsDevice, Bool.or_eq_true, Bool.and_eq_true, beq_iff_eq, decide_eq_true_eq, hitsDevice_iff p, kindOf]
    constructor
    · rintro ((⟨hk, hlt⟩ | ⟨a, h1, h2, h3⟩) | ⟨a, h1, h2, h3⟩)
      · exact ⟨max lo r.base, by omega, by omega, by rw [if_pos (by omega)]; exact hk⟩
      · exact ⟨a, h1, by omega, by rw [if_neg (by omega)]; exact h3⟩
      · exact ⟨a, by omega, h2, by rw [if_neg (by omega)]; exact h3⟩
    · rintro ⟨a, h1, h2, h3⟩
      split at h3
      · exact .inl (.inl ⟨h3, by omega⟩)
      · rename_i hn
        by_cases hlt : a < r.base
        · exact .inl (.inr ⟨a, h1, by omega, h3⟩)
        · exact .inr ⟨a, by omega, h2, h3⟩

theorem admitted_iff (p : Platform) (a : Nat) :
    admitted p a = true ↔ a < Config.topAddress ∧ kindOf p a ≠ .absent := by
  simp [admitted, memAdmit]

/-- An admitted address lies below the reserved top address (20_memory R75). -/
theorem lt_of_admitted {p : Platform} {a : Nat} (h : admitted p a = true) : a < 0xFFFFFFFF :=
  ((admitted_iff p a).mp h).1

/-- A region is on no device exactly if its admitted addresses are plain memory (20_memory R91). -/
theorem onDevice_eq_false_iff (p : Platform) (r : Span) : r.onDevice p = false ↔ PlainMemory p r := by
  rw [← Bool.not_eq_true, Span.onDevice, hitsDevice_iff]
  constructor
  · intro h a h1 h2 h3
    obtain ⟨h4, h5⟩ := (admitted_iff p a).mp h3
    cases hk : kindOf p a
    · rfl
    · exact absurd ⟨a, h1, by omega, hk⟩ h
    · exact absurd hk h5
  · rintro h ⟨a, h1, h2, h3⟩
    have := h a h1 (by omega) ((admitted_iff p a).mpr ⟨by omega, by simp [h3]⟩)
    simp [h3] at this

/-- Two regions meet exactly if they share an address. -/
theorem meets_eq_false_iff (r q : Span) : r.meets q = false ↔ Apart r q := by
  simp only [Span.meets, decide_eq_false_iff_not, Apart, Span.has, Bool.and_eq_true, decide_eq_true_eq]
  constructor
  · intro h a ha
    omega
  · intro h hlt
    exact h (max r.base q.base) (by omega)

/-- A region's addresses are its base and an offset. -/
theorem allAdmitted_iff (p : Platform) (b n : Nat) :
    AllAdmitted p { base := b, len := n } ↔ ∀ k, k < n → admitted p (b + k) = true := by
  constructor
  · intro h k hk
    exact h (b + k) (Nat.le_add_right b k) (Nat.add_lt_add_left hk b)
  · intro h a (h1 : b ≤ a) (h2 : a < b + n)
    have := h (a - b) (by omega)
    rwa [Nat.add_sub_cancel' h1] at this

theorem allAdmitted_zero (p : Platform) (b : Nat) : AllAdmitted p { base := b, len := 0 } :=
  (allAdmitted_iff p b 0).2 fun _ h => absurd h (Nat.not_lt_zero _)

/-- A region is admitted one address further. -/
theorem AllAdmitted.succ {p : Platform} {b n : Nat} (h : AllAdmitted p { base := b, len := n })
    (hn : admitted p (b + n) = true) : AllAdmitted p { base := b, len := n + 1 } := by
  rw [allAdmitted_iff] at h ⊢
  intro k hk
  rcases Nat.lt_succ_iff_lt_or_eq.mp hk with hlt | rfl
  · exact h k hlt
  · exact hn

theorem AllAdmitted.mono {p : Platform} {b m n : Nat} (h : AllAdmitted p { base := b, len := n }) (hm : m ≤ n) :
    AllAdmitted p { base := b, len := m } := by
  rw [allAdmitted_iff] at h ⊢
  exact fun k hk => h k (by omega)

theorem PlainMemory.mono {p : Platform} {b m n : Nat} (h : PlainMemory p { base := b, len := n }) (hm : m ≤ n) :
    PlainMemory p { base := b, len := m } :=
  fun a (h1 : b ≤ a) (h2 : a < b + m) => h a h1 (show a < b + n by omega)

/-- The first address that is not admitted is one only. -/
theorem first_not_admitted {p : Platform} {b i j : Nat} (hi : AllAdmitted p { base := b, len := i })
    (hj : AllAdmitted p { base := b, len := j }) (hi' : admitted p (b + i) = false)
    (hj' : admitted p (b + j) = false) : i = j := by
  rw [allAdmitted_iff] at hi hj
  rcases Nat.lt_trichotomy i j with h | h | h
  · rw [hj i h] at hi'; cases hi'
  · exact h
  · rw [hi j h] at hj'; cases hj'

theorem apart_empty (r : Span) : Apart r Span.empty := by
  intro a
  simp [Span.has, Span.empty]

theorem plain_empty (p : Platform) : PlainMemory p Span.empty := by
  intro a h1 h2
  simp only [Span.empty] at h2
  omega

/-- Everything `underDuties` can answer: the state given, if the duties are kept; otherwise a refusal that says which duty
is broken. -/
theorem underDuties_eq (p : Platform) (r o : Regions) (t : State) :
    (PlainMemory p r.reads ∧ PlainMemory p r.writes ∧ Apart o.reads o.writes ∧ underDuties p r o t = .next t) ∨
    (¬ (PlainMemory p r.reads ∧ PlainMemory p r.writes) ∧ underDuties p r o t = .refused .deviceRegion) ∨
    (PlainMemory p r.reads ∧ PlainMemory p r.writes ∧ ¬ Apart o.reads o.writes ∧
      underDuties p r o t = .refused .overlappingRegions) := by
  simp only [← onDevice_eq_false_iff, ← meets_eq_false_iff, underDuties]
  cases r.reads.onDevice p <;> cases r.writes.onDevice p <;> cases o.reads.meets o.writes <;> simp

/-- Under the duties the state given is the next one. -/
theorem underDuties_next {p : Platform} {r o : Regions} (t : State) (h1 : PlainMemory p r.reads)
    (h2 : PlainMemory p r.writes) (h3 : Apart o.reads o.writes) : underDuties p r o t = .next t := by
  rcases underDuties_eq p r o t with h | h | h
  · exact h.2.2.2
  · exact absurd ⟨h1, h2⟩ h.1
  · exact absurd h3 h.2.2.1

/-- A next state of `underDuties` is the one given. -/
theorem eq_of_underDuties_next {p : Platform} {r o : Regions} {t u : State} (h : underDuties p r o t = .next u) :
    u = t := by
  rcases underDuties_eq p r o t with h' | h' | h'
  · rw [h'.2.2.2] at h; exact (Host.Outcome.next.inj h).symm
  · rw [h'.2] at h; exact absurd h (by simp)
  · rw [h'.2.2.2] at h; exact absurd h (by simp)

end Sys2Proof.Machine
end

