-- ==== Sys2Proof/Laws/State.lean ====
section
/-!
SUPPORT. What each state update of the model leaves in each field: one lemma per field, true by rfl, so that no proof
unfolds a record update.
-/

namespace Sys2Proof.Machine

/-! ### complete -/

@[simp] theorem complete_status (c : BitVec 4) (s : State) : (complete c s).status = { s.status with err := c != 0#4, done := true } := rfl
@[simp] theorem complete_errors (c : BitVec 4) (s : State) : (complete c s).errors = { s.errors with code := c } := rfl
@[simp] theorem complete_doneIe (c : BitVec 4) (s : State) : (complete c s).doneIe = s.doneIe := rfl
@[simp] theorem complete_cfg (c : BitVec 4) (s : State) : (complete c s).cfg = s.cfg := rfl
@[simp] theorem complete_results (c : BitVec 4) (s : State) : (complete c s).results = s.results := rfl
@[simp] theorem complete_freq (c : BitVec 4) (s : State) : (complete c s).freq = s.freq := rfl
@[simp] theorem complete_nodes (c : BitVec 4) (s : State) : (complete c s).nodes = s.nodes := rfl
@[simp] theorem complete_root (c : BitVec 4) (s : State) : (complete c s).root = s.root := rfl
@[simp] theorem complete_codes (c : BitVec 4) (s : State) : (complete c s).codes = s.codes := rfl
@[simp] theorem complete_eng (c : BitVec 4) (s : State) : (complete c s).eng = .idle := rfl
@[simp] theorem complete_mem (c : BitVec 4) (s : State) : (complete c s).mem = s.mem := rfl
@[simp] theorem complete_platform (c : BitVec 4) (s : State) : (complete c s).platform = s.platform := rfl
@[simp] theorem complete_host (c : BitVec 4) (s : State) : (complete c s).host = s.host := rfl
@[simp] theorem complete_observed (c : BitVec 4) (s : State) : (complete c s).observed = s.observed := rfl
@[simp] theorem complete_schedule (c : BitVec 4) (s : State) : (complete c s).schedule = s.schedule := rfl
@[simp] theorem complete_draws (c : BitVec 4) (s : State) : (complete c s).draws = s.draws := rfl

/-! ### finish -/

@[simp] theorem finish_status (s : State) : (finish s).status = { s.status with err := false, done := true } := rfl
@[simp] theorem finish_errors (s : State) : (finish s).errors = { s.errors with code := 0#4 } := rfl
@[simp] theorem finish_doneIe (s : State) : (finish s).doneIe = s.doneIe := rfl
@[simp] theorem finish_cfg (s : State) : (finish s).cfg = s.cfg := rfl
@[simp] theorem finish_results (s : State) : (finish s).results = s.results := rfl
@[simp] theorem finish_freq (s : State) : (finish s).freq = s.freq := rfl
@[simp] theorem finish_nodes (s : State) : (finish s).nodes = s.nodes := rfl
@[simp] theorem finish_root (s : State) : (finish s).root = s.root := rfl
@[simp] theorem finish_codes (s : State) : (finish s).codes = s.codes := rfl
@[simp] theorem finish_eng (s : State) : (finish s).eng = .idle := rfl
@[simp] theorem finish_mem (s : State) : (finish s).mem = s.mem := rfl
@[simp] theorem finish_platform (s : State) : (finish s).platform = s.platform := rfl
@[simp] theorem finish_host (s : State) : (finish s).host = s.host := rfl
@[simp] theorem finish_observed (s : State) : (finish s).observed = s.observed := rfl
@[simp] theorem finish_schedule (s : State) : (finish s).schedule = s.schedule := rfl
@[simp] theorem finish_draws (s : State) : (finish s).draws = s.draws := rfl

/-! ### raise -/

@[simp] theorem raise_status (e : CommandError) (s : State) : (raise e s).status = { s.status with err := e.code != 0#4, done := true } := rfl
@[simp] theorem raise_errors (e : CommandError) (s : State) : (raise e s).errors = { code := e.code, index := e.index, value := e.value, faultAddr := e.faultAddr } := rfl
@[simp] theorem raise_doneIe (e : CommandError) (s : State) : (raise e s).doneIe = s.doneIe := rfl
@[simp] theorem raise_cfg (e : CommandError) (s : State) : (raise e s).cfg = s.cfg := rfl
@[simp] theorem raise_results (e : CommandError) (s : State) : (raise e s).results = s.results := rfl
@[simp] theorem raise_freq (e : CommandError) (s : State) : (raise e s).freq = s.freq := rfl
@[simp] theorem raise_nodes (e : CommandError) (s : State) : (raise e s).nodes = s.nodes := rfl
@[simp] theorem raise_root (e : CommandError) (s : State) : (raise e s).root = s.root := rfl
@[simp] theorem raise_codes (e : CommandError) (s : State) : (raise e s).codes = s.codes := rfl
@[simp] theorem raise_eng (e : CommandError) (s : State) : (raise e s).eng = .idle := rfl
@[simp] theorem raise_mem (e : CommandError) (s : State) : (raise e s).mem = s.mem := rfl
@[simp] theorem raise_platform (e : CommandError) (s : State) : (raise e s).platform = s.platform := rfl
@[simp] theorem raise_host (e : CommandError) (s : State) : (raise e s).host = s.host := rfl
@[simp] theorem raise_observed (e : CommandError) (s : State) : (raise e s).observed = s.observed := rfl
@[simp] theorem raise_schedule (e : CommandError) (s : State) : (raise e s).schedule = s.schedule := rfl
@[simp] theorem raise_draws (e : CommandError) (s : State) : (raise e s).draws = s.draws := rfl

/-! ### accept -/

@[simp] theorem accept_status (w : Word) (s : State) : (accept w s).status = { s.status with lastOp := w.extractLsb' 0 8, done := false, err := false, empty := false } := rfl
@[simp] theorem accept_errors (w : Word) (s : State) : (accept w s).errors = { code := 0#4, index := 0#32, value := 0#32, faultAddr := 0#32 } := rfl
@[simp] theorem accept_doneIe (w : Word) (s : State) : (accept w s).doneIe = s.doneIe := rfl
@[simp] theorem accept_cfg (w : Word) (s : State) : (accept w s).cfg = s.cfg := rfl
@[simp] theorem accept_results (w : Word) (s : State) : (accept w s).results = s.results := rfl
@[simp] theorem accept_freq (w : Word) (s : State) : (accept w s).freq = s.freq := rfl
@[simp] theorem accept_nodes (w : Word) (s : State) : (accept w s).nodes = s.nodes := rfl
@[simp] theorem accept_root (w : Word) (s : State) : (accept w s).root = s.root := rfl
@[simp] theorem accept_codes (w : Word) (s : State) : (accept w s).codes = s.codes := rfl
@[simp] theorem accept_eng (w : Word) (s : State) : (accept w s).eng = .busy w := rfl
@[simp] theorem accept_mem (w : Word) (s : State) : (accept w s).mem = s.mem := rfl
@[simp] theorem accept_platform (w : Word) (s : State) : (accept w s).platform = s.platform := rfl
@[simp] theorem accept_host (w : Word) (s : State) : (accept w s).host = s.host := rfl
@[simp] theorem accept_observed (w : Word) (s : State) : (accept w s).observed = s.observed := rfl
@[simp] theorem accept_schedule (w : Word) (s : State) : (accept w s).schedule = s.schedule := rfl
@[simp] theorem accept_draws (w : Word) (s : State) : (accept w s).draws = s.draws := rfl

/-! ### setEmptyIf -/

@[simp] theorem setEmptyIf_status (c : Bool) (s : State) : (setEmptyIf c s).status = { s.status with empty := c || s.status.empty } := rfl
@[simp] theorem setEmptyIf_errors (c : Bool) (s : State) : (setEmptyIf c s).errors = s.errors := rfl
@[simp] theorem setEmptyIf_doneIe (c : Bool) (s : State) : (setEmptyIf c s).doneIe = s.doneIe := rfl
@[simp] theorem setEmptyIf_cfg (c : Bool) (s : State) : (setEmptyIf c s).cfg = s.cfg := rfl
@[simp] theorem setEmptyIf_results (c : Bool) (s : State) : (setEmptyIf c s).results = s.results := rfl
@[simp] theorem setEmptyIf_freq (c : Bool) (s : State) : (setEmptyIf c s).freq = s.freq := rfl
@[simp] theorem setEmptyIf_nodes (c : Bool) (s : State) : (setEmptyIf c s).nodes = s.nodes := rfl
@[simp] theorem setEmptyIf_root (c : Bool) (s : State) : (setEmptyIf c s).root = s.root := rfl
@[simp] theorem setEmptyIf_codes (c : Bool) (s : State) : (setEmptyIf c s).codes = s.codes := rfl
@[simp] theorem setEmptyIf_eng (c : Bool) (s : State) : (setEmptyIf c s).eng = s.eng := rfl
@[simp] theorem setEmptyIf_mem (c : Bool) (s : State) : (setEmptyIf c s).mem = s.mem := rfl
@[simp] theorem setEmptyIf_platform (c : Bool) (s : State) : (setEmptyIf c s).platform = s.platform := rfl
@[simp] theorem setEmptyIf_host (c : Bool) (s : State) : (setEmptyIf c s).host = s.host := rfl
@[simp] theorem setEmptyIf_observed (c : Bool) (s : State) : (setEmptyIf c s).observed = s.observed := rfl
@[simp] theorem setEmptyIf_schedule (c : Bool) (s : State) : (setEmptyIf c s).schedule = s.schedule := rfl
@[simp] theorem setEmptyIf_draws (c : Bool) (s : State) : (setEmptyIf c s).draws = s.draws := rfl

/-! ### clearDatapath -/

@[simp] theorem clearDatapath_status (s : State) : (clearDatapath s).status = s.status := rfl
@[simp] theorem clearDatapath_errors (s : State) : (clearDatapath s).errors = s.errors := rfl
@[simp] theorem clearDatapath_doneIe (s : State) : (clearDatapath s).doneIe = s.doneIe := rfl
@[simp] theorem clearDatapath_cfg (s : State) : (clearDatapath s).cfg = s.cfg := rfl
@[simp] theorem clearDatapath_results (s : State) : (clearDatapath s).results = State.reset.results := rfl
@[simp] theorem clearDatapath_freq (s : State) : (clearDatapath s).freq = State.reset.freq := rfl
@[simp] theorem clearDatapath_nodes (s : State) : (clearDatapath s).nodes = [] := rfl
@[simp] theorem clearDatapath_root (s : State) : (clearDatapath s).root = none := rfl
@[simp] theorem clearDatapath_codes (s : State) : (clearDatapath s).codes = State.reset.codes := rfl
@[simp] theorem clearDatapath_eng (s : State) : (clearDatapath s).eng = s.eng := rfl
@[simp] theorem clearDatapath_mem (s : State) : (clearDatapath s).mem = s.mem := rfl
@[simp] theorem clearDatapath_platform (s : State) : (clearDatapath s).platform = s.platform := rfl
@[simp] theorem clearDatapath_host (s : State) : (clearDatapath s).host = s.host := rfl
@[simp] theorem clearDatapath_observed (s : State) : (clearDatapath s).observed = s.observed := rfl
@[simp] theorem clearDatapath_schedule (s : State) : (clearDatapath s).schedule = s.schedule := rfl
@[simp] theorem clearDatapath_draws (s : State) : (clearDatapath s).draws = s.draws := rfl

/-! ### writeStatus -/

@[simp] theorem writeStatus_status (w : Word) (s : State) : (writeStatus w s).status = { s.status with done := s.status.done && !w.getLsbD 1, overrun := s.status.overrun && !w.getLsbD 4 } := rfl
@[simp] theorem writeStatus_errors (w : Word) (s : State) : (writeStatus w s).errors = s.errors := rfl
@[simp] theorem writeStatus_doneIe (w : Word) (s : State) : (writeStatus w s).doneIe = s.doneIe := rfl
@[simp] theorem writeStatus_cfg (w : Word) (s : State) : (writeStatus w s).cfg = s.cfg := rfl
@[simp] theorem writeStatus_results (w : Word) (s : State) : (writeStatus w s).results = s.results := rfl
@[simp] theorem writeStatus_freq (w : Word) (s : State) : (writeStatus w s).freq = s.freq := rfl
@[simp] theorem writeStatus_nodes (w : Word) (s : State) : (writeStatus w s).nodes = s.nodes := rfl
@[simp] theorem writeStatus_root (w : Word) (s : State) : (writeStatus w s).root = s.root := rfl
@[simp] theorem writeStatus_codes (w : Word) (s : State) : (writeStatus w s).codes = s.codes := rfl
@[simp] theorem writeStatus_eng (w : Word) (s : State) : (writeStatus w s).eng = s.eng := rfl
@[simp] theorem writeStatus_mem (w : Word) (s : State) : (writeStatus w s).mem = s.mem := rfl
@[simp] theorem writeStatus_platform (w : Word) (s : State) : (writeStatus w s).platform = s.platform := rfl
@[simp] theorem writeStatus_host (w : Word) (s : State) : (writeStatus w s).host = s.host := rfl
@[simp] theorem writeStatus_observed (w : Word) (s : State) : (writeStatus w s).observed = s.observed := rfl
@[simp] theorem writeStatus_schedule (w : Word) (s : State) : (writeStatus w s).schedule = s.schedule := rfl
@[simp] theorem writeStatus_draws (w : Word) (s : State) : (writeStatus w s).draws = s.draws := rfl

/-! ### setOverrun -/

@[simp] theorem setOverrun_status (s : State) : (setOverrun s).status = { s.status with overrun := true } := rfl
@[simp] theorem setOverrun_errors (s : State) : (setOverrun s).errors = s.errors := rfl
@[simp] theorem setOverrun_doneIe (s : State) : (setOverrun s).doneIe = s.doneIe := rfl
@[simp] theorem setOverrun_cfg (s : State) : (setOverrun s).cfg = s.cfg := rfl
@[simp] theorem setOverrun_results (s : State) : (setOverrun s).results = s.results := rfl
@[simp] theorem setOverrun_freq (s : State) : (setOverrun s).freq = s.freq := rfl
@[simp] theorem setOverrun_nodes (s : State) : (setOverrun s).nodes = s.nodes := rfl
@[simp] theorem setOverrun_root (s : State) : (setOverrun s).root = s.root := rfl
@[simp] theorem setOverrun_codes (s : State) : (setOverrun s).codes = s.codes := rfl
@[simp] theorem setOverrun_eng (s : State) : (setOverrun s).eng = s.eng := rfl
@[simp] theorem setOverrun_mem (s : State) : (setOverrun s).mem = s.mem := rfl
@[simp] theorem setOverrun_platform (s : State) : (setOverrun s).platform = s.platform := rfl
@[simp] theorem setOverrun_host (s : State) : (setOverrun s).host = s.host := rfl
@[simp] theorem setOverrun_observed (s : State) : (setOverrun s).observed = s.observed := rfl
@[simp] theorem setOverrun_schedule (s : State) : (setOverrun s).schedule = s.schedule := rfl
@[simp] theorem setOverrun_draws (s : State) : (setOverrun s).draws = s.draws := rfl

/-! ### resetBlock -/

@[simp] theorem resetBlock_status (s : State) : (resetBlock s).status = State.reset.status := rfl
@[simp] theorem resetBlock_errors (s : State) : (resetBlock s).errors = State.reset.errors := rfl
@[simp] theorem resetBlock_doneIe (s : State) : (resetBlock s).doneIe = State.reset.doneIe := rfl
@[simp] theorem resetBlock_cfg (s : State) : (resetBlock s).cfg = State.reset.cfg := rfl
@[simp] theorem resetBlock_results (s : State) : (resetBlock s).results = State.reset.results := rfl
@[simp] theorem resetBlock_freq (s : State) : (resetBlock s).freq = State.reset.freq := rfl
@[simp] theorem resetBlock_nodes (s : State) : (resetBlock s).nodes = State.reset.nodes := rfl
@[simp] theorem resetBlock_root (s : State) : (resetBlock s).root = State.reset.root := rfl
@[simp] theorem resetBlock_codes (s : State) : (resetBlock s).codes = State.reset.codes := rfl
@[simp] theorem resetBlock_eng (s : State) : (resetBlock s).eng = State.reset.eng := rfl
@[simp] theorem resetBlock_mem (s : State) : (resetBlock s).mem = s.mem := rfl
@[simp] theorem resetBlock_platform (s : State) : (resetBlock s).platform = s.platform := rfl
@[simp] theorem resetBlock_host (s : State) : (resetBlock s).host = s.host := rfl
@[simp] theorem resetBlock_observed (s : State) : (resetBlock s).observed = s.observed := rfl
@[simp] theorem resetBlock_schedule (s : State) : (resetBlock s).schedule = s.schedule := rfl
@[simp] theorem resetBlock_draws (s : State) : (resetBlock s).draws = s.draws := rfl

/-! ### draw -/

@[simp] theorem draw_status (s : State) : (draw s).status = s.status := rfl
@[simp] theorem draw_errors (s : State) : (draw s).errors = s.errors := rfl
@[simp] theorem draw_doneIe (s : State) : (draw s).doneIe = s.doneIe := rfl
@[simp] theorem draw_cfg (s : State) : (draw s).cfg = s.cfg := rfl
@[simp] theorem draw_results (s : State) : (draw s).results = s.results := rfl
@[simp] theorem draw_freq (s : State) : (draw s).freq = s.freq := rfl
@[simp] theorem draw_nodes (s : State) : (draw s).nodes = s.nodes := rfl
@[simp] theorem draw_root (s : State) : (draw s).root = s.root := rfl
@[simp] theorem draw_codes (s : State) : (draw s).codes = s.codes := rfl
@[simp] theorem draw_eng (s : State) : (draw s).eng = s.eng := rfl
@[simp] theorem draw_mem (s : State) : (draw s).mem = s.mem := rfl
@[simp] theorem draw_platform (s : State) : (draw s).platform = s.platform := rfl
@[simp] theorem draw_host (s : State) : (draw s).host = s.host := rfl
@[simp] theorem draw_observed (s : State) : (draw s).observed = s.observed := rfl
@[simp] theorem draw_schedule (s : State) : (draw s).schedule = s.schedule := rfl
@[simp] theorem draw_draws (s : State) : (draw s).draws = s.draws + 1 := rfl

/-! ### observe -/

@[simp] theorem observe_status (o : Observation) (s : State) : (observe o s).status = s.status := rfl
@[simp] theorem observe_errors (o : Observation) (s : State) : (observe o s).errors = s.errors := rfl
@[simp] theorem observe_doneIe (o : Observation) (s : State) : (observe o s).doneIe = s.doneIe := rfl
@[simp] theorem observe_cfg (o : Observation) (s : State) : (observe o s).cfg = s.cfg := rfl
@[simp] theorem observe_results (o : Observation) (s : State) : (observe o s).results = s.results := rfl
@[simp] theorem observe_freq (o : Observation) (s : State) : (observe o s).freq = s.freq := rfl
@[simp] theorem observe_nodes (o : Observation) (s : State) : (observe o s).nodes = s.nodes := rfl
@[simp] theorem observe_root (o : Observation) (s : State) : (observe o s).root = s.root := rfl
@[simp] theorem observe_codes (o : Observation) (s : State) : (observe o s).codes = s.codes := rfl
@[simp] theorem observe_eng (o : Observation) (s : State) : (observe o s).eng = s.eng := rfl
@[simp] theorem observe_mem (o : Observation) (s : State) : (observe o s).mem = s.mem := rfl
@[simp] theorem observe_platform (o : Observation) (s : State) : (observe o s).platform = s.platform := rfl
@[simp] theorem observe_host (o : Observation) (s : State) : (observe o s).host = s.host := rfl
@[simp] theorem observe_observed (o : Observation) (s : State) : (observe o s).observed = o :: s.observed := rfl
@[simp] theorem observe_schedule (o : Observation) (s : State) : (observe o s).schedule = s.schedule := rfl
@[simp] theorem observe_draws (o : Observation) (s : State) : (observe o s).draws = s.draws := rfl

/-! ### readNoted: only what the host noted and the draw counter change -/

theorem regRead_state (r : Reg) (s : State) : (regRead r s).2 = { s with draws := (regRead r s).2.draws } := by
  unfold regRead
  repeat' split
  all_goals rfl

@[simp] theorem readNoted_status (r : Reg) (o : Nat) (s : State) : (readNoted r o s).status = s.status := by rw [readNoted, observe_status, regRead_state]
@[simp] theorem readNoted_errors (r : Reg) (o : Nat) (s : State) : (readNoted r o s).errors = s.errors := by rw [readNoted, observe_errors, regRead_state]
@[simp] theorem readNoted_doneIe (r : Reg) (o : Nat) (s : State) : (readNoted r o s).doneIe = s.doneIe := by rw [readNoted, observe_doneIe, regRead_state]
@[simp] theorem readNoted_cfg (r : Reg) (o : Nat) (s : State) : (readNoted r o s).cfg = s.cfg := by rw [readNoted, observe_cfg, regRead_state]
@[simp] theorem readNoted_results (r : Reg) (o : Nat) (s : State) : (readNoted r o s).results = s.results := by rw [readNoted, observe_results, regRead_state]
@[simp] theorem readNoted_freq (r : Reg) (o : Nat) (s : State) : (readNoted r o s).freq = s.freq := by rw [readNoted, observe_freq, regRead_state]
@[simp] theorem readNoted_nodes (r : Reg) (o : Nat) (s : State) : (readNoted r o s).nodes = s.nodes := by rw [readNoted, observe_nodes, regRead_state]
@[simp] theorem readNoted_root (r : Reg) (o : Nat) (s : State) : (readNoted r o s).root = s.root := by rw [readNoted, observe_root, regRead_state]
@[simp] theorem readNoted_codes (r : Reg) (o : Nat) (s : State) : (readNoted r o s).codes = s.codes := by rw [readNoted, observe_codes, regRead_state]
@[simp] theorem readNoted_eng (r : Reg) (o : Nat) (s : State) : (readNoted r o s).eng = s.eng := by rw [readNoted, observe_eng, regRead_state]
@[simp] theorem readNoted_mem (r : Reg) (o : Nat) (s : State) : (readNoted r o s).mem = s.mem := by rw [readNoted, observe_mem, regRead_state]
@[simp] theorem readNoted_platform (r : Reg) (o : Nat) (s : State) : (readNoted r o s).platform = s.platform := by rw [readNoted, observe_platform, regRead_state]
@[simp] theorem readNoted_host (r : Reg) (o : Nat) (s : State) : (readNoted r o s).host = s.host := by rw [readNoted, observe_host, regRead_state]
@[simp] theorem readNoted_schedule (r : Reg) (o : Nat) (s : State) : (readNoted r o s).schedule = s.schedule := by rw [readNoted, observe_schedule, regRead_state]
@[simp] theorem readNoted_observed (r : Reg) (o : Nat) (s : State) : (readNoted r o s).observed = .register o (regRead r s).1 :: s.observed := by rw [readNoted, observe_observed, regRead_state]
@[simp] theorem readNoted_draws (r : Reg) (o : Nat) (s : State) : (readNoted r o s).draws = (regRead r s).2.draws := rfl

/-! ### takeTurn: only the schedule and the draw counter change -/

@[simp] theorem takeTurn_status (s : State) : (takeTurn s).status = s.status := rfl
@[simp] theorem takeTurn_errors (s : State) : (takeTurn s).errors = s.errors := rfl
@[simp] theorem takeTurn_doneIe (s : State) : (takeTurn s).doneIe = s.doneIe := rfl
@[simp] theorem takeTurn_cfg (s : State) : (takeTurn s).cfg = s.cfg := rfl
@[simp] theorem takeTurn_results (s : State) : (takeTurn s).results = s.results := rfl
@[simp] theorem takeTurn_freq (s : State) : (takeTurn s).freq = s.freq := rfl
@[simp] theorem takeTurn_nodes (s : State) : (takeTurn s).nodes = s.nodes := rfl
@[simp] theorem takeTurn_root (s : State) : (takeTurn s).root = s.root := rfl
@[simp] theorem takeTurn_codes (s : State) : (takeTurn s).codes = s.codes := rfl
@[simp] theorem takeTurn_eng (s : State) : (takeTurn s).eng = s.eng := rfl
@[simp] theorem takeTurn_mem (s : State) : (takeTurn s).mem = s.mem := rfl
@[simp] theorem takeTurn_platform (s : State) : (takeTurn s).platform = s.platform := rfl
@[simp] theorem takeTurn_host (s : State) : (takeTurn s).host = s.host := rfl
@[simp] theorem takeTurn_observed (s : State) : (takeTurn s).observed = s.observed := rfl

end Sys2Proof.Machine
end

