-- ==== Sys2Proof/Laws/Commands.lean ====
section
/-!
SUPPORT. exec, said once for all commands: the host duties on the command's regions, and the one state it can end in.
-/

namespace Sys2Proof.Machine

/-- The state a command ends in where the host duties are kept. -/
def resultOf : Instr → State → State
  | .nop, s => finish s
  | .clear, s => finish (clearDatapath s)
  | .freq, s => freqResult s
  | .tree, s => treeResult s
  | .codes, s => codesResult s
  | .pack, s => packResult s
  | .unpack, s => unpackResult s
  | .tstore, s => tstoreResult s
  | .tload, s => tloadResult s

/-- Every command is its result under its host duties; a command without memory regions has none. -/
theorem exec_eq (i : Instr) (s : State) :
    exec i s = underDuties s.platform (commandRegions i s) (overlapRegions i s) (resultOf i s) := by
  cases i <;> try rfl
  all_goals
    simp only [exec, commandRegions, overlapRegions, resultOf, execNop, execClear, execTree, execCodes]
    rw [underDuties_next _ (plain_empty _) (plain_empty _) (apart_empty _)]

/-- A command that goes on ends in its one result. -/
theorem eq_of_exec_next {i : Instr} {s t : State} (h : exec i s = .next t) : t = resultOf i s := by
  rw [exec_eq] at h
  exact eq_of_underDuties_next h

/-- Where the host duties are kept a command goes on. -/
theorem exec_of_duties {i : Instr} {s : State} (h : DutiesKept i s) : exec i s = .next (resultOf i s) := by
  rw [exec_eq, underDuties_next _ h.1 h.2.1 h.2.2]

/-- A command that goes on had its host duties kept. -/
theorem duties_of_exec_next {i : Instr} {s t : State} (h : exec i s = .next t) : DutiesKept i s := by
  rw [exec_eq] at h
  rcases underDuties_eq s.platform (commandRegions i s) (overlapRegions i s) (resultOf i s) with h' | h' | h'
  · exact ⟨h'.1, h'.2.1, h'.2.2.1⟩
  · rw [h'.2] at h; cases h
  · rw [h'.2.2.2] at h; cases h

/-- A command ends IDLE and leaves the platform and the host alone. -/
theorem resultOf_frame (i : Instr) (s : State) :
    (resultOf i s).eng = .idle ∧ (resultOf i s).platform = s.platform ∧ (resultOf i s).host = s.host ∧
      (resultOf i s).cfg = s.cfg ∧ (resultOf i s).doneIe = s.doneIe := by
  cases i <;>
    simp only [resultOf, freqResult, treeResult, codesResult, packResult, unpackResult, tstoreResult, tloadResult] <;>
    (try split) <;> simp

/-- The duties of a command that only reads. -/
theorem duties_of_reads {i : Instr} {s : State} (h : PlainMemory s.platform (commandRegions i s).reads)
    (hw : (commandRegions i s).writes = Span.empty) (ho : overlapRegions i s = commandRegions i s) : DutiesKept i s :=
  ⟨h, hw ▸ plain_empty _, by rw [ho, hw]; exact apart_empty _⟩

end Sys2Proof.Machine
end

