-- ==== Sys2Proof/Laws/Memory.lean ====
section
/-!
SUPPORT. Data memory: a read after a write, the canonical form, stores and loads of several bytes.
-/

namespace Sys2Proof.Machine

@[simp] theorem Memory.read_nil (a : Nat) : Memory.read [] a = unwrittenByte := rfl

theorem Memory.read_cons (c : Host.Cell) (m : Memory) (a : Nat) :
    Memory.read (c :: m) a = if c.1 = a then c.2 else Memory.read m a := rfl

/-- Below the lowest listed address a canonical memory reads as unwritten. -/
theorem Memory.read_below : ∀ (m : Memory) (lo a : Nat), Memory.wfFrom lo m = true → a < lo →
    Memory.read m a = unwrittenByte
  | [], _, _, _, _ => rfl
  | c :: m, lo, a, h, ha => by
    simp only [Memory.wfFrom, Bool.and_eq_true, decide_eq_true_eq] at h
    obtain ⟨⟨⟨hlo, -⟩, -⟩, hm⟩ := h
    rw [Memory.read_cons, if_neg (by omega)]
    exact Memory.read_below m (c.1 + 1) a hm (by omega)

/-- A canonical memory stays so under a lower bound. -/
theorem Memory.wfFrom_mono : ∀ (m : Memory) (lo lo' : Nat), lo' ≤ lo → Memory.wfFrom lo m = true →
    Memory.wfFrom lo' m = true
  | [], _, _, _, _ => rfl
  | c :: m, lo, lo', h, hm => by
    simp only [Memory.wfFrom, Bool.and_eq_true, decide_eq_true_eq] at hm ⊢
    obtain ⟨⟨⟨hlo, hs⟩, hb⟩, hm⟩ := hm
    exact ⟨⟨⟨by omega, hs⟩, hb⟩, hm⟩

/-- A write keeps the canonical form from a bound on (20_memory R71: the address is one of the address space). -/
theorem Memory.wfFrom_write : ∀ (m : Memory) (lo a : Nat) (b : Byte), Memory.wfFrom lo m = true → lo ≤ a →
    a < Config.addressSpace → Memory.wfFrom lo (Memory.write m a b) = true
  | [], lo, a, b, _, hlo, ha => by
    simp only [Memory.write]
    split
    · rfl
    · simp_all [Memory.wfFrom]
  | c :: m, lo, a, b, h, hlo, ha => by
    have h' := h
    simp only [Memory.wfFrom, Bool.and_eq_true, decide_eq_true_eq] at h
    obtain ⟨⟨⟨hc, hs⟩, hb⟩, hm⟩ := h
    simp only [Memory.write]
    split
    · rename_i hlt
      split
      · exact h'
      · simp only [Memory.wfFrom, Bool.and_eq_true, decide_eq_true_eq]
        exact ⟨⟨⟨hlo, ha⟩, by simp_all⟩, ⟨⟨⟨by omega, hs⟩, hb⟩, hm⟩⟩
    · split
      · rename_i _ heq
        split
        · exact Memory.wfFrom_mono m _ _ (by omega) hm
        · simp only [Memory.wfFrom, Bool.and_eq_true, decide_eq_true_eq]
          exact ⟨⟨⟨hlo, ha⟩, by simp_all⟩, by rw [heq]; exact hm⟩
      · simp only [Memory.wfFrom, Bool.and_eq_true, decide_eq_true_eq]
        exact ⟨⟨⟨hc, hs⟩, hb⟩, Memory.wfFrom_write m _ a b hm (by omega) ha⟩

/-- A write keeps the canonical form. -/
theorem Memory.wf_write (m : Memory) (a : Nat) (b : Byte) (h : Memory.wf m = true) (ha : a < Config.addressSpace) :
    Memory.wf (Memory.write m a b) = true :=
  Memory.wfFrom_write m 0 a b h (Nat.zero_le a) ha

/-- A read after a write, in a canonical memory from a bound on: the byte written at its address, the old byte elsewhere. -/
theorem Memory.read_write_from : ∀ (m : Memory) (lo a : Nat) (b : Byte) (x : Nat), Memory.wfFrom lo m = true →
    Memory.read (Memory.write m a b) x = if x = a then b else Memory.read m x
  | [], _, a, b, x, _ => by
    simp only [Memory.write]
    split <;> rename_i hb
    · split <;> simp_all
    · rw [Memory.read_cons]
      simp only [eq_comm (a := a)]
  | c :: m, lo, a, b, x, h => by
    have h' := h
    simp only [Memory.wfFrom, Bool.and_eq_true, decide_eq_true_eq] at h
    obtain ⟨⟨⟨hc, hs⟩, hb⟩, hm⟩ := h
    simp only [Memory.write]
    split
    · rename_i hlt
      split <;> rename_i hzero
      · split
        · rename_i hx
          rw [hx, hzero, Memory.read_cons, if_neg (by omega)]
          exact Memory.read_below m _ _ hm (by omega)
        · rfl
      · rw [Memory.read_cons]
        simp only [eq_comm (a := a)]
    · split
      · rename_i _ heq
        split <;> rename_i hzero
        · split
          · rename_i hx
            rw [hx, hzero, heq]
            exact Memory.read_below m _ _ hm (by omega)
          · rw [Memory.read_cons, if_neg (by omega)]
        · rw [Memory.read_cons, Memory.read_cons]
          simp only [eq_comm (a := a)]
          split
          · rfl
          · rw [if_neg (by omega)]
      · rename_i hnlt hne
        rw [Memory.read_cons, Memory.read_cons, Memory.read_write_from m (c.1 + 1) a b x hm]
        split
        · rename_i hx
          rw [if_neg (by omega)]
        · rfl

/-- A read after a write (20_memory R74). -/
theorem Memory.read_write (m : Memory) (a : Nat) (b : Byte) (x : Nat) (h : Memory.wf m = true) :
    Memory.read (Memory.write m a b) x = if x = a then b else Memory.read m x :=
  Memory.read_write_from m 0 a b x h

/-- A store of several bytes keeps the canonical form. -/
theorem wf_storeBytes : ∀ (bs : List Byte) (m : Memory) (a : Nat), Memory.wf m = true →
    a + bs.length ≤ Config.addressSpace → Memory.wf (storeBytes m a bs) = true
  | [], _, _, h, _ => h
  | b :: bs, m, a, h, ha => by
    simp only [List.length_cons] at ha
    exact wf_storeBytes bs _ _ (Memory.wf_write m a b h (by omega)) (by omega)

/-- What an address reads as after a store of several bytes in a canonical memory: byte k of the store at a + k, and what
it read before everywhere else. -/
theorem read_storeBytes : ∀ (bs : List Byte) (m : Memory) (a x : Nat), Memory.wf m = true →
    a + bs.length ≤ Config.addressSpace →
    Memory.read (storeBytes m a bs) x =
      if a ≤ x then (bs[x - a]?).getD (Memory.read m x) else Memory.read m x
  | [], m, a, x, _, _ => by simp [storeBytes]
  | b :: bs, m, a, x, h, ha => by
    simp only [List.length_cons] at ha
    rw [storeBytes, read_storeBytes bs _ _ _ (Memory.wf_write m a b h (by omega)) (by omega), Memory.read_write m a b x h]
    by_cases h1 : a + 1 ≤ x
    · obtain ⟨k, rfl⟩ : ∃ k, x = a + 1 + k := ⟨x - (a + 1), by omega⟩
      simp [show a ≤ a + 1 + k by omega, show ¬ a + 1 + k = a by omega, show a + 1 + k - (a + 1) = k by omega,
        show a + 1 + k - a = k + 1 by omega]
    · by_cases h2 : x = a
      · subst h2
        simp
      · simp [h1, h2, show ¬ a ≤ x by omega]

/-- Outside the stored bytes a store changes nothing. -/
theorem read_storeBytes_outside (bs : List Byte) (m : Memory) (a x : Nat) (h : Memory.wf m = true)
    (ha : a + bs.length ≤ Config.addressSpace) (hx : x < a ∨ a + bs.length ≤ x) :
    Memory.read (storeBytes m a bs) x = Memory.read m x := by
  rw [read_storeBytes bs m a x h ha]
  split
  · rw [List.getElem?_eq_none (by omega)]
    rfl
  · rfl

@[simp] theorem length_loadBytes : ∀ (n : Nat) (m : Memory) (a : Nat), (loadBytes m a n).length = n
  | 0, _, _ => rfl
  | n + 1, m, a => by simp [loadBytes, length_loadBytes n m (a + 1)]

/-- Byte k of a load is the byte at its address. -/
theorem getElem?_loadBytes : ∀ (n : Nat) (m : Memory) (a k : Nat), k < n →
    (loadBytes m a n)[k]? = some (Memory.read m (a + k))
  | n + 1, m, a, 0, _ => by simp [loadBytes]
  | n + 1, m, a, k + 1, h => by
    rw [loadBytes, List.getElem?_cons_succ, getElem?_loadBytes n m (a + 1) k (by omega)]
    congr 2
    omega

/-- A load gives a list of bytes exactly if each byte stands at its address. -/
theorem loadBytes_eq_iff (m : Memory) (a : Nat) (bs : List Byte) :
    loadBytes m a bs.length = bs ↔ ∀ k, (h : k < bs.length) → Memory.read m (a + k) = bs[k] := by
  constructor
  · intro h k hk
    have := getElem?_loadBytes bs.length m a k hk
    rw [h, List.getElem?_eq_getElem hk] at this
    simpa using this.symm
  · intro h
    apply List.ext_getElem?
    intro k
    by_cases hk : k < bs.length
    · rw [getElem?_loadBytes _ _ _ _ hk, h k hk, List.getElem?_eq_getElem hk]
    · rw [List.getElem?_eq_none (by simp; omega), List.getElem?_eq_none (by omega)]

/-- A load of what a store has just written gives it back. -/
theorem loadBytes_storeBytes (bs : List Byte) (m : Memory) (a : Nat) (h : Memory.wf m = true)
    (ha : a + bs.length ≤ Config.addressSpace) : loadBytes (storeBytes m a bs) a bs.length = bs := by
  rw [loadBytes_eq_iff]
  intro k hk
  rw [read_storeBytes bs m a _ h ha, if_pos (by omega), show a + k - a = k by omega, List.getElem?_eq_getElem hk]
  rfl

/-- Loads agree where the memories do. -/
theorem loadBytes_congr : ∀ (n : Nat) (m m' : Memory) (a : Nat),
    (∀ k, k < n → Memory.read m (a + k) = Memory.read m' (a + k)) → loadBytes m a n = loadBytes m' a n
  | 0, _, _, _, _ => rfl
  | n + 1, m, m', a, h => by
    rw [loadBytes, loadBytes, loadBytes_congr n m m' (a + 1)]
    · have := h 0 (by omega)
      simp only [Nat.add_zero] at this
      rw [this]
    · intro k hk
      have := h (k + 1) (by omega)
      rwa [show a + (k + 1) = a + 1 + k by omega] at this

end Sys2Proof.Machine
end

