-- ==== Sys2Proof/Laws/Pack.lean ====
section
/-!
SUPPORT. PACK and TSTORE: everything a run can answer, said once in the terms of 44_bitpacker_encoder R156 and R172.
-/

namespace Sys2Proof.Machine

/-! ### The stream -/

@[simp] theorem streamBits_nil (s : State) : streamBits s [] = [] := rfl

@[simp] theorem streamBits_append (s : State) (us vs : List Byte) :
    streamBits s (us ++ vs) = streamBits s us ++ streamBits s vs := by simp [streamBits]

@[simp] theorem streamBits_singleton (s : State) (v : Byte) : streamBits s [v] = codeAt s v := by simp [streamBits]

@[simp] theorem length_matrixAt (s : State) : (matrixAt s).length = sampleCount s := by simp [matrixAt]

/-- Sample i of the matrix is the byte at SRC_BASE + i (20_memory R80). -/
theorem getElem?_matrixAt (s : State) (i : Nat) (h : i < sampleCount s) :
    (matrixAt s)[i]? = some (Memory.read s.mem (srcAddr s + i)) := getElem?_loadBytes _ _ _ _ h

/-- The codes of the first k samples of the matrix, one after the other. -/
def packedBits (s : State) (k : Nat) : BitString := streamBits s ((matrixAt s).take k)

@[simp] theorem packedBits_zero (s : State) : packedBits s 0 = [] := by simp [packedBits]

theorem packedBits_succ (s : State) (i : Nat) (h : i < sampleCount s) :
    packedBits s (i + 1) = packedBits s i ++ codeAt s (Memory.read s.mem (srcAddr s + i)) := by
  rw [packedBits, List.take_add_one, getElem?_matrixAt s i h]
  simp [packedBits]

theorem packedBits_all (s : State) (k : Nat) (h : sampleCount s ≤ k) : packedBits s k = streamBits s (matrixAt s) := by
  rw [packedBits, List.take_of_length_le (by simpa using h)]

theorem memRead_of_admitted {s : State} {a : Nat} (h : admitted s.platform a = true) :
    memRead s a = some (Memory.read s.mem a) := by simp [memRead, h]

theorem memRead_of_not_admitted {s : State} {a : Nat} (h : admitted s.platform a = false) : memRead s a = none := by
  simp [memRead, h]

/-! ### PACK -/

/-- Everything `pushBits` can answer: all the bits are appended, or the first byte whose address is not admitted ends the
command with the bytes before it written. -/
theorem pushBits_spec (s : State) (i : Nat) : ∀ (bs : BitString) (c : PackCursor), c.pending.length ≤ 7 →
    (∃ c', pushBits s i c bs = .ok c' ∧
      bitsOfBytes c'.out ++ c'.pending = bitsOfBytes c.out ++ c.pending ++ bs ∧ c'.pending.length ≤ 7 ∧
      ∀ k, c.out.length ≤ k → k < c'.out.length → admitted s.platform (dstAddr s + k) = true) ∨
    (∃ out, pushBits s i c bs =
        .error { error := .busError i (dstAddr s + out.length), wrote := out, read := 0 } ∧
      c.out.length ≤ out.length ∧ bitsOfBytes out <+: bitsOfBytes c.out ++ c.pending ++ bs ∧
      8 * (out.length + 1) ≤ (bitsOfBytes c.out ++ c.pending ++ bs).length ∧
      (∀ k, c.out.length ≤ k → k < out.length → admitted s.platform (dstAddr s + k) = true) ∧
      admitted s.platform (dstAddr s + out.length) = false)
  | [], c, h => .inl ⟨c, rfl, by simp, h, fun k h1 h2 => absurd h1 (by omega)⟩
  | b :: bs, c, h => by
    rw [pushBits, pushBit]
    by_cases h7 : c.pending.length = 7
    · rw [if_pos h7]
      have hbits : bitsOfBytes (c.out ++ [byteOfBits (c.pending ++ [b])]) ++ [] ++ bs
          = bitsOfBytes c.out ++ c.pending ++ b :: bs := by
        simp [bitsOfByte_byteOfBits_of_length (c.pending ++ [b]) (by simp [h7])]
      by_cases hadm : admitted s.platform (dstAddr s + c.out.length) = true
      · rw [if_pos hadm]
        have key := pushBits_spec s i bs { out := c.out ++ [byteOfBits (c.pending ++ [b])], pending := [] } (by simp)
        simp only [hbits, List.length_append, List.length_singleton] at key
        rcases key with ⟨c', h1, h2, h3, h4⟩ | ⟨out, h1, h2, h3, h4, h5, h6⟩
        · refine .inl ⟨c', h1, h2, h3, fun k hk1 hk2 => ?_⟩
          rcases Nat.eq_or_lt_of_le hk1 with rfl | hlt
          · exact hadm
          · exact h4 k hlt hk2
        · refine .inr ⟨out, h1, by omega, h3, by simpa [Nat.add_assoc] using h4, fun k hk1 hk2 => ?_, h6⟩
          rcases Nat.eq_or_lt_of_le hk1 with rfl | hlt
          · exact hadm
          · exact h5 k hlt hk2
      · rw [if_neg hadm]
        refine .inr ⟨c.out, rfl, Nat.le_refl _, ?_, ?_, fun k h1 h2 => absurd h1 (by omega), by simpa using hadm⟩
        · rw [List.append_assoc]
          exact List.prefix_append _ _
        · simp
          omega
    · rw [if_neg h7]
      have key := pushBits_spec s i bs { c with pending := c.pending ++ [b] } (by simp; omega)
      simpa only [List.append_assoc, List.singleton_append] using key

/-- What PACK has done before sample i: the codes of the samples before it stand in the bytes written and the pending bits;
everything it accessed is admitted, and every sample had a code. -/
structure PackedBefore (s : State) (i : Nat) (c : PackCursor) : Prop where
  bits : bitsOfBytes c.out ++ c.pending = packedBits s i
  few : c.pending.length ≤ 7
  room : AllAdmitted s.platform { base := dstAddr s, len := c.out.length }
  sources : AllAdmitted s.platform { base := srcAddr s, len := i }
  coded : ∀ u ∈ (matrixAt s).take i, codeAt s u ≠ []

/-- How a PACK ends early (44_bitpacker_encoder R156): at sample i, with the bytes `out` written. -/
inductive PackStop (s : State) : Nat → Abort → Prop
  /-- Sample i cannot be read. -/
  | badRead (i : Nat) (c : PackCursor) : i < sampleCount s → PackedBefore s i c →
      admitted s.platform (srcAddr s + i) = false →
      PackStop s i { error := .busError i (srcAddr s + i), wrote := c.out, read := 0 }
  /-- Sample i has no code. -/
  | noCode (i : Nat) (c : PackCursor) : i < sampleCount s → PackedBefore s i c →
      admitted s.platform (srcAddr s + i) = true → codeAt s (Memory.read s.mem (srcAddr s + i)) = [] →
      PackStop s i
        { error := .inconsistentCodeTable i (Memory.read s.mem (srcAddr s + i)), wrote := c.out, read := 0 }
  /-- A byte that a bit of sample i completes cannot be written. -/
  | badWrite (i : Nat) (c : PackCursor) (out : List Byte) : i < sampleCount s → PackedBefore s i c →
      admitted s.platform (srcAddr s + i) = true → codeAt s (Memory.read s.mem (srcAddr s + i)) ≠ [] →
      c.out.length ≤ out.length → bitsOfBytes out <+: packedBits s (i + 1) →
      8 * (out.length + 1) ≤ (packedBits s (i + 1)).length →
      AllAdmitted s.platform { base := dstAddr s, len := out.length } →
      admitted s.platform (dstAddr s + out.length) = false →
      PackStop s i { error := .busError i (dstAddr s + out.length), wrote := out, read := 0 }

/-- Everything `packSamples` can answer. -/
theorem packSamples_spec (s : State) : ∀ (n i : Nat) (c : PackCursor), i + n = sampleCount s → PackedBefore s i c →
    (∃ c', packSamples s n i c = .ok c' ∧ PackedBefore s (sampleCount s) c') ∨
    (∃ m a, packSamples s n i c = .error a ∧ PackStop s m a)
  | 0, i, c, h, hc => .inl ⟨c, rfl, by rwa [← h]⟩
  | n + 1, i, c, h, hc => by
    have hi : i < sampleCount s := by omega
    rw [packSamples]
    by_cases hr : admitted s.platform (srcAddr s + i) = true
    · rw [memRead_of_admitted hr]
      by_cases hv : codeAt s (Memory.read s.mem (srcAddr s + i)) = []
      · simp only [if_pos hv]
        exact .inr ⟨i, _, rfl, .noCode i c hi hc hr hv⟩
      · simp only [if_neg hv]
        rcases pushBits_spec s i (codeAt s (Memory.read s.mem (srcAddr s + i))) c hc.few with
          ⟨c', h1, h2, h3, h4⟩ | ⟨out, h1, h2, h3, h4, h5, h6⟩
        · simp only [h1]
          refine packSamples_spec s n (i + 1) c' (by omega) ⟨?_, h3, ?_, ?_, ?_⟩
          · rw [h2, hc.bits, packedBits_succ s i hi]
          · exact (allAdmitted_iff _ _ _).2 fun k hk =>
              if hlt : k < c.out.length then (allAdmitted_iff _ _ _).1 hc.room k hlt else h4 k (by omega) hk
          · exact hc.sources.succ hr
          · intro u hu
            rw [List.take_add_one, getElem?_matrixAt s i hi] at hu
            rcases List.mem_append.mp hu with hu | hu
            · exact hc.coded u hu
            · simp only [Option.toList_some, List.mem_singleton] at hu
              rwa [hu]
        · simp only [h1]
          refine .inr ⟨i, _, rfl, .badWrite i c out hi hc hr hv h2 ?_ ?_ ?_ h6⟩
          · rwa [hc.bits, ← packedBits_succ s i hi] at h3
          · rwa [hc.bits, ← packedBits_succ s i hi] at h4
          · exact (allAdmitted_iff _ _ _).2 fun k hk =>
              if hlt : k < c.out.length then (allAdmitted_iff _ _ _).1 hc.room k hlt else h5 k (by omega) hk
    · rw [memRead_of_not_admitted (by simpa using hr)]
      exact .inr ⟨i, _, rfl, .badRead i c hi hc (by simpa using hr)⟩

/-- Everything `packRun` can answer: the packed stream of the whole matrix; or a stop at a sample; or a last partial byte that
cannot be written, recorded at index N. -/
theorem packRun_spec (s : State) :
    (packRun s = .ok { out := packBytes (streamBits s (matrixAt s)), bits := (streamBits s (matrixAt s)).length } ∧
      AllAdmitted s.platform { base := srcAddr s, len := sampleCount s } ∧ (∀ v ∈ matrixAt s, codeAt s v ≠ []) ∧
      AllAdmitted s.platform { base := dstAddr s, len := bytesFor (streamBits s (matrixAt s)).length }) ∨
    (∃ i a, packRun s = .error a ∧ PackStop s i a) ∨
    (∃ c : PackCursor, packRun s =
        .error { error := .busError (sampleCount s) (dstAddr s + c.out.length), wrote := c.out, read := 0 } ∧
      PackedBefore s (sampleCount s) c ∧ c.pending ≠ [] ∧ admitted s.platform (dstAddr s + c.out.length) = false) := by
  have start : PackedBefore s 0 { out := [], pending := [] } :=
    ⟨by simp, by simp, allAdmitted_zero _ _, allAdmitted_zero _ _, by simp⟩
  rw [packRun]
  rcases packSamples_spec s (sampleCount s) 0 _ (by omega) start with ⟨c, h1, hc⟩ | ⟨m, a, h1, ha⟩
  · simp only [h1]
    have hall : (matrixAt s).take (sampleCount s) = matrixAt s := List.take_of_length_le (by simp)
    have hbits := hc.bits
    rw [packedBits_all s _ (Nat.le_refl _)] at hbits
    have hlen : c.bits = (streamBits s (matrixAt s)).length := by rw [← hbits]; simp [PackCursor.bits]
    have hcoded : ∀ v ∈ matrixAt s, codeAt s v ≠ [] := by rw [← hall]; exact hc.coded
    by_cases hp : c.pending = []
    · rw [if_pos hp]
      refine .inl ⟨?_, hc.sources, hcoded, ?_⟩
      · have hout : c.out = packBytes (streamBits s (matrixAt s)) := by
          rw [eq_packBytes_iff, ← hbits, hp]
          simp [bytesFor_mul]
        rw [hlen, hout]
      · rw [← hbits, hp, List.append_nil, length_bitsOfBytes, bytesFor_mul]
        exact hc.room
    · rw [if_neg hp]
      by_cases hadm : admitted s.platform (dstAddr s + c.out.length) = true
      · rw [if_pos hadm]
        have hfor : bytesFor (streamBits s (matrixAt s)).length = c.out.length + 1 := by
          have := hc.few
          have := List.length_pos_of_ne_nil hp
          rw [← hbits, List.length_append, length_bitsOfBytes, bytesFor]
          omega
        refine .inl ⟨?_, hc.sources, hcoded, ?_⟩
        · have hout : c.out ++ [byteOfBits c.pending] = packBytes (streamBits s (matrixAt s)) := by
            have := hc.few
            rw [eq_packBytes_iff, hfor, bitsOfBytes_append, bitsOfBytes_cons, bitsOfByte_byteOfBits _ (by omega),
              ← hbits, List.length_append, length_bitsOfBytes]
            simp only [bitsOfBytes_nil, List.append_nil, List.append_assoc]
            rw [show 8 * (c.out.length + 1) - (8 * c.out.length + c.pending.length) = 8 - c.pending.length by omega]
          rw [hlen, hout]
        · rw [hfor]
          exact hc.room.succ hadm
      · rw [if_neg hadm]
        exact .inr (.inr ⟨c, rfl, hc, hp, by simpa using hadm⟩)
  · simp only [h1]
    exact .inr (.inl ⟨m, a, rfl, ha⟩)

/-- What PACK writes where: it has written as many bytes as the bits before fill. -/
theorem PackedBefore.length_out {s : State} {i : Nat} {c : PackCursor} (h : PackedBefore s i c) :
    c.out.length = (packedBits s i).length / 8 := by
  have := h.few
  rw [← h.bits, List.length_append, length_bitsOfBytes]
  omega

theorem PackedBefore.bitsOfBytes_out {s : State} {i : Nat} {c : PackCursor} (h : PackedBefore s i c) :
    bitsOfBytes c.out = (packedBits s i).take (8 * ((packedBits s i).length / 8)) := by
  rw [← h.length_out, ← h.bits, List.take_append_of_le_length (by simp), List.take_of_length_le (by simp)]

/-- The stream bits of PACK's write region, where every sample can be read, are those of the whole stream. -/
theorem matrixBits_eq (s : State) : ∀ (n i : Nat), i + n = sampleCount s →
    AllAdmitted s.platform { base := srcAddr s, len := sampleCount s } →
    (packedBits s i).length + matrixBits s n i = (streamBits s (matrixAt s)).length
  | 0, i, h, _ => by rw [matrixBits, packedBits_all s i (by omega)]; rfl
  | n + 1, i, h, ha => by
    rw [matrixBits, memRead_of_admitted (ha (srcAddr s + i) (by simp) (by simp; omega)),
      ← matrixBits_eq s n (i + 1) (by omega) ha, packedBits_succ s i (by omega), List.length_append]
    simp only
    omega

/-- However far PACK gets, the bits it has taken are not more than its write region was computed for. -/
theorem packedBits_le_matrixBits (s : State) : ∀ (n i j : Nat), i + n = sampleCount s → i ≤ j → j ≤ sampleCount s →
    AllAdmitted s.platform { base := srcAddr s, len := j } →
    (packedBits s j).length ≤ (packedBits s i).length + matrixBits s n i
  | 0, i, j, h, h1, h2, _ => by rw [show j = i by omega]; omega
  | n + 1, i, j, h, h1, h2, ha => by
    rcases Nat.eq_or_lt_of_le h1 with rfl | hlt
    · omega
    · have := packedBits_le_matrixBits s n (i + 1) j (by omega) (by omega) h2 ha
      rw [packedBits_succ s i (by omega), List.length_append] at this
      rw [matrixBits, memRead_of_admitted (ha (srcAddr s + i) (by simp) (by simp; omega))]
      simp only
      omega

theorem packedBits_mono {s : State} {i j : Nat} (h : i ≤ j) : packedBits s i <+: packedBits s j := by
  obtain ⟨r, hr⟩ : (matrixAt s).take i <+: (matrixAt s).take j := List.take_prefix_take_left h
  rw [packedBits, packedBits, ← hr, streamBits_append]
  exact List.prefix_append _ _

theorem length_packedBits_mono {s : State} {i j : Nat} (h : i ≤ j) :
    (packedBits s i).length ≤ (packedBits s j).length := (packedBits_mono h).length_le

/-- A sample before the first one without a code has one. -/
theorem codeAt_ne_nil_of_lt {s : State} {i j : Nat} (h : i < j) (hj : j ≤ sampleCount s)
    (hc : ∀ u ∈ (matrixAt s).take j, codeAt s u ≠ []) : codeAt s (Memory.read s.mem (srcAddr s + i)) ≠ [] := by
  refine hc _ (List.mem_of_getElem? (i := i) ?_)
  rw [List.getElem?_take, if_pos h]
  exact getElem?_matrixAt s i (by omega)

/-! ### Storing a region's bytes -/

/-- An admitted region lies inside the address space (20_memory R71, R75). -/
theorem region_in_space {p : Platform} {b : Word} {n : Nat} (h : AllAdmitted p { base := b.toNat, len := n }) :
    b.toNat + n ≤ Config.addressSpace := by
  have hb := b.isLt
  rcases Nat.eq_zero_or_pos n with rfl | hn
  · unfold Config.addressSpace
    omega
  · have := lt_of_admitted ((allAdmitted_iff _ _ _).1 h (n - 1) (by omega))
    unfold Config.addressSpace
    omega

/-- After a store to an admitted region: the bytes stand there, and every other byte reads as before. -/
theorem storeBytes_region {p : Platform} {b : Word} {m : Memory} {bs : List Byte} (hwf : Memory.wf m = true)
    (h : AllAdmitted p { base := b.toNat, len := bs.length }) :
    loadBytes (storeBytes m b.toNat bs) b.toNat bs.length = bs ∧
      Memory.wf (storeBytes m b.toNat bs) = true ∧
      ∀ a, a < b.toNat ∨ b.toNat + bs.length ≤ a →
        Memory.read (storeBytes m b.toNat bs) a = Memory.read m a :=
  ⟨loadBytes_storeBytes _ _ _ hwf (region_in_space h), wf_storeBytes _ _ _ hwf (region_in_space h),
    fun a ha => read_storeBytes_outside _ _ _ a hwf (region_in_space h) ha⟩

/-! ### TSTORE -/

/-- The entries of the serialized table are those of the values with a code (44_bitpacker_encoder R170). -/
theorem zipWith_entryBytes : ∀ (l : List Byte) (f : Byte → BitString),
    (List.zipWith entryBytes l (l.map f)).flatten
      = (l.filter (fun v => f v != [])).flatMap (fun v => v :: BitVec.ofNat 8 (f v).length :: packBytes (f v))
  | [], _ => rfl
  | v :: l, f => by
    simp only [List.map_cons, List.zipWith_cons_cons, List.flatten_cons, zipWith_entryBytes l f, entryBytes]
    by_cases h : f v = [] <;> simp [h]

/-- The serialized table written out (44_bitpacker_encoder R170). -/
theorem serializeTable_eq (codes : Vector BitString 256) :
    serializeTable codes =
      BitVec.ofNat 8 (entryCount codes) :: BitVec.ofNat 8 (entryCount codes / 256) ::
        (allValues.filter (fun v => tabGet codes v != [])).flatMap
          (fun v => v :: BitVec.ofNat 8 (tabGet codes v).length :: packBytes (tabGet codes v)) := by
  rw [serializeTable, toList_eq_map_allValues, zipWith_entryBytes]
  simp only [List.cons_append, List.nil_append]
  congr 1
  apply BitVec.eq_of_toNat_eq
  simp

/-- The length of the serialized table (44_bitpacker_encoder R171). -/
theorem length_serializeTable (codes : Vector BitString 256) :
    (serializeTable codes).length =
      2 + ((allValues.filter (fun v => tabGet codes v != [])).map
        (fun v => 2 + bytesFor (tabGet codes v).length)).sum := by
  rw [serializeTable_eq]
  simp only [List.length_cons, List.length_flatMap, length_packBytes, show ∀ a : Nat, a + 1 + 1 = 2 + a by omega]

/-- The serialized table of codes that fit is at most 8706 bytes (44_bitpacker_encoder R171). -/
theorem length_serializeTable_le {codes : Vector BitString 256} (h : CodesFit codes) :
    (serializeTable codes).length ≤ 8706 := by
  rw [length_serializeTable]
  have h1 : ((allValues.filter (fun v => tabGet codes v != [])).map
      (fun v => 2 + bytesFor (tabGet codes v).length)).sum
      ≤ (allValues.filter (fun v => tabGet codes v != [])).length * 34 := by
    rw [← smul_eq_mul]
    refine le_trans (List.sum_le_card_nsmul _ 34 ?_) (by simp)
    intro x hx
    obtain ⟨v, -, rfl⟩ := List.mem_map.1 hx
    have := h v
    unfold Config.maxLen at this
    unfold bytesFor
    omega
  have h2 := List.length_filter_le (fun v => tabGet codes v != []) allValues
  rw [length_allValues] at h2
  omega

/-- Everything `putBytes` can answer: all the bytes, or those below the first address that is not admitted. -/
theorem putBytes_spec (s : State) : ∀ (bs done : List Byte),
    (putBytes s done bs = .ok (done ++ bs) ∧
      ∀ k, done.length ≤ k → k < done.length + bs.length → admitted s.platform (tableAddr s + k) = true) ∨
    (∃ j, j < bs.length ∧ putBytes s done bs =
        .error { error := .busError (done.length + j) (tableAddr s + (done.length + j)), wrote := done ++ bs.take j,
                 read := 0 } ∧
      (∀ k, done.length ≤ k → k < done.length + j → admitted s.platform (tableAddr s + k) = true) ∧
      admitted s.platform (tableAddr s + (done.length + j)) = false)
  | [], done => .inl ⟨by simp [putBytes], fun k h1 h2 => absurd h1 (by simp at h2; omega)⟩
  | b :: bs, done => by
    rw [putBytes]
    by_cases hadm : admitted s.platform (tableAddr s + done.length) = true
    · rw [if_pos hadm]
      rcases putBytes_spec s bs (done ++ [b]) with ⟨h1, h2⟩ | ⟨j, h0, h1, h2, h3⟩
      · refine .inl ⟨by simpa using h1, fun k hk1 hk2 => ?_⟩
        rcases Nat.eq_or_lt_of_le hk1 with rfl | hlt
        · exact hadm
        · exact h2 k (by simp; omega) (by simp at hk2 ⊢; omega)
      · simp only [List.length_append, List.length_singleton] at h1 h2 h3
        refine .inr ⟨j + 1, by simp; omega, ?_, fun k hk1 hk2 => ?_, ?_⟩
        · rw [h1, show done.length + 1 + j = done.length + (j + 1) by omega]
          simp
        · rcases Nat.eq_or_lt_of_le hk1 with rfl | hlt
          · exact hadm
          · exact h2 k (by omega) (by omega)
        · rwa [show done.length + (j + 1) = done.length + 1 + j by omega]
    · rw [if_neg hadm]
      exact .inr ⟨0, by simp, by simp, fun k h1 h2 => absurd h1 (by omega), by simpa using hadm⟩

/-- Everything `tstoreRun` can answer: the whole table, or its bytes below the first address that is not admitted. -/
theorem tstoreRun_spec (s : State) :
    (tstoreRun s = .ok (serializeTable s.codes) ∧
      AllAdmitted s.platform { base := tableAddr s, len := (serializeTable s.codes).length }) ∨
    (∃ j, j < (serializeTable s.codes).length ∧ tstoreRun s =
        .error { error := .busError j (tableAddr s + j), wrote := (serializeTable s.codes).take j, read := 0 } ∧
      AllAdmitted s.platform { base := tableAddr s, len := j } ∧ admitted s.platform (tableAddr s + j) = false) := by
  rcases putBytes_spec s (serializeTable s.codes) [] with ⟨h1, h2⟩ | ⟨j, h0, h1, h2, h3⟩
  · exact .inl ⟨h1, (allAdmitted_iff _ _ _).2 fun k hk => h2 k (Nat.zero_le k) (by simpa using hk)⟩
  · simp only [List.length_nil, Nat.zero_add, List.nil_append] at h1 h2 h3
    exact .inr ⟨j, h0, h1, (allAdmitted_iff _ _ _).2 fun k hk => h2 k (Nat.zero_le k) hk, h3⟩

end Sys2Proof.Machine
end

