-- ==== Sys2Proof/Laws/Frequency.lean ====
section
/-!
SUPPORT. FREQ: everything `readSamples` can answer, and what counting counts (41_frequency_analyzer R121, R122).
-/

namespace Sys2Proof.Machine

/-- Everything `readSamples` can answer: the samples, or the lowest index whose address is not admitted. -/
theorem readSamples_spec (s : State) : ∀ (n i : Nat),
    (readSamples s n i = .ok (loadBytes s.mem (srcAddr s + i) n) ∧
      AllAdmitted s.platform { base := srcAddr s + i, len := n }) ∨
    (∃ m, m < n ∧ readSamples s n i =
        .error { error := .busError (i + m) (srcAddr s + i + m), wrote := [], read := i + m } ∧
      AllAdmitted s.platform { base := srcAddr s + i, len := m } ∧ admitted s.platform (srcAddr s + i + m) = false)
  | 0, i => .inl ⟨rfl, allAdmitted_zero _ _⟩
  | n + 1, i => by
    rw [readSamples]
    by_cases hr : admitted s.platform (srcAddr s + i) = true
    · simp only [memRead_of_admitted hr]
      have shift : ∀ {m : Nat}, AllAdmitted s.platform { base := srcAddr s + (i + 1), len := m } →
          AllAdmitted s.platform { base := srcAddr s + i, len := m + 1 } := by
        intro m h
        rw [allAdmitted_iff] at h ⊢
        intro k hk
        rcases k with _ | k
        · exact hr
        · rw [show srcAddr s + i + (k + 1) = srcAddr s + (i + 1) + k by omega]
          exact h k (by omega)
      rcases readSamples_spec s n (i + 1) with ⟨h1, h2⟩ | ⟨m, hm, h1, h2, h3⟩
      · refine .inl ⟨?_, shift h2⟩
        rw [h1, loadBytes]
        rfl
      · refine .inr ⟨m + 1, by omega, ?_, shift h2, ?_⟩
        · rw [h1, show i + 1 + m = i + (m + 1) by omega, show srcAddr s + (i + 1) + m = srcAddr s + i + (m + 1) by omega]
        · rwa [show srcAddr s + i + (m + 1) = srcAddr s + (i + 1) + m by omega]
    · simp only [memRead_of_not_admitted (by simpa using hr)]
      exact .inr ⟨0, by omega, rfl, allAdmitted_zero _ _, by simpa using hr⟩

/-- N is below 2^32 (10_state R36). -/
theorem sampleCount_le (s : State) : sampleCount s ≤ 65535 * 65535 := by
  have := s.cfg.width.isLt
  have := s.cfg.height.isLt
  exact Nat.mul_le_mul (by omega) (by omega)

/-- A count of samples fits its 32-bit counter (00_scope R11). -/
theorem count_countSamples {vs : List Byte} (h : vs.length ≤ 65535 * 65535) (v : Byte) :
    (tabGet (countSamples vs) v).toNat = vs.count v := by
  have := List.count_le_length (a := v) (l := vs)
  simp only [countSamples, tabGet_tabOf, BitVec.toNat_ofNat]
  omega

theorem sum_ite_eq_count (u : Byte) (l : List Byte) : (l.map (fun v => if v = u then 1 else 0)).sum = l.count u := by
  induction l with
  | nil => rfl
  | cons v l ih => simp [ih, List.count_cons, Nat.add_comm]

/-- The counts of a list of values sum to its length (41_frequency_analyzer R122). -/
theorem sum_count_allValues (vs : List Byte) : (allValues.map (fun v => vs.count v)).sum = vs.length := by
  induction vs with
  | nil =>
    simp only [List.count_nil]
    rw [List.map_const', List.sum_replicate, smul_zero, List.length_nil]
  | cons u vs ih =>
    have h : (fun v => (u :: vs).count v) = fun v => vs.count v + if v = u then 1 else 0 := by
      funext v
      rw [List.count_cons]
      simp only [beq_iff_eq, eq_comm (a := u)]
    rw [h, List.sum_map_add, ih, sum_ite_eq_count, List.count_eq_one_of_mem nodup_allValues (mem_allValues u),
      List.length_cons]

/-- The sum of all counts after counting a matrix. -/
theorem sum_countSamples {vs : List Byte} (h : vs.length ≤ 65535 * 65535) :
    (allValues.map (fun v => (tabGet (countSamples vs) v).toNat)).sum = vs.length := by
  simp only [count_countSamples h, sum_count_allValues]

end Sys2Proof.Machine
end

