-- ==== Sys2Proof/Laws/Tload.lean ====
section
/-!
SUPPORT. TLOAD: how it reads the entries of a serialized table, and everything a run can answer (45_bitpacker_decoder R176 to
R179).
-/

namespace Sys2Proof.Machine

/-! ### Prefix-freeness -/

theorem noPrefixPairs_iff : ∀ (cs : List BitString),
    noPrefixPairs cs = true ↔ cs.Pairwise (fun c d => ¬ c <+: d ∧ ¬ d <+: c)
  | [] => by simp [noPrefixPairs]
  | c :: cs => by
    rw [noPrefixPairs, Bool.and_eq_true, noPrefixPairs_iff cs, List.pairwise_cons, List.all_eq_true]
    simp [← List.isPrefixOf_iff_prefix]

/-- The check of TLOAD says that the table is prefix-free (45_bitpacker_decoder R176, R180). -/
theorem prefixFree_iff (codes : Vector BitString 256) : prefixFree codes = true ↔ PrefixFreeCodes codes := by
  rw [prefixFree, noPrefixPairs_iff, toList_eq_map_allValues, List.pairwise_filter, List.pairwise_map]
  constructor
  · intro h u v huv hu hv
    let R := fun u v : Byte => u ≠ v → tabGet codes u ≠ [] → tabGet codes v ≠ [] →
      ¬ tabGet codes u <+: tabGet codes v ∧ ¬ tabGet codes v <+: tabGet codes u
    have sym : Std.Symm R := ⟨fun _ _ h' hne a b => (h' hne.symm b a).symm⟩
    have pairs : allValues.Pairwise R := h.imp fun h' _ a b => h' (by simpa using a) (by simpa using b)
    have all := pairs.forall_of_forall (fun _ _ hne => absurd rfl hne)
    exact (all (mem_allValues u) (mem_allValues v) huv hu hv).1
  · intro h
    refine nodup_allValues.imp fun huv a b => ?_
    simp only [Bool.not_eq_true', List.isEmpty_eq_false_iff] at a b
    exact ⟨h _ _ huv a b, h _ _ huv.symm b a⟩

/-! ### Bytes of the table -/

theorem tableByte_of_admitted {s : State} {off : Nat} (h : admitted s.platform (tableAddr s + off) = true) :
    tableByte s off = .ok (Memory.read s.mem (tableAddr s + off)) := by
  rw [tableByte, memRead_of_admitted h]

/-- The BUS_ERROR of TLOAD at a byte offset (45_bitpacker_decoder R176). -/
def tableBusError (s : State) (off : Nat) : Abort :=
  { error := .busError off (tableAddr s + off), wrote := [], read := off }

theorem tableByte_of_not_admitted {s : State} {off : Nat} (h : admitted s.platform (tableAddr s + off) = false) :
    tableByte s off = .error (tableBusError s off) := by
  rw [tableByte, memRead_of_not_admitted h]
  rfl

/-- Bytes stand in the table from an offset on, and their addresses are admitted. -/
def TableHas (s : State) (off : Nat) (bs : List Byte) : Prop :=
  loadBytes s.mem (tableAddr s + off) bs.length = bs ∧
    AllAdmitted s.platform { base := tableAddr s + off, len := bs.length }

theorem tableHas_nil (s : State) (off : Nat) : TableHas s off [] := ⟨rfl, allAdmitted_zero _ _⟩

theorem tableHas_cons {s : State} {off : Nat} {b : Byte} {bs : List Byte} :
    TableHas s off (b :: bs) ↔
      (admitted s.platform (tableAddr s + off) = true ∧ Memory.read s.mem (tableAddr s + off) = b) ∧
        TableHas s (off + 1) bs := by
  rw [TableHas, TableHas, List.length_cons, loadBytes, List.cons.injEq, allAdmitted_iff, allAdmitted_iff, Nat.add_assoc]
  constructor
  · rintro ⟨⟨h1, h2⟩, h3⟩
    refine ⟨⟨h3 0 (by omega), h1⟩, h2, fun k hk => ?_⟩
    rw [show tableAddr s + (off + 1) + k = tableAddr s + off + (k + 1) by omega]
    exact h3 (k + 1) (by omega)
  · rintro ⟨⟨h1, h2⟩, h3, h4⟩
    refine ⟨⟨h2, h3⟩, fun k hk => ?_⟩
    rcases k with _ | k
    · exact h1
    · rw [show tableAddr s + off + (k + 1) = tableAddr s + (off + 1) + k by omega]
      exact h4 k (by omega)

theorem tableHas_append {s : State} : ∀ {as bs : List Byte} {off : Nat},
    TableHas s off (as ++ bs) ↔ TableHas s off as ∧ TableHas s (off + as.length) bs
  | [], bs, off => by simp [tableHas_nil]
  | a :: as, bs, off => by
    rw [List.cons_append, tableHas_cons, tableHas_cons, tableHas_append, List.length_cons, Nat.add_assoc,
      Nat.add_comm 1, and_assoc, and_assoc, and_assoc]

theorem TableHas.byte {s : State} {off : Nat} {b : Byte} {bs : List Byte} (h : TableHas s off (b :: bs)) :
    tableByte s off = .ok b := by
  obtain ⟨⟨h1, h2⟩, -⟩ := tableHas_cons.1 h
  rw [tableByte_of_admitted h1, h2]

/-! ### The bits of one entry -/

theorem any_id_drop {bits : BitString} {n : Nat} :
    ((bits.drop n).any id = true) ↔ ∃ q, n ≤ q ∧ bits[q]? = some true := by
  rw [List.any_eq_true]
  constructor
  · rintro ⟨x, hx, h⟩
    obtain ⟨k, hk⟩ := List.mem_iff_getElem?.1 hx
    rw [List.getElem?_drop] at hk
    simp only [id_eq] at h
    exact ⟨n + k, by omega, by rw [hk, h]⟩
  · rintro ⟨q, hq, h⟩
    refine ⟨true, List.mem_iff_getElem?.2 ⟨q - n, ?_⟩, rfl⟩
    rw [List.getElem?_drop, Nat.add_sub_cancel' hq, h]

/-- Everything `loadBits` can answer: the code bits, with every padding bit 0; a padding bit that is 1; or a byte that
cannot be read. -/
theorem loadBits_spec (s : State) (e : Nat) : ∀ (n left off : Nat),
    (∃ bs, bs.length = n ∧ TableHas s off bs ∧ (∀ q, left ≤ q → (bitsOfBytes bs)[q]? ≠ some true) ∧
      loadBits s e n left off = .ok ((bitsOfBytes bs).take left, off + n)) ∨
    (∃ bs, bs.length ≤ n ∧ TableHas s off bs ∧ (∃ q, left ≤ q ∧ (bitsOfBytes bs)[q]? = some true) ∧
      loadBits s e n left off = .error (tableCorrupt 4 e (off + bs.length))) ∨
    (∃ bs, bs.length < n ∧ TableHas s off bs ∧ (∀ q, left ≤ q → (bitsOfBytes bs)[q]? ≠ some true) ∧
      admitted s.platform (tableAddr s + (off + bs.length)) = false ∧
      loadBits s e n left off = .error (tableBusError s (off + bs.length)))
  | 0, left, off => .inl ⟨[], rfl, tableHas_nil s off, by simp, by simp [loadBits]⟩
  | n + 1, left, off => by
    rw [loadBits]
    by_cases hadm : admitted s.platform (tableAddr s + off) = true
    · rw [tableByte_of_admitted hadm]
      simp only
      have one : ∀ {bs : List Byte}, TableHas s (off + 1) bs →
          TableHas s off (Memory.read s.mem (tableAddr s + off) :: bs) :=
        fun h => tableHas_cons.2 ⟨⟨hadm, rfl⟩, h⟩
      by_cases hpad : ((bitsOfByte (Memory.read s.mem (tableAddr s + off))).drop left).any id = true
      · rw [if_pos hpad]
        obtain ⟨q, hq1, hq2⟩ := any_id_drop.1 hpad
        refine .inr (.inl ⟨[Memory.read s.mem (tableAddr s + off)], by simp, one (tableHas_nil _ _), ⟨q, hq1, ?_⟩, rfl⟩)
        rw [bitsOfBytes_cons, bitsOfBytes_nil, List.append_nil]
        exact hq2
      · rw [if_neg hpad]
        have good : ∀ {bs : List Byte}, (∀ q, left - 8 ≤ q → (bitsOfBytes bs)[q]? ≠ some true) → ∀ q, left ≤ q →
            (bitsOfBytes (Memory.read s.mem (tableAddr s + off) :: bs))[q]? ≠ some true := by
          intro bs h q hq
          rw [bitsOfBytes_cons]
          by_cases h8 : q < 8
          · rw [List.getElem?_append_left (by simpa using h8)]
            exact fun h' => hpad (any_id_drop.2 ⟨q, hq, h'⟩)
          · rw [List.getElem?_append_right (by simp; omega)]
            exact h _ (by simp; omega)
        rcases loadBits_spec s e n (left - 8) (off + 1) with
          ⟨bs, h1, h2, h3, h4⟩ | ⟨bs, h1, h2, ⟨q, hq1, hq2⟩, h4⟩ | ⟨bs, h1, h2, h3, h4, h5⟩
        · refine .inl ⟨_ :: bs, by simp [h1], one h2, good h3, ?_⟩
          simp only [h4]
          rw [bitsOfBytes_cons, List.take_append, length_bitsOfByte, Nat.add_assoc, Nat.add_comm 1 n]
        · refine .inr (.inl ⟨_ :: bs, by simpa using h1, one h2, ⟨q + 8, by omega, ?_⟩, ?_⟩)
          · rw [bitsOfBytes_cons, List.getElem?_append_right (by simp), length_bitsOfByte, Nat.add_sub_cancel, hq2]
          · simp only [h4]
            rw [List.length_cons, Nat.add_assoc, Nat.add_comm 1]
        · refine .inr (.inr ⟨_ :: bs, by simpa using h1, one h2, good h3, ?_, ?_⟩)
          · rw [List.length_cons, show off + (bs.length + 1) = off + 1 + bs.length by omega]
            exact h4
          · simp only [h5]
            rw [List.length_cons, Nat.add_assoc, Nat.add_comm 1]
    · rw [tableByte_of_not_admitted (by simpa using hadm)]
      exact .inr (.inr ⟨[], by simp, tableHas_nil _ _, by simp, by simpa using hadm, rfl⟩)

/-! ### Entries -/

/-- The bytes of a list of entries (44_bitpacker_encoder R170). -/
def entriesBytes (es : List (Byte × BitString)) : List Byte :=
  es.flatMap (fun e => e.1 :: BitVec.ofNat 8 e.2.length :: packBytes e.2)

@[simp] theorem entriesBytes_nil : entriesBytes [] = [] := rfl

@[simp] theorem entriesBytes_cons (e : Byte × BitString) (es : List (Byte × BitString)) :
    entriesBytes (e :: es) = e.1 :: BitVec.ofNat 8 e.2.length :: packBytes e.2 ++ entriesBytes es := rfl

/-- The values of the entries rise from a bound on (45_bitpacker_decoder R176). -/
def AscendingFrom : Nat → List (Byte × BitString) → Prop
  | _, [] => True
  | low, e :: es => low ≤ e.1.toNat ∧ AscendingFrom (e.1.toNat + 1) es

/-- The least value that may follow a list of entries. -/
def lowAfter : Nat → List (Byte × BitString) → Nat
  | low, [] => low
  | _, e :: es => lowAfter (e.1.toNat + 1) es

/-- Every code of the entries has 1 to 255 bits. -/
def EntriesFit (es : List (Byte × BitString)) : Prop := ∀ e ∈ es, e.2 ≠ [] ∧ e.2.length ≤ 255

/-- Of two byte sequences that stand at one offset the shorter begins the longer. -/
theorem tableHas_prefix {s : State} {off : Nat} {as bs : List Byte} (h1 : TableHas s off as) (h2 : TableHas s off bs)
    (hl : as.length ≤ bs.length) : as <+: bs := by
  refine List.prefix_iff_eq_take.2 (List.ext_getElem? fun k => ?_)
  rw [List.getElem?_take]
  split
  · rename_i hk
    rw [← h1.1, ← h2.1, getElem?_loadBytes _ _ _ _ hk, getElem?_loadBytes _ _ _ _ (by omega)]
  · exact List.getElem?_eq_none (by omega)

/-- The padding of a packed code is 0. -/
theorem packBytes_padding (c : BitString) (q : Nat) (hq : c.length ≤ q) :
    (bitsOfBytes (packBytes c))[q]? ≠ some true := by
  rw [bitsOfBytes_packBytes, List.getElem?_append_right hq, List.getElem?_replicate]
  split <;> simp

/-- One entry's code is read. -/
theorem loadBits_entry (s : State) (e : Nat) (c : BitString) (off : Nat) (h : TableHas s off (packBytes c)) :
    loadBits s e (bytesFor c.length) c.length off = .ok (c, off + bytesFor c.length) := by
  rcases loadBits_spec s e (bytesFor c.length) c.length off with
    ⟨bs, h1, h2, -, h4⟩ | ⟨bs, h1, h2, ⟨q, hq1, hq2⟩, -⟩ | ⟨bs, h1, h2, -, h4, -⟩
  · have heq : bs = packBytes c := (tableHas_prefix h2 h (by simp [h1])).eq_of_length (by simp [h1])
    rw [h4, heq, bitsOfBytes_packBytes, List.take_left]
  · obtain ⟨r, hr⟩ := tableHas_prefix h2 h (by simpa using h1)
    exfalso
    refine packBytes_padding c q hq1 ?_
    obtain ⟨hlt, -⟩ := List.getElem?_eq_some_iff.1 hq2
    rw [← hr, bitsOfBytes_append, List.getElem?_append_left hlt, hq2]
  · have := (allAdmitted_iff _ _ _).1 h.2 bs.length (by simpa using h1)
    rw [Nat.add_assoc, h4] at this
    cases this

/-- Of the bytes of a code the first m stand there, and the next cannot be read. -/
theorem loadBits_cut (s : State) (e : Nat) (c : BitString) (off m : Nat) (h : TableHas s off ((packBytes c).take m))
    (hm : m < (packBytes c).length) (hbad : admitted s.platform (tableAddr s + (off + m)) = false) :
    loadBits s e (bytesFor c.length) c.length off = .error (tableBusError s (off + m)) := by
  have hlen : ((packBytes c).take m).length = m := by
    rw [List.length_take]
    omega
  have short : ∀ {bs : List Byte}, TableHas s off bs → bs.length ≤ m := by
    intro bs hb
    by_contra hlt
    have := (allAdmitted_iff _ _ _).1 hb.2 m (by omega)
    rw [Nat.add_assoc, hbad] at this
    cases this
  rcases loadBits_spec s e (bytesFor c.length) c.length off with
    ⟨bs, h1, h2, -, -⟩ | ⟨bs, -, h2, ⟨q, hq1, hq2⟩, -⟩ | ⟨bs, h1, h2, -, h4, h5⟩
  · have := short h2
    rw [length_packBytes] at hm
    omega
  · exfalso
    obtain ⟨r, hr⟩ := (tableHas_prefix h2 h (by rw [hlen]; exact short h2)).trans (List.take_prefix m _)
    refine packBytes_padding c q hq1 ?_
    obtain ⟨hlt, -⟩ := List.getElem?_eq_some_iff.1 hq2
    rw [← hr, bitsOfBytes_append, List.getElem?_append_left hlt, hq2]
  · have hle := short h2
    rcases Nat.eq_or_lt_of_le hle with heq | hlt
    · rw [h5, heq]
    · have := (allAdmitted_iff _ _ _).1 h.2 bs.length (by rw [hlen]; exact hlt)
      rw [Nat.add_assoc, h4] at this
      cases this

/-- Of the bytes of the entries the first m stand there, and the next cannot be read. -/
theorem loadEntries_cut (s : State) : ∀ (es : List (Byte × BitString)) (m n e off low : Nat) (t : Vector BitString 256),
    TableHas s off ((entriesBytes es).take m) → m < (entriesBytes es).length →
    admitted s.platform (tableAddr s + (off + m)) = false → AscendingFrom low es → EntriesFit es →
    loadEntries s (n + es.length) e off low t = .error (tableBusError s (off + m))
  | [], _, _, _, _, _, _, _, hm, _, _, _ => absurd hm (Nat.not_lt_zero _)
  | (v, c) :: es, m, n, e, off, low, t, h, hm, hbad, hasc, hfit => by
    obtain ⟨hne, hlen⟩ := hfit (v, c) (by simp)
    simp only at hne hlen
    have hnat : (BitVec.ofNat 8 c.length).toNat = c.length := by
      rw [BitVec.toNat_ofNat]
      omega
    have hl0 : BitVec.ofNat 8 c.length ≠ 0#8 := by
      intro h0
      have h1 := congrArg BitVec.toNat h0
      rw [hnat] at h1
      exact hne (List.eq_nil_of_length_eq_zero h1)
    have hlow : ¬ v.toNat < low := Nat.not_lt.2 hasc.1
    rw [entriesBytes_cons, List.cons_append, List.cons_append] at h hm
    dsimp only at h hm
    rw [List.length_cons, ← Nat.add_assoc, loadEntries]
    match m, h, hm, hbad with
    | 0, _, _, hbad =>
      rw [show tableByte s off = .error (tableBusError s off) from tableByte_of_not_admitted hbad]
      rfl
    | 1, h, _, hbad =>
      rw [h.byte]
      simp only [if_neg hlow]
      rw [tableByte_of_not_admitted hbad]
    | m + 2, h, hm, hbad =>
      rw [List.take_succ_cons, List.take_succ_cons] at h
      have h' := (tableHas_cons.1 h).2
      have h'' := (tableHas_cons.1 h').2
      rw [h.byte]
      simp only [if_neg hlow, h'.byte, if_neg hl0, hnat]
      simp only [List.length_cons, List.length_append] at hm
      by_cases hcut : m < (packBytes c).length
      · rw [List.take_append_of_le_length (by omega)] at h''
        have := loadBits_cut s e c (off + 1 + 1) m h'' hcut (by rwa [show off + 1 + 1 + m = off + (m + 2) by omega])
        simp only [this]
        rw [show off + 1 + 1 + m = off + (m + 2) by omega]
      · rw [List.take_append, List.take_of_length_le (by omega)] at h''
        obtain ⟨hb, hrest⟩ := tableHas_append.1 h''
        simp only [loadBits_entry s e c (off + 1 + 1) hb]
        rw [length_packBytes] at hrest hcut hm
        rw [loadEntries_cut s es (m - bytesFor c.length) n (e + 1) (off + 1 + 1 + bytesFor c.length) (v.toNat + 1)
          (tabSet t v c) hrest (by omega)
          (by rwa [show off + 1 + 1 + bytesFor c.length + (m - bytesFor c.length) = off + (m + 2) by omega]) hasc.2
          (fun x hx => hfit x (by simp [hx])),
          show off + 1 + 1 + bytesFor c.length + (m - bytesFor c.length) = off + (m + 2) by omega]

/-- The entries that stand in the table are read, and the reading goes on after them. -/
theorem loadEntries_skip (s : State) : ∀ (es : List (Byte × BitString)) (n e off low : Nat) (t : Vector BitString 256),
    TableHas s off (entriesBytes es) → AscendingFrom low es → EntriesFit es →
    loadEntries s (n + es.length) e off low t =
      loadEntries s n (e + es.length) (off + (entriesBytes es).length) (lowAfter low es) (setAll t es)
  | [], n, e, off, low, t, _, _, _ => rfl
  | (v, c) :: es, n, e, off, low, t, h, hasc, hfit => by
    rw [entriesBytes_cons, List.cons_append, List.cons_append] at h
    obtain ⟨hne, hlen⟩ := hfit (v, c) (by simp)
    simp only at hne hlen
    have hv := h.byte
    have h' := (tableHas_cons.1 h).2
    have hl := h'.byte
    have h'' := (tableHas_cons.1 h').2
    obtain ⟨hb, hrest⟩ := tableHas_append.1 h''
    have hnat : (BitVec.ofNat 8 c.length).toNat = c.length := by
      rw [BitVec.toNat_ofNat]
      omega
    have hl0 : BitVec.ofNat 8 c.length ≠ 0#8 := by
      intro h0
      have h1 := congrArg BitVec.toNat h0
      rw [hnat] at h1
      exact hne (List.eq_nil_of_length_eq_zero h1)
    have hlow : ¬ v.toNat < low := by
      have := hasc.1
      simp only at this
      omega
    rw [List.length_cons, ← Nat.add_assoc, loadEntries, hv]
    simp only [if_neg hlow, hl, if_neg hl0, hnat, loadBits_entry s e c (off + 1 + 1) hb]
    rw [loadEntries_skip s es n (e + 1) (off + 1 + 1 + bytesFor c.length) (v.toNat + 1) (tabSet t v c)
      (by simpa using hrest) hasc.2 (fun x hx => hfit x (by simp [hx]))]
    rw [lowAfter, setAll, setAll, List.foldl_cons]
    congr 1
    · omega
    · simp only [entriesBytes_cons, List.length_append, List.length_cons, length_packBytes]
      omega

/-- Everything `loadEntries` can answer: the entries that stand there; one that is out of range, of length 0 or with a
padding bit, after the good ones; or a byte that cannot be read. -/
theorem loadEntries_spec (s : State) : ∀ (n e off low : Nat) (t : Vector BitString 256),
    (∃ es, es.length = n ∧ TableHas s off (entriesBytes es) ∧ AscendingFrom low es ∧ EntriesFit es ∧
      loadEntries s n e off low t = .ok (setAll t es, off + (entriesBytes es).length)) ∨
    (∃ sub j r, (2 ≤ sub ∧ sub ≤ 4 ∧ e ≤ j ∧ j < e + n) ∧ loadEntries s n e off low t = .error (tableCorrupt sub j r) ∧
      off < r ∧ AllAdmitted s.platform { base := tableAddr s + off, len := r - off }) ∨
    (∃ r, (off ≤ r ∧ r < off + 34 * n) ∧ admitted s.platform (tableAddr s + r) = false ∧
      loadEntries s n e off low t = .error (tableBusError s r) ∧
      AllAdmitted s.platform { base := tableAddr s + off, len := r - off })
  | 0, e, off, low, t => .inl ⟨[], rfl, tableHas_nil _ _, trivial, fun x (hx : x ∈ []) => absurd hx List.not_mem_nil, rfl⟩
  | n + 1, e, off, low, t => by
    have grow : ∀ {bs : List Byte} {r : Nat}, TableHas s off bs → off + bs.length ≤ r →
        AllAdmitted s.platform { base := tableAddr s + (off + bs.length), len := r - (off + bs.length) } →
        AllAdmitted s.platform { base := tableAddr s + off, len := r - off } := by
      intro bs r h1 hr h2
      rw [allAdmitted_iff] at h2 ⊢
      intro k hk
      by_cases hlt : k < bs.length
      · exact (allAdmitted_iff _ _ _).1 h1.2 k hlt
      · have := h2 (k - bs.length) (by omega)
        rwa [show tableAddr s + (off + bs.length) + (k - bs.length) = tableAddr s + off + k by omega] at this
    have exact_ : ∀ {bs : List Byte}, TableHas s off bs →
        AllAdmitted s.platform { base := tableAddr s + off, len := off + bs.length - off } :=
      fun h => by rw [Nat.add_sub_cancel_left]; exact h.2
    rw [loadEntries]
    by_cases h1 : admitted s.platform (tableAddr s + off) = true
    · rw [tableByte_of_admitted h1]
      generalize hv : Memory.read s.mem (tableAddr s + off) = v
      have t1 : TableHas s off [v] := tableHas_cons.2 ⟨⟨h1, hv⟩, tableHas_nil _ _⟩
      simp only
      by_cases hlow : v.toNat < low
      · rw [if_pos hlow]
        exact .inr (.inl ⟨2, e, off + 1, by omega, rfl, by omega, exact_ t1⟩)
      · rw [if_neg hlow]
        by_cases h2 : admitted s.platform (tableAddr s + (off + 1)) = true
        · rw [tableByte_of_admitted h2]
          generalize hl : Memory.read s.mem (tableAddr s + (off + 1)) = l
          have t2 : TableHas s off [v, l] :=
            tableHas_cons.2 ⟨⟨h1, hv⟩, tableHas_cons.2 ⟨⟨h2, hl⟩, tableHas_nil _ _⟩⟩
          simp only
          by_cases hl0 : l = 0#8
          · rw [if_pos hl0]
            exact .inr (.inl ⟨3, e, off + 2, by omega, rfl, by omega, exact_ t2⟩)
          · rw [if_neg hl0]
            have hpos : 0 < l.toNat := Nat.pos_of_ne_zero fun h0 => hl0 (BitVec.eq_of_toNat_eq (by simpa using h0))
            have hshort : bytesFor l.toNat ≤ 32 := by
              have := l.isLt
              simp only [bytesFor]
              omega
            have t3 : ∀ {bs : List Byte}, TableHas s (off + 2) bs → TableHas s off (v :: l :: bs) :=
              fun h => tableHas_append.2 ⟨t2, h⟩
            rcases loadBits_spec s e (bytesFor l.toNat) l.toNat (off + 2) with
              ⟨bs, hb1, hb2, hb3, hb4⟩ | ⟨bs, hb1, hb2, hb3, hb4⟩ | ⟨bs, hb1, hb2, hb3, hb4, hb5⟩
            · simp only [hb4]
              have hll : l.toNat ≤ (bitsOfBytes bs).length := by
                rw [length_bitsOfBytes, hb1]
                exact le_bytesFor _
              have hclen : ((bitsOfBytes bs).take l.toNat).length = l.toNat := by
                rw [List.length_take]
                omega
              have hpack : packBytes ((bitsOfBytes bs).take l.toNat) = bs := by
                symm
                rw [eq_packBytes_iff, hclen]
                conv_lhs => rw [← List.take_append_drop l.toNat (bitsOfBytes bs)]
                congr 1
                rw [List.eq_replicate_iff, List.length_drop, length_bitsOfBytes, hb1]
                refine ⟨rfl, fun b hb => ?_⟩
                cases hbt : b
                · rfl
                · subst hbt
                  obtain ⟨q, hq1, hq2⟩ := any_id_drop.1 (List.any_eq_true.2 ⟨true, hb, rfl⟩)
                  exact absurd hq2 (hb3 q hq1)
              have hbytes : TableHas s off (v :: l :: bs) := t3 hb2
              rcases loadEntries_spec s n (e + 1) (off + 2 + bytesFor l.toNat) (v.toNat + 1)
                  (tabSet t v ((bitsOfBytes bs).take l.toNat)) with
                ⟨es, k1, k2, k3, k4, k5⟩ | ⟨sub, j, r, k1, k3, k4, k5⟩ | ⟨r, k1, k2, k3, k4⟩
              · refine .inl ⟨(v, (bitsOfBytes bs).take l.toNat) :: es, by simp [k1], ?_, ⟨Nat.le_of_not_lt hlow, k3⟩, ?_, ?_⟩
                · rw [entriesBytes_cons, hclen, hpack, BitVec.ofNat_toNat, BitVec.setWidth_eq]
                  refine tableHas_append.2 ⟨hbytes, ?_⟩
                  rw [List.length_cons, List.length_cons, hb1,
                    show off + (bytesFor l.toNat + 1 + 1) = off + 2 + bytesFor l.toNat by omega]
                  exact k2
                · intro x hx
                  rcases List.mem_cons.1 hx with rfl | hx
                  · refine ⟨fun h0 => ?_, by have := l.isLt; simp only [hclen]; omega⟩
                    simp only at h0
                    rw [h0] at hclen
                    simp only [List.length_nil] at hclen
                    omega
                  · exact k4 x hx
                · rw [k5, entriesBytes_cons]
                  simp only [List.length_append, List.length_cons, length_packBytes, hclen, setAll, List.foldl_cons]
                  congr 2
                  omega
              · refine .inr (.inl ⟨sub, j, r, by omega, k3, by omega, grow hbytes ?_ ?_⟩)
                · simp only [List.length_cons, hb1]
                  omega
                · simp only [List.length_cons, hb1]
                  rwa [show off + (bytesFor l.toNat + 1 + 1) = off + 2 + bytesFor l.toNat by omega]
              · refine .inr (.inr ⟨r, by omega, k2, k3, grow hbytes ?_ ?_⟩)
                · simp only [List.length_cons, hb1]
                  omega
                · simp only [List.length_cons, hb1]
                  rwa [show off + (bytesFor l.toNat + 1 + 1) = off + 2 + bytesFor l.toNat by omega]
            · simp only [hb4]
              refine .inr (.inl ⟨4, e, off + 2 + bs.length, by omega, rfl, by omega, ?_⟩)
              rw [show off + 2 + bs.length = off + (v :: l :: bs).length by simp; omega]
              exact exact_ (t3 hb2)
            · simp only [hb5]
              refine .inr (.inr ⟨off + 2 + bs.length, by omega, hb4, rfl, ?_⟩)
              rw [show off + 2 + bs.length = off + (v :: l :: bs).length by simp; omega]
              exact exact_ (t3 hb2)
        · rw [tableByte_of_not_admitted (by simpa using h2)]
          exact .inr (.inr ⟨off + 1, by omega, by simpa using h2, rfl, exact_ t1⟩)
    · rw [tableByte_of_not_admitted (by simpa using h1)]
      exact .inr (.inr ⟨off, by omega, by simpa using h1, rfl, by rw [Nat.sub_self]; exact allAdmitted_zero _ _⟩)

/-! ### The whole table -/

theorem AscendingFrom.pairwise : ∀ {es : List (Byte × BitString)} {low : Nat}, AscendingFrom low es →
    (es.map Prod.fst).Pairwise (· < ·) ∧ ∀ v ∈ es.map Prod.fst, low ≤ v.toNat
  | [], _, _ => by simp
  | e :: es, low, ⟨h1, h2⟩ => by
    obtain ⟨h3, h4⟩ := h2.pairwise
    rw [List.map_cons, List.pairwise_cons]
    refine ⟨⟨fun v hv => ?_, h3⟩, fun v hv => ?_⟩
    · have := h4 v hv
      rw [BitVec.lt_def]
      omega
    · rcases List.mem_cons.1 hv with rfl | hv
      · exact h1
      · have := h4 v hv
        omega

theorem AscendingFrom.nodup {es : List (Byte × BitString)} {low : Nat} (h : AscendingFrom low es) :
    (es.map Prod.fst).Nodup :=
  h.pairwise.1.imp fun hlt he => by
    rw [he, BitVec.lt_def] at hlt
    omega

theorem ascendingFrom_of_pairwise : ∀ {es : List (Byte × BitString)} {low : Nat},
    (es.map Prod.fst).Pairwise (· < ·) → (∀ v ∈ es.map Prod.fst, low ≤ v.toNat) → AscendingFrom low es
  | [], _, _, _ => trivial
  | e :: es, low, h1, h2 => by
    rw [List.map_cons, List.pairwise_cons] at h1
    refine ⟨h2 e.1 (by simp), ascendingFrom_of_pairwise h1.2 fun v hv => ?_⟩
    have := h1.1 v hv
    rw [BitVec.lt_def] at this
    omega

theorem ascendingFrom_entriesOf (codes : Vector BitString 256) : AscendingFrom 0 (entriesOf codes) :=
  ascendingFrom_of_pairwise (by rw [fst_entriesOf]; exact pairwise_allValues.filter _) fun _ _ => Nat.zero_le _

theorem entriesFit_entriesOf {codes : Vector BitString 256} (h : CodesFit codes) : EntriesFit (entriesOf codes) := by
  intro e he
  obtain ⟨v, hv, rfl⟩ := List.mem_map.1 he
  exact ⟨by simpa using (List.mem_filter.1 hv).2, h v⟩

/-- The table of entries that fit has codes that fit. -/
theorem codesFit_setAll {es : List (Byte × BitString)} (h : EntriesFit es) :
    CodesFit (setAll noCodes es) := by
  intro v
  rcases tabGet_setAll_noCodes es v with ⟨e, he, -, hv⟩ | ⟨-, hv⟩
  · rw [hv]
    exact (h e he).2
  · rw [hv]
    exact Nat.zero_le _

/-- The serialized table is the count and the entries (44_bitpacker_encoder R170). -/
theorem serializeTable_eq_entries (codes : Vector BitString 256) :
    serializeTable codes = BitVec.ofNat 8 (entryCount codes) :: BitVec.ofNat 8 (entryCount codes / 256) ::
      entriesBytes (entriesOf codes) := by
  rw [serializeTable_eq, entriesBytes, entriesOf, List.flatMap_map]

/-- The count that the first two bytes of a table give (20_memory R82). -/
def countOf (lo hi : Byte) : Nat := lo.toNat + 256 * hi.toNat

theorem countOf_ofNat {k : Nat} (h : k ≤ 256) : countOf (BitVec.ofNat 8 k) (BitVec.ofNat 8 (k / 256)) = k := by
  simp only [countOf, BitVec.toNat_ofNat]
  omega

/-- A table's count and then its good entries are read; what is left is read after them. -/
theorem tloadRun_skip (s : State) (lo hi : Byte) (es : List (Byte × BitString)) (h : TableHas s 0 (lo :: hi :: entriesBytes es))
    (hk : countOf lo hi ≤ 256) (hes : es.length ≤ countOf lo hi) (hasc : AscendingFrom 0 es) (hfit : EntriesFit es) :
    tloadRun s =
      match loadEntries s (countOf lo hi - es.length) es.length (2 + (entriesBytes es).length) (lowAfter 0 es)
          (setAll noCodes es) with
      | .error a => .error a
      | .ok (t, off) =>
        if prefixFree t then .ok { codes := t, entries := countOf lo hi, bytes := off }
        else .error (tableCorrupt 5 (countOf lo hi) off) := by
  have h1 := h.byte
  have h' := (tableHas_cons.1 h).2
  have h2 := h'.byte
  have h'' := (tableHas_cons.1 h').2
  rw [tloadRun, h1]
  simp only [h2]
  rw [if_neg (show ¬ 256 < lo.toNat + 256 * hi.toNat by rw [countOf] at hk; omega)]
  have := loadEntries_skip s es (countOf lo hi - es.length) 0 2 0 noCodes h'' hasc hfit
  rw [Nat.sub_add_cancel hes, Nat.zero_add] at this
  rw [← this]
  rfl

/-- A well-formed prefix-free table that stands at TABLE_BASE is loaded. -/
theorem tloadRun_serialized {s : State} {codes : Vector BitString 256} (hpf : PrefixFreeCodes codes)
    (hf : CodesFit codes) (h : TableHas s 0 (serializeTable codes)) :
    tloadRun s = .ok
      { codes := codes, entries := entryCount codes, bytes := (serializeTable codes).length } := by
  have hk := countOf_ofNat (entryCount_le codes)
  rw [serializeTable_eq_entries] at h ⊢
  rw [tloadRun_skip s _ _ (entriesOf codes) h (by rw [hk]; exact entryCount_le codes)
    (by rw [hk, length_entriesOf]) (ascendingFrom_entriesOf codes) (entriesFit_entriesOf hf), hk, length_entriesOf,
    Nat.sub_self]
  simp only [loadEntries, setAll_entriesOf, (prefixFree_iff codes).2 hpf, if_true, List.length_cons]
  congr 2
  omega

/-- Of a well-formed table the first j bytes stand at TABLE_BASE, and the next cannot be read. -/
theorem tloadRun_cut {s : State} {codes : Vector BitString 256} {j : Nat} (hf : CodesFit codes)
    (hj : j < (serializeTable codes).length) (h : TableHas s 0 ((serializeTable codes).take j))
    (hbad : admitted s.platform (tableAddr s + j) = false) : tloadRun s = .error (tableBusError s j) := by
  have hk := countOf_ofNat (entryCount_le codes)
  rw [serializeTable_eq_entries] at h hj
  rw [tloadRun]
  match j, h, hj, hbad with
  | 0, _, _, hbad => rw [show tableByte s 0 = .error (tableBusError s 0) from tableByte_of_not_admitted hbad]
  | 1, h, _, hbad =>
    rw [h.byte]
    simp only
    rw [tableByte_of_not_admitted hbad]
  | j + 2, h, hj, hbad =>
    rw [List.take_succ_cons, List.take_succ_cons] at h
    have h' := (tableHas_cons.1 h).2
    have hrun := loadEntries_cut s (entriesOf codes) j 0 0 2 0 noCodes (tableHas_cons.1 h').2 (by simpa using hj)
      (by rwa [Nat.add_comm 2]) (ascendingFrom_entriesOf codes) (entriesFit_entriesOf hf)
    rw [Nat.zero_add, length_entriesOf] at hrun
    rw [h.byte]
    simp only [h'.byte]
    rw [countOf] at hk
    rw [hk, if_neg (Nat.not_lt.2 (entryCount_le codes)),
      show loadEntries s (entryCount codes) 0 2 0 (tabOf fun _ => []) = _ from hrun]
    simp only
    rw [Nat.add_comm 2]

/-- The defects TLOAD reports, with their positions (45_bitpacker_decoder R179). -/
inductive TableDefect (s : State) : Nat → Nat → Prop
  | count : 256 < tableCountAt s → TableDefect s 1 0
  | entry (sub e : Nat) : 2 ≤ sub → sub ≤ 4 → e < tableCountAt s → tableCountAt s ≤ 256 → TableDefect s sub e
  | notPrefixFree : tableCountAt s ≤ 256 → TableDefect s 5 (tableCountAt s)

theorem TableDefect.sub_range {s : State} {sub j : Nat} (h : TableDefect s sub j) : 1 ≤ sub ∧ sub ≤ 5 := by
  cases h <;> omega

/-- Everything `tloadRun` can answer: the table that stands at TABLE_BASE, which is well formed and prefix-free; a defect; or
a byte that cannot be read. -/
theorem tloadRun_spec (s : State) :
    (∃ es, es.length ≤ 256 ∧ AscendingFrom 0 es ∧ EntriesFit es ∧ PrefixFreeCodes (setAll noCodes es) ∧
      TableHas s 0 (BitVec.ofNat 8 es.length :: BitVec.ofNat 8 (es.length / 256) :: entriesBytes es) ∧
      tloadRun s = .ok
        { codes := setAll noCodes es, entries := es.length, bytes := 2 + (entriesBytes es).length }) ∨
    (∃ sub j r, TableDefect s sub j ∧ tloadRun s = .error (tableCorrupt sub j r) ∧
      AllAdmitted s.platform { base := tableAddr s, len := r }) ∨
    (∃ r, admitted s.platform (tableAddr s + r) = false ∧ tloadRun s = .error (tableBusError s r) ∧
      AllAdmitted s.platform { base := tableAddr s, len := r } ∧ r < 8706) := by
  rw [tloadRun]
  by_cases h0 : admitted s.platform (tableAddr s) = true
  · rw [show tableByte s 0 = _ from tableByte_of_admitted h0]
    generalize hlo : Memory.read s.mem (tableAddr s + 0) = lo
    have a1 : AllAdmitted s.platform { base := tableAddr s, len := 1 } := (allAdmitted_zero _ _).succ h0
    simp only
    by_cases h1 : admitted s.platform (tableAddr s + 1) = true
    · rw [tableByte_of_admitted h1]
      generalize hhi : Memory.read s.mem (tableAddr s + 1) = hi
      have a2 : AllAdmitted s.platform { base := tableAddr s, len := 2 } := a1.succ h1
      have hcount : tableCountAt s = lo.toNat + 256 * hi.toNat := by
        rw [← hlo, ← hhi]
        rfl
      simp only
      by_cases hk : 256 < lo.toNat + 256 * hi.toNat
      · rw [if_pos hk]
        exact .inr (.inl ⟨1, 0, 2, .count (by omega), rfl, a2⟩)
      · rw [if_neg hk]
        have grow : ∀ {r : Nat}, 2 ≤ r → AllAdmitted s.platform { base := tableAddr s + 2, len := r - 2 } →
            AllAdmitted s.platform { base := tableAddr s, len := r } := by
          intro r hr h
          rw [allAdmitted_iff] at h a2 ⊢
          intro k hk
          by_cases hlt : k < 2
          · exact a2 k hlt
          · have := h (k - 2) (by omega)
            rwa [show tableAddr s + 2 + (k - 2) = tableAddr s + k by omega] at this
        have hnat : ∀ {k : Nat}, k = lo.toNat + 256 * hi.toNat → BitVec.ofNat 8 k = lo ∧ BitVec.ofNat 8 (k / 256) = hi := by
          rintro k rfl
          have := lo.isLt
          have := hi.isLt
          constructor <;> apply BitVec.eq_of_toNat_eq <;> simp only [BitVec.toNat_ofNat] <;> omega
        rcases loadEntries_spec s (lo.toNat + 256 * hi.toNat) 0 2 0 noCodes with
          ⟨es, k1, k2, k3, k4, k5⟩ | ⟨sub, j, r, k1, k3, k4, k5⟩ | ⟨r, k1, k2, k3, k4⟩
        · have k5' : loadEntries s (lo.toNat + 256 * hi.toNat) 0 2 0 (tabOf fun _ => []) = _ := k5
          simp only [k5']
          have has : TableHas s 0 (BitVec.ofNat 8 es.length :: BitVec.ofNat 8 (es.length / 256) :: entriesBytes es) := by
            rw [(hnat k1).1, (hnat k1).2]
            exact tableHas_cons.2 ⟨⟨h0, hlo⟩, tableHas_cons.2 ⟨⟨h1, hhi⟩, k2⟩⟩
          by_cases hpf : prefixFree (setAll noCodes es) = true
          · rw [if_pos hpf]
            exact .inl ⟨es, by omega, k3, k4, (prefixFree_iff _).1 hpf, has, by rw [k1]⟩
          · rw [if_neg hpf]
            refine .inr (.inl ⟨5, _, _, hcount ▸ .notPrefixFree (by omega), rfl, grow (by omega) ?_⟩)
            rw [Nat.add_sub_cancel_left]
            exact k2.2
        · have k3' : loadEntries s (lo.toNat + 256 * hi.toNat) 0 2 0 (tabOf fun _ => []) = _ := k3
          simp only [k3']
          exact .inr (.inl ⟨sub, j, r, .entry sub j (by omega) (by omega) (by omega) (by omega), rfl, grow (by omega) k5⟩)
        · have k3' : loadEntries s (lo.toNat + 256 * hi.toNat) 0 2 0 (tabOf fun _ => []) = _ := k3
          simp only [k3']
          exact .inr (.inr ⟨r, k2, rfl, grow k1.1 k4, by omega⟩)
    · rw [tableByte_of_not_admitted (by simpa using h1)]
      exact .inr (.inr ⟨1, by simpa using h1, rfl, a1, by omega⟩)
  · rw [show tableByte s 0 = _ from tableByte_of_not_admitted (by simpa using h0)]
    exact .inr (.inr ⟨0, by simpa using h0, rfl, allAdmitted_zero _ _, by omega⟩)

end Sys2Proof.Machine
end

