-- ==== Sys2Proof/Laws/Unpack.lean ====
section
/-!
SUPPORT. UNPACK: how it reads the stream bit by bit, decodes a sample and goes on to the next (45_bitpacker_decoder R183 to
R185), and everything a run can answer.
-/

namespace Sys2Proof.Machine

/-! ### The stream as bits -/

/-- Bit k of the stream at SRC_BASE, MSB-first (20_memory R81). -/
def streamBit (s : State) (k : Nat) : Bool := byteBit (Memory.read s.mem (srcAddr s + k / 8)) (7 - k % 8)

/-- The stream's bits from a position on are those of a bit string. -/
def Reads (s : State) : Nat → BitString → Prop
  | _, [] => True
  | pos, b :: q => b = streamBit s pos ∧ Reads s (pos + 1) q

theorem Reads.append {s : State} : ∀ {p q : BitString} {pos : Nat},
    Reads s pos (p ++ q) ↔ Reads s pos p ∧ Reads s (pos + p.length) q
  | [], q, pos => by simp [Reads]
  | b :: p, q, pos => by
    rw [List.cons_append, Reads, Reads, Reads.append, List.length_cons, and_assoc, Nat.add_right_comm, Nat.add_assoc]

/-- A bit string that begins the first n bytes of the stream is read there. -/
theorem reads_iff (s : State) (n : Nat) : ∀ (q : BitString) (pos : Nat), pos + q.length ≤ 8 * n →
    (Reads s pos q ↔ q <+: (bitsOfBytes (loadBytes s.mem (srcAddr s) n)).drop pos)
  | [], _, _ => by simp [Reads]
  | b :: q, pos, h => by
    simp only [List.length_cons] at h
    have hpos : pos < (bitsOfBytes (loadBytes s.mem (srcAddr s) n)).length := by simp; omega
    have hbit : (bitsOfBytes (loadBytes s.mem (srcAddr s) n))[pos] = streamBit s pos := by
      have := getElem?_bitsOfBytes (loadBytes s.mem (srcAddr s) n) pos
      rw [getElem?_loadBytes _ _ _ _ (by omega), List.getElem?_eq_getElem hpos] at this
      simpa [streamBit] using this
    rw [Reads, reads_iff s n q (pos + 1) (by omega), List.drop_eq_getElem_cons hpos, hbit, List.cons_prefix_cons]

/-- The first `pos` stream bits can be read: the bytes that hold them are below IN_BYTES and admitted. -/
def Available (s : State) (pos : Nat) : Prop :=
  bytesFor pos ≤ inByteCount s ∧ AllAdmitted s.platform { base := srcAddr s, len := bytesFor pos }

theorem bytesFor_mono {p q : Nat} (h : p ≤ q) : bytesFor p ≤ bytesFor q := by unfold bytesFor; omega

theorem Available.mono {s : State} {p q : Nat} (h : Available s q) (hpq : p ≤ q) : Available s p :=
  ⟨(bytesFor_mono hpq).trans h.1, h.2.mono (bytesFor_mono hpq)⟩

/-! ### One bit -/

/-- The cursor's bytes are available, and its current byte is the one it stands in. -/
structure CursorOk (s : State) (c : UnpackCursor) : Prop where
  available : Available s c.pos
  current : c.pos % 8 ≠ 0 → c.cur = Memory.read s.mem (srcAddr s + c.pos / 8)

/-- Everything `nextBit` can answer: the next stream bit; STREAM_EXHAUSTED; or a BUS_ERROR on the next byte. -/
theorem nextBit_spec (s : State) (i : Nat) (c : UnpackCursor) (h : CursorOk s c) :
    (∃ c', nextBit s i c = .ok (streamBit s c.pos, c') ∧ c'.pos = c.pos + 1 ∧ c'.out = c.out ∧ CursorOk s c') ∨
    (c.pos = 8 * inByteCount s ∧ nextBit s i c = .error (unpackAbort (.corruptArtifact 6 i) c)) ∨
    (∃ m, c.pos = 8 * m ∧ m < inByteCount s ∧ admitted s.platform (srcAddr s + m) = false ∧
      nextBit s i c = .error (unpackAbort (.busError i (srcAddr s + m)) c)) := by
  rw [nextBit]
  by_cases h8 : c.pos % 8 = 0
  · rw [if_pos h8]
    have hfor : bytesFor c.pos = c.pos / 8 := by unfold bytesFor; omega
    have hav := h.available
    by_cases hin : inByteCount s ≤ c.pos / 8
    · rw [if_pos hin]
      have := hav.1
      exact .inr (.inl ⟨by omega, rfl⟩)
    · rw [if_neg hin]
      by_cases hadm : admitted s.platform (srcAddr s + c.pos / 8) = true
      · rw [memRead_of_admitted hadm]
        refine .inl ⟨{ c with pos := c.pos + 1, cur := Memory.read s.mem (srcAddr s + c.pos / 8) }, ?_, rfl, rfl, ?_⟩
        · simp [streamBit, h8]
        · have hfor' : bytesFor (c.pos + 1) = c.pos / 8 + 1 := by unfold bytesFor; omega
          refine ⟨⟨?_, ?_⟩, fun _ => ?_⟩
          · rw [hfor']
            omega
          · simp only [hfor']
            rw [← hfor] at hadm ⊢
            exact hav.2.succ hadm
          · simp only
            rw [show (c.pos + 1) / 8 = c.pos / 8 by omega]
      · rw [memRead_of_not_admitted (by simpa using hadm)]
        exact .inr (.inr ⟨c.pos / 8, by omega, by omega, by simpa using hadm, rfl⟩)
  · rw [if_neg h8]
    refine .inl ⟨{ c with pos := c.pos + 1 }, ?_, rfl, rfl, ?_⟩
    · rw [streamBit, ← h.current h8]
    · have hfor : bytesFor (c.pos + 1) = bytesFor c.pos := by unfold bytesFor; omega
      refine ⟨⟨by rw [hfor]; exact h.available.1, by simp only [hfor]; exact h.available.2⟩, fun h' => ?_⟩
      simp only at h' ⊢
      rw [show (c.pos + 1) / 8 = c.pos / 8 by omega]
      exact h.current h8

/-- Where the next bit is available it is read. -/
theorem nextBit_available (s : State) (i : Nat) (c : UnpackCursor) (h : CursorOk s c) (ha : Available s (c.pos + 1)) :
    ∃ c', nextBit s i c = .ok (streamBit s c.pos, c') ∧ c'.pos = c.pos + 1 ∧ c'.out = c.out ∧ CursorOk s c' := by
  rcases nextBit_spec s i c h with h' | ⟨h1, -⟩ | ⟨m, h1, h2, h3, -⟩
  · exact h'
  · have := ha.1
    rw [h1, bytesFor] at this
    omega
  · have := (allAdmitted_iff _ _ _).1 ha.2 m (by rw [h1, bytesFor]; omega)
    rw [h3] at this
    cases this

/-! ### The code table -/

/-- The value that `findCode` finds has the bit string as its code. -/
theorem findCode_some {codes : Vector BitString 256} {pre : BitString} {v : Byte} (h : findCode codes pre = some v) :
    tabGet codes v = pre ∧ pre ≠ [] := by
  rw [findCode, Option.map_eq_some_iff] at h
  obtain ⟨k, hk, rfl⟩ := h
  rw [List.findIdx?_eq_some_iff_getElem] at hk
  obtain ⟨hlt, hp, -⟩ := hk
  simp only [Vector.length_toList] at hlt
  simp only [Vector.getElem_toList, Bool.and_eq_true, Bool.not_eq_true', beq_iff_eq] at hp
  obtain ⟨hp1, hp2⟩ := hp
  have hget : tabGet codes (BitVec.ofNat 8 k) = codes[k] := by simp [tabGet, Nat.mod_eq_of_lt hlt]
  rw [hget]
  refine ⟨hp2, ?_⟩
  rw [← hp2]
  intro h0
  simp [h0] at hp1

/-- `findCode` finds nothing exactly where the bit string is no code. -/
theorem findCode_none {codes : Vector BitString 256} {pre : BitString} :
    findCode codes pre = none ↔ ∀ v, tabGet codes v ≠ [] → tabGet codes v ≠ pre := by
  rw [findCode, Option.map_eq_none_iff, List.findIdx?_eq_none_iff, toList_eq_map_allValues]
  simp only [List.mem_map, mem_allValues, true_and, forall_exists_index, forall_apply_eq_imp_iff]
  refine forall_congr' fun v => ?_
  cases tabGet codes v <;> simp

/-- In a prefix-free table `findCode` finds the one value with the code. -/
theorem findCode_eq {codes : Vector BitString 256} (h : PrefixFreeCodes codes) {v : Byte} (hv : tabGet codes v ≠ []) :
    findCode codes (tabGet codes v) = some v := by
  rcases hf : findCode codes (tabGet codes v) with _ | u
  · exact absurd rfl (findCode_none.1 hf v hv)
  · obtain ⟨h1, -⟩ := findCode_some hf
    by_contra hne
    have hne' : u ≠ v := fun he => hne (by rw [he])
    exact h u v hne' (h1 ▸ hv) hv (h1 ▸ List.prefix_rfl)

theorem extendable_iff {codes : Vector BitString 256} {pre : BitString} :
    extendable codes pre = true ↔ ∃ v, pre <+: tabGet codes v ∧ pre ≠ tabGet codes v := by
  rw [extendable, toList_eq_map_allValues, List.any_map, List.any_eq_true]
  simp only [mem_allValues, true_and, Function.comp_apply, Bool.and_eq_true, List.isPrefixOf_iff_prefix,
    decide_eq_true_eq]
  refine exists_congr fun v => and_congr_right fun hp => ?_
  constructor
  · intro hlt he
    rw [he] at hlt
    omega
  · intro hne
    rcases Nat.lt_or_ge pre.length (tabGet codes v).length with h | h
    · exact h
    · exact absurd (hp.eq_of_length (Nat.le_antisymm hp.length_le h)) hne

/-- In a prefix-free table a proper prefix of a code is no code. -/
theorem findCode_proper_prefix {codes : Vector BitString 256} (h : PrefixFreeCodes codes) {pre : BitString} {v : Byte}
    (hp : pre <+: tabGet codes v) (hne : pre ≠ tabGet codes v) : findCode codes pre = none := by
  rcases hf : findCode codes pre with _ | u
  · rfl
  · obtain ⟨h1, h2⟩ := findCode_some hf
    have hv : tabGet codes v ≠ [] := by
      intro h0
      rw [h0, List.prefix_nil] at hp
      exact h2 hp
    have huv : u ≠ v := fun he => hne (by rw [← h1, he])
    exact absurd (h1 ▸ hp) (h u v huv (h1 ▸ h2) hv)

/-! ### One sample -/

/-- Reading on inside a code: while the bits read are a proper prefix of a code, the loop goes on. -/
theorem decodeSample_skip (s : State) (i : Nat) (hpf : PrefixFreeCodes s.codes) :
    ∀ (q pre : BitString) (fuel : Nat) (c : UnpackCursor), CursorOk s c → Reads s c.pos q →
      Available s (c.pos + q.length) → (q = [] ∨ ∃ v, pre ++ q <+: codeAt s v ∧ pre ++ q ≠ codeAt s v) →
      ∃ c', decodeSample s i (fuel + q.length) pre c = decodeSample s i fuel (pre ++ q) c' ∧
        c'.pos = c.pos + q.length ∧ c'.out = c.out ∧ CursorOk s c'
  | [], pre, fuel, c, hc, _, _, _ => ⟨c, by simp, by simp, rfl, hc⟩
  | b :: q, pre, fuel, c, hc, ⟨hb, hr⟩, ha, hq => by
    obtain ⟨v, hv1, hv2⟩ : ∃ v, pre ++ b :: q <+: codeAt s v ∧ pre ++ b :: q ≠ codeAt s v := by
      rcases hq with hq | hq
      · cases hq
      · exact hq
    obtain ⟨c1, h1, h2, h3, h4⟩ := nextBit_available s i c hc (ha.mono (by simp))
    have hpre : pre ++ [b] <+: codeAt s v :=
      List.IsPrefix.trans ⟨q, by simp⟩ hv1
    have hne : pre ++ [b] ≠ codeAt s v := by
      intro he
      have := hv1.length_le
      rw [← he] at this
      simp only [List.length_append, List.length_cons, List.length_nil] at this
      have hq0 : q = [] := List.eq_nil_of_length_eq_zero (by omega)
      exact hv2 (by rw [hq0, he])
    obtain ⟨c2, h5, h6, h7, h8⟩ := decodeSample_skip s i hpf q (pre ++ [b]) fuel c1 h4 (by rwa [h2])
      (by rw [h2]; simpa [Nat.add_assoc, Nat.add_comm 1] using ha)
      (.inr ⟨v, by simpa using hv1, by simpa using hv2⟩)
    refine ⟨c2, ?_, by rw [h6, h2, List.length_cons]; omega, h7.trans h3, h8⟩
    rw [List.length_cons, ← Nat.add_assoc, decodeSample, h1, ← hb]
    simp only [findCode_proper_prefix hpf hpre hne, extendable_iff.2 ⟨v, hpre, hne⟩, if_true]
    rw [h5, List.append_assoc, List.singleton_append]

/-- A code is decoded to its value. -/
theorem decodeSample_code (s : State) (i : Nat) (hpf : PrefixFreeCodes s.codes) (v : Byte) (c : UnpackCursor)
    (hv : codeAt s v ≠ []) (hc : CursorOk s c) (hr : Reads s c.pos (codeAt s v))
    (ha : Available s (c.pos + (codeAt s v).length)) :
    ∃ c', decodeSample s i (longestCode s.codes + 1) [] c = .ok (v, c') ∧ c'.pos = c.pos + (codeAt s v).length ∧
      c'.out = c.out ∧ CursorOk s c' := by
  obtain ⟨q, b, hqb⟩ : ∃ q b, codeAt s v = q ++ [b] := ⟨_, _, (List.dropLast_append_getLast hv).symm⟩
  have hlen : (codeAt s v).length = q.length + 1 := by rw [hqb]; simp
  have hlong : (codeAt s v).length ≤ longestCode s.codes := length_le_longestCode s.codes v
  rw [hqb, Reads.append] at hr
  obtain ⟨c1, h1, h2, h3, h4⟩ := decodeSample_skip s i hpf q [] (longestCode s.codes + 1 - q.length) c hc hr.1
    (ha.mono (by omega)) (.inr ⟨v, by rw [hqb]; exact List.prefix_append _ _, by rw [hqb]; simp⟩)
  rw [Nat.sub_add_cancel (by omega)] at h1
  obtain ⟨c2, h5, h6, h7, h8⟩ := nextBit_available s i c1 h4 (by rw [h2]; exact ha.mono (by omega))
  refine ⟨c2, ?_, by omega, h7.trans h3, h8⟩
  have hb : streamBit s c1.pos = b := by rw [h2]; exact hr.2.1.symm
  rw [h1, show longestCode s.codes + 1 - q.length = longestCode s.codes - q.length + 1 by omega, decodeSample, h5, hb]
  simp only [List.nil_append]
  rw [← hqb]
  simp only [codeAt, findCode_eq hpf hv]

/-- A code that is cut off by the end of the stream or by a byte that cannot be read ends UNPACK there. -/
theorem decodeSample_cut (s : State) (i : Nat) (hpf : PrefixFreeCodes s.codes) (q : BitString) (c : UnpackCursor)
    (hc : CursorOk s c) (hr : Reads s c.pos q) (hq : q = [] ∨ ∃ v, q <+: codeAt s v ∧ q ≠ codeAt s v) (m : Nat)
    (hm : c.pos + q.length = 8 * m) (ha : Available s (8 * m)) :
    (m = inByteCount s → ∃ n, decodeSample s i (longestCode s.codes + 1) [] c =
      .error { error := .corruptArtifact 6 i, wrote := c.out, read := n }) ∧
    (m < inByteCount s → admitted s.platform (srcAddr s + m) = false →
      ∃ n, decodeSample s i (longestCode s.codes + 1) [] c =
        .error { error := .busError i (srcAddr s + m), wrote := c.out, read := n }) := by
  have hlong : q.length ≤ longestCode s.codes := by
    rcases hq with rfl | ⟨v, hv, -⟩
    · simp
    · exact hv.length_le.trans (length_le_longestCode s.codes v)
  obtain ⟨c1, h1, h2, h3, h4⟩ := decodeSample_skip s i hpf q [] (longestCode s.codes + 1 - q.length) c hc hr
    (by rw [hm]; exact ha) (by simpa using hq)
  rw [Nat.sub_add_cancel (by omega)] at h1
  rw [h1, show longestCode s.codes + 1 - q.length = longestCode s.codes - q.length + 1 by omega, decodeSample]
  rcases nextBit_spec s i c1 h4 with ⟨c2, h5, h6, h7, h8⟩ | ⟨h5, h6⟩ | ⟨m', h5, h6, h7, h8⟩
  · have hav := h8.available
    rw [h6, h2, hm] at hav
    have hfor : bytesFor (8 * m + 1) = m + 1 := by unfold bytesFor; omega
    refine ⟨fun he => ?_, fun _ hb => ?_⟩
    · have := hav.1
      omega
    · rw [Available, hfor] at hav
      rw [(allAdmitted_iff _ _ _).1 hav.2 m (by omega)] at hb
      cases hb
  · rw [h6]
    refine ⟨fun _ => ⟨bytesFor c1.pos, by simp [unpackAbort, h3]⟩, fun hlt _ => ?_⟩
    omega
  · rw [h8]
    have : m' = m := by omega
    subst this
    exact ⟨fun he => by omega, fun _ _ => ⟨bytesFor c1.pos, by simp [unpackAbort, h3]⟩⟩

/-- Bits that lead to no code end UNPACK with NO_LEAF. -/
theorem decodeSample_deadEnd (s : State) (i : Nat) (hpf : PrefixFreeCodes s.codes) (q : BitString) (b : Bool)
    (c : UnpackCursor) (hc : CursorOk s c) (hr : Reads s c.pos (q ++ [b]))
    (hq : q = [] ∨ ∃ v, q <+: codeAt s v ∧ q ≠ codeAt s v) (hdead : ∀ v, codeAt s v ≠ [] → ¬ (q ++ [b]) <+: codeAt s v)
    (ha : Available s (c.pos + (q ++ [b]).length)) :
    ∃ n, decodeSample s i (longestCode s.codes + 1) [] c =
      .error { error := .corruptArtifact 7 i, wrote := c.out, read := n } := by
  have hlong : q.length ≤ longestCode s.codes := by
    rcases hq with rfl | ⟨v, hv, -⟩
    · simp
    · exact hv.length_le.trans (length_le_longestCode s.codes v)
  rw [Reads.append] at hr
  obtain ⟨c1, h1, h2, h3, h4⟩ := decodeSample_skip s i hpf q [] (longestCode s.codes + 1 - q.length) c hc hr.1
    (ha.mono (by simp)) (by simpa using hq)
  rw [Nat.sub_add_cancel (by omega)] at h1
  obtain ⟨c2, h5, h6, h7, h8⟩ := nextBit_available s i c1 h4 (by rw [h2]; exact ha.mono (by simp [Nat.add_assoc]))
  have hb : streamBit s c1.pos = b := by rw [h2]; exact hr.2.1.symm
  have hfind : findCode s.codes ([] ++ q ++ [b]) = none := by
    rw [List.nil_append, findCode_none]
    intro v hv he
    exact hdead v hv (by rw [codeAt, he])
  have hext : extendable s.codes ([] ++ q ++ [b]) = false := by
    rw [List.nil_append, ← Bool.not_eq_true, extendable_iff]
    rintro ⟨v, hv, -⟩
    refine hdead v ?_ hv
    intro h0
    rw [codeAt] at h0
    rw [h0, List.prefix_nil] at hv
    simp at hv
  refine ⟨bytesFor c2.pos, ?_⟩
  rw [h1, show longestCode s.codes + 1 - q.length = longestCode s.codes - q.length + 1 by omega, decodeSample, h5, hb]
  simp only [hfind, hext]
  simp [unpackAbort, h7, h3]

/-! ### All samples -/

/-- UNPACK decodes and writes the samples whose codes begin the stream, and goes on after them. -/
theorem unpackSamples_skip (s : State) (hpf : PrefixFreeCodes s.codes) : ∀ (vs : List Byte) (n i : Nat)
    (c : UnpackCursor), CursorOk s c → (∀ v ∈ vs, codeAt s v ≠ []) → Reads s c.pos (streamBits s vs) →
    Available s (c.pos + (streamBits s vs).length) →
    (∀ k, k < vs.length → admitted s.platform (dstAddr s + (i + k)) = true) →
    ∃ c', unpackSamples s (n + vs.length) i c = unpackSamples s n (i + vs.length) c' ∧
      c'.pos = c.pos + (streamBits s vs).length ∧ c'.out = c.out ++ vs ∧ CursorOk s c'
  | [], n, i, c, hc, _, _, _, _ => ⟨c, rfl, by simp, by simp, hc⟩
  | v :: vs, n, i, c, hc, hv, hr, ha, hd => by
    have hsplit : streamBits s (v :: vs) = codeAt s v ++ streamBits s vs := rfl
    rw [hsplit, Reads.append] at hr
    rw [hsplit, List.length_append, ← Nat.add_assoc] at ha
    obtain ⟨c1, h1, h2, h3, h4⟩ := decodeSample_code s i hpf v c (hv v (by simp)) hc hr.1 (ha.mono (by omega))
    have hadm : admitted s.platform (dstAddr s + i) = true := hd 0 (by simp)
    obtain ⟨c2, h5, h6, h7, h8⟩ := unpackSamples_skip s hpf vs n (i + 1) { c1 with out := c1.out ++ [v] }
      ⟨h4.available, h4.current⟩ (fun u hu => hv u (by simp [hu])) (by simpa only [h2] using hr.2)
      (by simpa only [h2] using ha)
      (fun k hk => by
        have := hd (k + 1) (by simpa using hk)
        rwa [show i + 1 + k = i + (k + 1) by omega])
    refine ⟨c2, ?_, ?_, ?_, h8⟩
    · rw [List.length_cons, ← Nat.add_assoc, unpackSamples, h1]
      simp only [hadm, if_true]
      rw [h5, show i + 1 + vs.length = i + (vs.length + 1) by omega]
    · rw [h6, hsplit, List.length_append]
      simp only [h2]
      omega
    · rw [h7]
      simp [h3]

/-- What can end UNPACK early (45_bitpacker_decoder R179, R183): at sample i, with i samples written. -/
inductive UnpackStop (s : State) : Nat → CommandError → Prop
  | exhausted (i : Nat) : UnpackStop s i (.corruptArtifact 6 i)
  | noLeaf (i : Nat) : UnpackStop s i (.corruptArtifact 7 i)
  | badRead (i k : Nat) : admitted s.platform (srcAddr s + k) = false → UnpackStop s i (.busError i (srcAddr s + k))
  | badWrite (i : Nat) : admitted s.platform (dstAddr s + i) = false → UnpackStop s i (.busError i (dstAddr s + i))

theorem nextBit_stop {s : State} {i : Nat} {c : UnpackCursor} {a : Abort} (h : nextBit s i c = .error a) :
    a.wrote = c.out ∧ UnpackStop s i a.error := by
  rw [nextBit] at h
  split at h
  · split at h
    · cases h
      exact ⟨rfl, .exhausted i⟩
    · split at h
      · rename_i hr
        cases h
        refine ⟨rfl, .badRead i _ ?_⟩
        rw [memRead] at hr
        split at hr
        · cases hr
        · rename_i hadm
          simpa using hadm
      · cases h
  · cases h

theorem nextBit_out {s : State} {i : Nat} {c c' : UnpackCursor} {b : Bool} (h : nextBit s i c = .ok (b, c')) :
    c'.out = c.out ∧ c'.pos = c.pos + 1 := by
  rw [nextBit] at h
  split at h
  · split at h
    · cases h
    · split at h
      · cases h
      · cases h
        exact ⟨rfl, rfl⟩
  · cases h
    exact ⟨rfl, rfl⟩

theorem decodeSample_stop (s : State) (i : Nat) : ∀ (fuel : Nat) (pre : BitString) (c : UnpackCursor),
    (∃ v c', decodeSample s i fuel pre c = .ok (v, c') ∧ c'.out = c.out ∧ codeAt s v ≠ []) ∨
    (∃ a, decodeSample s i fuel pre c = .error a ∧ a.wrote = c.out ∧ UnpackStop s i a.error)
  | 0, _, c => .inr ⟨_, rfl, rfl, .noLeaf i⟩
  | fuel + 1, pre, c => by
    rw [decodeSample]
    rcases hb : nextBit s i c with a | ⟨b, c'⟩
    · obtain ⟨h1, h2⟩ := nextBit_stop hb
      exact .inr ⟨a, rfl, h1, h2⟩
    · obtain ⟨h1, -⟩ := nextBit_out hb
      simp only
      rcases hf : findCode s.codes (pre ++ [b]) with _ | v
      · simp only
        split
        · rcases decodeSample_stop s i fuel (pre ++ [b]) c' with ⟨v, c2, h2, h3, h4⟩ | ⟨a, h2, h3, h4⟩
          · exact .inl ⟨v, c2, h2, h3.trans h1, h4⟩
          · exact .inr ⟨a, h2, h3.trans h1, h4⟩
        · exact .inr ⟨_, rfl, h1, .noLeaf i⟩
      · refine .inl ⟨v, c', rfl, h1, ?_⟩
        obtain ⟨h2, h3⟩ := findCode_some hf
        rw [codeAt, h2]
        exact h3

/-- Everything `unpackSamples` can answer, as far as the samples written go: all of them, or those before the sample it
stops at, every one at an admitted address. -/
theorem unpackSamples_stop (s : State) : ∀ (n i : Nat) (c : UnpackCursor), c.out.length = i →
    AllAdmitted s.platform { base := dstAddr s, len := i } →
    (∃ c', unpackSamples s n i c = .ok c' ∧ c'.out.length = i + n ∧
      AllAdmitted s.platform { base := dstAddr s, len := i + n }) ∨
    (∃ a, unpackSamples s n i c = .error a ∧ a.wrote.length < i + n ∧
      AllAdmitted s.platform { base := dstAddr s, len := a.wrote.length } ∧ UnpackStop s a.wrote.length a.error)
  | 0, i, c, hi, ha => .inl ⟨c, rfl, hi, ha⟩
  | n + 1, i, c, hi, ha => by
    rw [unpackSamples]
    rcases decodeSample_stop s i (longestCode s.codes + 1) [] c with ⟨v, c', h1, h2, -⟩ | ⟨a, h1, h2, h3⟩
    · simp only [h1]
      by_cases hadm : admitted s.platform (dstAddr s + i) = true
      · rw [if_pos hadm]
        have := unpackSamples_stop s n (i + 1) { c' with out := c'.out ++ [v] } (by simp [h2, hi]) (ha.succ hadm)
        simpa only [Nat.add_assoc, Nat.add_comm 1 n] using this
      · rw [if_neg hadm]
        have hlen : c'.out.length = i := by rw [h2, hi]
        refine .inr ⟨_, rfl, ?_, ?_, ?_⟩
        · simp only [unpackAbort, hlen]
          omega
        · simpa only [unpackAbort, hlen] using ha
        · simp only [unpackAbort, hlen]
          exact .badWrite i (by simpa using hadm)
    · simp only [h1]
      have hlen : a.wrote.length = i := by rw [h2, hi]
      refine .inr ⟨a, rfl, by omega, by rw [hlen]; exact ha, by rw [hlen]; exact h3⟩

/-- Everything `unpackRun` can answer, as far as the samples written go. -/
theorem unpackRun_stop (s : State) :
    (∃ c, unpackRun s = .ok c ∧ c.out.length = sampleCount s ∧
      AllAdmitted s.platform { base := dstAddr s, len := sampleCount s }) ∨
    (∃ a, unpackRun s = .error a ∧ a.wrote.length < sampleCount s ∧
      AllAdmitted s.platform { base := dstAddr s, len := a.wrote.length } ∧ UnpackStop s a.wrote.length a.error) := by
  have := unpackSamples_stop s (sampleCount s) 0 { pos := 0, cur := 0#8, out := [] } rfl (allAdmitted_zero _ _)
  simpa only [Nat.zero_add, unpackRun] using this

theorem cursorOk_start (s : State) : CursorOk s { pos := 0, cur := 0#8, out := [] } :=
  ⟨⟨Nat.zero_le _, allAdmitted_zero _ _⟩, fun h => absurd rfl h⟩

theorem decodeSample_cursorOk (s : State) (i : Nat) : ∀ (fuel : Nat) (pre : BitString) (c c' : UnpackCursor) (v : Byte),
    CursorOk s c → decodeSample s i fuel pre c = .ok (v, c') → CursorOk s c'
  | 0, _, c, _, _, _, h => by
    rw [decodeSample] at h
    cases h
  | fuel + 1, pre, c, c', v, hc, h => by
    rw [decodeSample] at h
    rcases nextBit_spec s i c hc with ⟨c1, h1, -, -, h4⟩ | ⟨-, h2⟩ | ⟨m, -, -, -, h4⟩
    · rw [h1] at h
      simp only at h
      rcases hf : findCode s.codes (pre ++ [streamBit s c.pos]) with _ | u
      · rw [hf] at h
        simp only at h
        split at h
        · exact decodeSample_cursorOk s i fuel _ c1 c' v h4 h
        · cases h
      · rw [hf] at h
        cases h
        exact h4
    · rw [h2] at h
      cases h
    · rw [h4] at h
      cases h

/-- Wherever UNPACK stops, the bytes it has read are below IN_BYTES (45_bitpacker_decoder R184). -/
theorem decodeSample_read_le (s : State) (i : Nat) : ∀ (fuel : Nat) (pre : BitString) (c : UnpackCursor) (a : Abort),
    CursorOk s c → decodeSample s i fuel pre c = .error a → a.read ≤ inByteCount s
  | 0, _, c, _, hc, h => by
    rw [decodeSample] at h
    cases h
    exact hc.available.1
  | fuel + 1, pre, c, a, hc, h => by
    rw [decodeSample] at h
    rcases nextBit_spec s i c hc with ⟨c1, h1, -, -, h4⟩ | ⟨-, h2⟩ | ⟨m, -, -, -, h4⟩
    · rw [h1] at h
      simp only at h
      rcases hf : findCode s.codes (pre ++ [streamBit s c.pos]) with _ | u
      · rw [hf] at h
        simp only at h
        split at h
        · exact decodeSample_read_le s i fuel _ c1 a h4 h
        · cases h
          exact h4.available.1
      · rw [hf] at h
        cases h
    · rw [h2] at h
      cases h
      exact hc.available.1
    · rw [h4] at h
      cases h
      exact hc.available.1

theorem unpackSamples_read_le (s : State) : ∀ (n i : Nat) (c : UnpackCursor), CursorOk s c →
    (∀ c', unpackSamples s n i c = .ok c' → bytesFor c'.pos ≤ inByteCount s) ∧
    (∀ a, unpackSamples s n i c = .error a → a.read ≤ inByteCount s)
  | 0, i, c, hc => by
    refine ⟨fun c' h => ?_, fun a h => ?_⟩
    · rw [unpackSamples] at h
      cases h
      exact hc.available.1
    · rw [unpackSamples] at h
      cases h
  | n + 1, i, c, hc => by
    rw [unpackSamples]
    rcases hs : decodeSample s i (longestCode s.codes + 1) [] c with a' | ⟨v, c'⟩
    · refine ⟨fun _ h => (by cases h), fun a h => ?_⟩
      cases h
      exact decodeSample_read_le s i _ _ _ _ hc hs
    · have hc' := decodeSample_cursorOk s i _ _ _ _ _ hc hs
      simp only
      split
      · exact unpackSamples_read_le s n (i + 1) { c' with out := c'.out ++ [v] } ⟨hc'.available, hc'.current⟩
      · refine ⟨fun _ h => (by cases h), fun a h => ?_⟩
        cases h
        exact hc'.available.1

/-- UNPACK's read region is at most IN_BYTES long (20_memory R73, R86). -/
theorem length_unpackReads (s : State) : (unpackRegions s).reads.len ≤ inByteCount s := by
  obtain ⟨h1, h2⟩ := unpackSamples_read_le s (sampleCount s) 0 _ (cursorOk_start s)
  simp only [unpackRegions, unpackRun]
  split
  · exact h1 _ ‹_›
  · exact h2 _ ‹_›

end Sys2Proof.Machine
end

