-- ==== Sys2Proof/Laws/Effects.lean ====
section
/-!
SUPPORT. What the commands do to data memory and how they can end: one lemma each, for all commands.
-/

namespace Sys2Proof.Machine

/-! ### Memory -/

/-- A command changes memory by its write sequence only (20_memory R73). -/
theorem mem_resultOf (i : Instr) (s : State) :
    (resultOf i s).mem = storeBytes s.mem (commandWrites i s).1 (commandWrites i s).2 := by
  cases i with
  | nop | clear | tree | codes => rfl
  | freq => simp only [resultOf, freqResult]; split <;> rfl
  | tload => simp only [resultOf, tloadResult]; split <;> rfl
  | pack => simp only [resultOf, packResult, commandWrites]; cases packRun s <;> rfl
  | unpack => simp only [resultOf, unpackResult, commandWrites]; cases unpackRun s <;> rfl
  | tstore => simp only [resultOf, tstoreResult, commandWrites]; cases tstoreRun s <;> rfl

/-- The stream bits of the samples before one, which can all be read, fit PACK's write region (20_memory R86). -/
theorem packedBits_le_region {s : State} {j : Nat} (hj : j ≤ sampleCount s)
    (ha : AllAdmitted s.platform { base := srcAddr s, len := j }) :
    (packedBits s j).length ≤ matrixBits s (sampleCount s) 0 := by
  have := packedBits_le_matrixBits s (sampleCount s) 0 j (by omega) (Nat.zero_le _) hj ha
  simpa using this

/-- The bytes PACK writes are admitted, and lie in its write region (20_memory R73). -/
theorem packWrites_spec (s : State) :
    AllAdmitted s.platform { base := dstAddr s, len := (commandWrites .pack s).2.length } ∧
      (commandWrites .pack s).2.length ≤ (packRegions s).writes.len := by
  have region := @packedBits_le_region s
  simp only [commandWrites, packRegions]
  rcases packRun_spec s with ⟨h1, h2, -, h4⟩ | ⟨i, a, h1, ha⟩ | ⟨c, h1, hc, hp, -⟩
  · rw [h1]
    simp only [length_packBytes]
    refine ⟨h4, bytesFor_mono ?_⟩
    have := region (Nat.le_refl _) h2
    rwa [packedBits_all s _ (Nat.le_refl _)] at this
  · rw [h1]
    cases ha with
    | badRead c hi hc hb =>
      have := region (by omega) hc.sources
      exact ⟨hc.room, by simp only [hc.length_out, bytesFor]; omega⟩
    | noCode c hi hc hb hv =>
      have := region (by omega) hc.sources
      exact ⟨hc.room, by simp only [hc.length_out, bytesFor]; omega⟩
    | badWrite c out hi hc hb hv hle hpre hlen hadm hb2 =>
      have := region (by omega) (hc.sources.succ hb)
      exact ⟨hadm, by simp only [bytesFor]; omega⟩
  · rw [h1]
    have := region (Nat.le_refl _) hc.sources
    exact ⟨hc.room, by simp only [hc.length_out, bytesFor]; omega⟩

/-- The bytes a command writes are admitted (20_memory R76). -/
theorem commandWrites_admitted (i : Instr) (s : State) :
    AllAdmitted s.platform { base := (commandWrites i s).1, len := (commandWrites i s).2.length } := by
  cases i with
  | nop | clear | freq | tree | codes | tload => exact allAdmitted_zero _ _
  | pack => exact (packWrites_spec s).1
  | unpack =>
    simp only [commandWrites]
    rcases unpackRun_stop s with ⟨c, h1, h2, h3⟩ | ⟨a, h1, -, h3, -⟩
    · rw [h1]
      simp only
      rw [h2]
      exact h3
    · rw [h1]
      exact h3
  | tstore =>
    simp only [commandWrites]
    rcases tstoreRun_spec s with ⟨h1, h2⟩ | ⟨j, hj, h1, h2, -⟩
    · rw [h1]
      exact h2
    · rw [h1]
      simp only [List.length_take, Nat.min_eq_left (Nat.le_of_lt hj)]
      exact h2

/-- The bytes a command writes lie in the address space (20_memory R71). -/
theorem commandWrites_in_space (i : Instr) (s : State) :
    (commandWrites i s).1 + (commandWrites i s).2.length ≤ Config.addressSpace := by
  have h := commandWrites_admitted i s
  cases i with
  | nop | clear | freq | tree | codes | tload => simp [commandWrites, Config.addressSpace]
  | pack | unpack | tstore => exact region_in_space h

/-- A command keeps the canonical form of memory. -/
theorem wf_resultOf (i : Instr) (s : State) (h : Memory.wf s.mem = true) : Memory.wf (resultOf i s).mem = true := by
  rw [mem_resultOf]
  exact wf_storeBytes _ _ _ h (commandWrites_in_space i s)

/-- Outside its write sequence a command changes no byte. -/
theorem read_resultOf_outside (i : Instr) (s : State) (h : Memory.wf s.mem = true) (a : Nat)
    (ha : a < (commandWrites i s).1 ∨ (commandWrites i s).1 + (commandWrites i s).2.length ≤ a) :
    Memory.read (resultOf i s).mem a = Memory.read s.mem a := by
  rw [mem_resultOf]
  exact read_storeBytes_outside _ _ _ a h (commandWrites_in_space i s) ha

/-- UNPACK writes at most N samples. -/
theorem length_unpackWrites (s : State) : (commandWrites .unpack s).2.length ≤ sampleCount s := by
  simp only [commandWrites]
  rcases unpackRun_stop s with ⟨c, h1, h2, -⟩ | ⟨a, h1, h2, -, -⟩
  · rw [h1]
    exact Nat.le_of_eq h2
  · rw [h1]
    exact Nat.le_of_lt h2

/-- TSTORE writes at most the serialized table. -/
theorem length_tstoreWrites (s : State) : (commandWrites .tstore s).2.length ≤ (serializeTable s.codes).length := by
  simp only [commandWrites]
  rcases tstoreRun_spec s with ⟨h1, -⟩ | ⟨j, hj, h1, -, -⟩
  · rw [h1]
  · rw [h1]
    simp

/-! ### How a command can end -/

/-- The accesses that can end a command with BUS_ERROR: the ERR_INDEX it records (60_exceptions R202), the base of the region
and the offset in it (20_memory R73). -/
inductive BusAccess (s : State) : Instr → Nat → Nat → Nat → Prop
  | freq (k : Nat) : k < sampleCount s → BusAccess s .freq k (srcAddr s) k
  | packRead (k : Nat) : k < sampleCount s → BusAccess s .pack k (srcAddr s) k
  | packWrite (i k : Nat) : i ≤ sampleCount s → k < (packRegions s).writes.len → BusAccess s .pack i (dstAddr s) k
  | tstore (k : Nat) : k < (serializeTable s.codes).length → BusAccess s .tstore k (tableAddr s) k
  | tload (k : Nat) : k < 8706 → BusAccess s .tload k (tableAddr s) k
  | unpackRead (i k : Nat) : i < sampleCount s → k < inByteCount s → BusAccess s .unpack i (srcAddr s) k
  | unpackWrite (k : Nat) : k < sampleCount s → BusAccess s .unpack k (dstAddr s) k

/-- The errors a command can raise, with what they record (60_exceptions R202, 45_bitpacker_decoder R179). -/
inductive Raises (s : State) : Instr → CommandError → Prop
  | noCode (i : Nat) (v : Byte) : (matrixAt s)[i]? = some v → codeAt s v = [] →
      (∀ u ∈ (matrixAt s).take i, codeAt s u ≠ []) → Raises s .pack (.inconsistentCodeTable i v)
  | badTable (sub i : Nat) : TableDefect s sub i → Raises s .tload (.corruptArtifact sub i)
  | badStream (sub i : Nat) : sub = 6 ∨ sub = 7 → i < sampleCount s → Raises s .unpack (.corruptArtifact sub i)
  | busError (c : Instr) (i base k : Nat) : BusAccess s c i base k → admitted s.platform (base + k) = false →
      AllAdmitted s.platform { base := base, len := k } → base + k < 2 ^ 32 → Raises s c (.busError i (base + k))

/-- A not admitted address that follows admitted ones from a base register fits FAULT_ADDR (20_memory R75). -/
theorem fault_address_fits {p : Platform} {b : Word} {k : Nat} (h : AllAdmitted p { base := b.toNat, len := k }) :
    b.toNat + k < 2 ^ 32 := by
  have := b.isLt
  rcases Nat.eq_zero_or_pos k with rfl | hk
  · omega
  · have := lt_of_admitted ((allAdmitted_iff _ _ _).1 h (k - 1) (by omega))
    omega

/-- A BUS_ERROR at an offset from a base register, the first that is not admitted. -/
theorem Raises.bus {s : State} {c : Instr} {i k : Nat} {b : Word} (h : BusAccess s c i b.toNat k)
    (hbad : admitted s.platform (b.toNat + k) = false) (ha : AllAdmitted s.platform { base := b.toNat, len := k }) :
    Raises s c (.busError i (b.toNat + k)) := .busError c i _ k h hbad ha (fault_address_fits ha)

/-- The errors of `decodeSample` at sample i: the stream is malformed there, or the byte UNPACK's cursor stands at is the
first one not admitted. -/
theorem decodeSample_raises (s : State) (i : Nat) (hi : i < sampleCount s) : ∀ (fuel : Nat) (pre : BitString)
    (c : UnpackCursor) (a : Abort), CursorOk s c → decodeSample s i fuel pre c = .error a → Raises s .unpack a.error
  | 0, _, c, a, _, h => by
    rw [decodeSample] at h
    cases h
    exact .badStream 7 i (.inr rfl) hi
  | fuel + 1, pre, c, a, hc, h => by
    rw [decodeSample] at h
    rcases nextBit_spec s i c hc with ⟨c', h1, -, -, h4⟩ | ⟨-, h2⟩ | ⟨m, h1, hm, h3, h4⟩
    · rw [h1] at h
      simp only at h
      rcases hf : findCode s.codes (pre ++ [streamBit s c.pos]) with _ | v
      · rw [hf] at h
        simp only at h
        split at h
        · exact decodeSample_raises s i hi fuel _ c' a h4 h
        · cases h
          exact .badStream 7 i (.inr rfl) hi
      · rw [hf] at h
        cases h
    · rw [h2] at h
      cases h
      exact .badStream 6 i (.inl rfl) hi
    · rw [h4] at h
      cases h
      have := hc.available.2
      rw [h1, bytesFor_mul] at this
      exact Raises.bus (.unpackRead i m hi hm) h3 this

/-- The errors of `unpackSamples`. -/
theorem unpackSamples_raises (s : State) : ∀ (n i : Nat) (c : UnpackCursor) (a : Abort), i + n = sampleCount s →
    CursorOk s c → AllAdmitted s.platform { base := dstAddr s, len := i } → unpackSamples s n i c = .error a →
    Raises s .unpack a.error
  | 0, _, _, _, _, _, _, h => by
    rw [unpackSamples] at h
    cases h
  | n + 1, i, c, a, hi, hc, hd, h => by
    rw [unpackSamples] at h
    rcases hs : decodeSample s i (longestCode s.codes + 1) [] c with a' | ⟨v, c'⟩
    · rw [hs] at h
      cases h
      exact decodeSample_raises s i (by omega) _ _ _ _ hc hs
    · rw [hs] at h
      simp only at h
      have hc' := decodeSample_cursorOk s i _ _ _ _ _ hc hs
      by_cases hadm : admitted s.platform (dstAddr s + i) = true
      · rw [if_pos hadm] at h
        exact unpackSamples_raises s n (i + 1) { c' with out := c'.out ++ [v] } a (by omega)
          ⟨hc'.available, hc'.current⟩ (hd.succ hadm) h
      · rw [if_neg hadm] at h
        cases h
        exact Raises.bus (.unpackWrite i (by omega)) ((Bool.not_eq_true _).mp hadm) hd

/-- Everything a command can end in, as far as success and error go: success keeps the detail registers and may set EMPTY
where the command's rule says so; an error is one that 60_exceptions R202 lists for the command. -/
theorem ending_resultOf (i : Instr) (s : State) :
    ((resultOf i s).status.err = false ∧ (resultOf i s).errors = { s.errors with code := 0#4 } ∧
      (resultOf i s).status.empty = (s.status.empty || match i with
        | .freq | .pack | .unpack => decide (sampleCount s = 0)
        | .tree => (presentValues s.freq).isEmpty
        | .codes => s.root.isNone
        | .nop | .clear | .tstore | .tload => false)) ∨
    (∃ e, Raises s i e ∧ (resultOf i s).status.err = true ∧ (resultOf i s).status.empty = s.status.empty ∧
      (resultOf i s).errors = { code := e.code, index := e.index, value := e.value, faultAddr := e.faultAddr } ∧
      e.code ≠ 0#4 ∧
      ((i ∈ [Instr.freq, .pack, .unpack]) → sampleCount s ≠ 0)) := by
  cases i with
  | nop => exact .inl ⟨rfl, rfl, by simp [resultOf]⟩
  | clear => exact .inl ⟨rfl, rfl, by simp [resultOf]⟩
  | tree =>
    refine .inl ⟨rfl, rfl, ?_⟩
    have hroot : (buildTree s.freq).2.isNone = (presentValues s.freq).isEmpty := by
      rcases h : presentValues s.freq with _ | ⟨v, vs⟩
      · rw [buildTree_empty h]
        rfl
      · obtain ⟨merged, w, h1, -⟩ := buildTree_spec (freq := s.freq) (k := vs.length) (by rw [h]; rfl)
        rw [h1]
        rfl
    simp [resultOf, treeResult, hroot, Bool.or_comm]
  | codes => exact .inl ⟨rfl, rfl, by simp [resultOf, codesResult, Bool.or_comm]⟩
  | freq =>
    rcases readSamples_spec s (sampleCount s) 0 with ⟨h1, -⟩ | ⟨m, hm, h1, h2, h3⟩
    · refine .inl ?_
      simp only [resultOf, freqResult, h1]
      refine ⟨rfl, rfl, ?_⟩
      simp [Bool.or_comm, BEq.beq]
    · simp only [Nat.add_zero, Nat.zero_add] at h1 h2 h3
      refine .inr ⟨.busError m (srcAddr s + m), Raises.bus (.freq m hm) h3 h2, ?_⟩
      · simp only [resultOf, freqResult, h1]
        exact ⟨rfl, rfl, rfl, by simp [CommandError.code], fun _ => by omega⟩
  | pack =>
    rcases packRun_spec s with ⟨h1, -⟩ | ⟨i, a, h1, ha⟩ | ⟨c, h1, hc, hp, hadm⟩
    · refine .inl ?_
      simp only [resultOf, packResult, h1]
      refine ⟨rfl, rfl, ?_⟩
      simp [Bool.or_comm, BEq.beq]
    · refine .inr ⟨a.error, ?_, ?_⟩
      · cases ha with
        | badRead c hi hc hb => exact Raises.bus (.packRead i hi) hb hc.sources
        | noCode c hi hc hb hv => exact .noCode i _ (getElem?_matrixAt s i hi) hv hc.coded
        | badWrite c out hi hc hb hv hle hpre hlen hadm hb2 =>
          refine Raises.bus (.packWrite i out.length (by omega) ?_) hb2 hadm
          have := packedBits_le_region (j := i + 1) (by omega) (hc.sources.succ hb)
          simp only [packRegions, bytesFor]
          omega
      · simp only [resultOf, packResult, h1]
        refine ⟨?_, rfl, rfl, ?_, ?_⟩ <;> cases ha <;> simp [CommandError.code] <;> omega
    · have hbits := congrArg List.length hc.bits
      have hpos := List.length_pos_of_ne_nil hp
      have hreg := packedBits_le_region (j := sampleCount s) (Nat.le_refl _) hc.sources
      rw [List.length_append, length_bitsOfBytes] at hbits
      refine .inr ⟨.busError (sampleCount s) (dstAddr s + c.out.length), Raises.bus
        (.packWrite _ c.out.length (Nat.le_refl _) (by simp only [packRegions, bytesFor]; omega)) hadm hc.room, ?_⟩
      simp only [resultOf, packResult, h1]
      refine ⟨rfl, rfl, rfl, by simp [CommandError.code], fun _ h0 => ?_⟩
      have := hc.bits
      rw [h0, packedBits_zero, List.append_eq_nil_iff] at this
      exact hp this.2
  | unpack =>
    rcases h1 : unpackRun s with a | c
    · refine .inr ⟨a.error, unpackSamples_raises s _ _ _ a (Nat.zero_add _) (cursorOk_start s) (allAdmitted_zero _ _) h1, ?_⟩
      have hr := unpackSamples_raises s _ _ _ a (Nat.zero_add _) (cursorOk_start s) (allAdmitted_zero _ _) h1
      simp only [resultOf, unpackResult, h1]
      have hne : a.error.code ≠ 0#4 := by
        generalize a.error = e at hr ⊢
        cases hr <;> simp [CommandError.code]
      refine ⟨by simp [hne], rfl, rfl, hne, fun _ h0 => ?_⟩
      rw [unpackRun, h0, unpackSamples] at h1
      cases h1
    · refine .inl ?_
      simp only [resultOf, unpackResult, h1]
      refine ⟨rfl, rfl, ?_⟩
      simp [Bool.or_comm, BEq.beq]
  | tstore =>
    rcases tstoreRun_spec s with ⟨h1, -⟩ | ⟨j, hj, h1, h2, h3⟩
    · refine .inl ?_
      simp only [resultOf, tstoreResult, h1]
      exact ⟨rfl, rfl, by simp⟩
    · refine .inr ⟨.busError j (tableAddr s + j), Raises.bus (.tstore j hj) h3 h2, ?_⟩
      simp only [resultOf, tstoreResult, h1]
      exact ⟨rfl, rfl, rfl, by simp [CommandError.code], fun h => by simp at h⟩
  | tload =>
    rcases tloadRun_spec s with ⟨es, -, -, -, -, -, h1⟩ | ⟨sub, j, r, hd, h1, -⟩ | ⟨r, h3, h1, h2, hr⟩
    · refine .inl ?_
      simp only [resultOf, tloadResult, h1]
      exact ⟨rfl, rfl, by simp⟩
    · refine .inr ⟨.corruptArtifact sub j, .badTable sub j hd, ?_⟩
      simp only [resultOf, tloadResult, h1]
      exact ⟨rfl, rfl, rfl, by simp [CommandError.code], fun h => by simp at h⟩
    · refine .inr ⟨.busError r (tableAddr s + r), Raises.bus (.tload r hr) h3 h2, ?_⟩
      simp only [resultOf, tloadResult, h1]
      exact ⟨rfl, rfl, rfl, by simp [CommandError.code], fun h => by simp at h⟩

end Sys2Proof.Machine
end

