-- ==== Sys2Proof/Laws/PerInstr.lean ====
section
/-!
SUPPORT. Statements made for every command: its word decodes to it and is well formed (30_encoding R97, R99).
-/

namespace Sys2Proof.Laws.RoundTrip

/-- The command is well formed, its word is no reserved word, and the decoder reads the command from it. -/
def Statement (i : Instr) : Prop :=
  i.wellFormed = true ∧ wordWellFormed (encode i) = true ∧ decode (encode i) = .ok i

theorem nop : Statement .nop := by unfold Statement; decide

theorem clear : Statement .clear := by unfold Statement; decide

theorem freq : Statement .freq := by unfold Statement; decide

theorem tree : Statement .tree := by unfold Statement; decide

theorem codes : Statement .codes := by unfold Statement; decide

theorem pack : Statement .pack := by unfold Statement; decide

theorem unpack : Statement .unpack := by unfold Statement; decide

theorem tstore : Statement .tstore := by unfold Statement; decide

theorem tload : Statement .tload := by unfold Statement; decide

end Sys2Proof.Laws.RoundTrip
end

