-- ==== Sys2Proof/Laws/Step.lean ====
section
/-!
SUPPORT. What one step of the machine can do, said once, and the principle for invariants that follows.
-/

namespace Sys2Proof.Machine

/-- Two states agree in everything but the model's own fields. -/
def SameMachine (s t : State) : Prop :=
  t = { s with host := t.host, observed := t.observed, schedule := t.schedule, draws := t.draws }

/-- The fields that `SameMachine` keeps. -/
theorem SameMachine.fields {s t : State} (h : SameMachine s t) :
    t.status = s.status ∧ t.errors = s.errors ∧ t.doneIe = s.doneIe ∧ t.cfg = s.cfg ∧ t.results = s.results ∧
      t.freq = s.freq ∧ t.nodes = s.nodes ∧ t.root = s.root ∧ t.codes = s.codes ∧ t.eng = s.eng ∧ t.mem = s.mem ∧
      t.platform = s.platform := by
  rw [SameMachine] at h
  rw [h]
  simp only [and_self]

/-- A register write changes neither memory nor the datapath nor a result register (10_state R47). -/
theorem regWrite_frame (r : Reg) (w : Word) (s : State) :
    (regWrite r w s).mem = s.mem ∧ (regWrite r w s).codes = s.codes ∧ (regWrite r w s).freq = s.freq ∧
      (regWrite r w s).nodes = s.nodes ∧ (regWrite r w s).root = s.root ∧ (regWrite r w s).results = s.results ∧
      (regWrite r w s).platform = s.platform ∧ (regWrite r w s).host = s.host := by
  unfold regWrite
  repeat' split
  all_goals simp

theorem sameMachine_refl (s : State) : SameMachine s s := rfl

theorem SameMachine.trans {s t u : State} (h1 : SameMachine s t) (h2 : SameMachine t u) : SameMachine s u := by
  rw [SameMachine] at *
  rw [h2, h1]

theorem sameMachine_draw (s : State) : SameMachine s (draw s) := rfl

theorem sameMachine_observe (o : Observation) (s : State) : SameMachine s (observe o s) := rfl

theorem sameMachine_takeTurn (s : State) : SameMachine s (takeTurn s) := rfl

theorem sameMachine_host (s : State) (ops : List HostOp) : SameMachine s { s with host := ops } := rfl

/-- A register read changes nothing but the draw counter. -/
theorem sameMachine_regRead (r : Reg) (s : State) : SameMachine s (regRead r s).2 := by
  unfold regRead
  split
  · split
    · rfl
    · split <;> rfl
  · rfl

theorem sameMachine_readNoted (r : Reg) (o : Nat) (s : State) : SameMachine s (readNoted r o s) :=
  (sameMachine_regRead r s).trans (sameMachine_observe _ _)

/-- WAIT's turn is a read of STATUS, and while BUSY it puts WAIT before the host's list again (30_encoding R103). -/
theorem pollStatus_eq (s : State) :
    pollStatus s = { readNoted .status statusOffset s with host := if busy s then .wait :: s.host else s.host } := by
  unfold pollStatus
  split
  · rfl
  · rw [← readNoted_host .status statusOffset s]

theorem sameMachine_pollStatus (s : State) : SameMachine s (pollStatus s) := by
  rw [pollStatus_eq]
  exact (sameMachine_readNoted _ _ s).trans (sameMachine_host _ _)

theorem sameMachine_stopOnError (s : State) : SameMachine s (stopOnError s) := by
  unfold stopOnError
  split
  · exact (sameMachine_readNoted .errCode _ s).trans (sameMachine_host _ [])
  · exact sameMachine_refl s

/-- Everything a host statement can do to the machine. -/
theorem hostStep_cases {op : HostOp} {s t : State} (h : hostStep op s = .next t) :
    SameMachine s t ∨
    (∃ r w, t = regWrite r w s) ∨
    (∃ a bs, a + bs.length ≤ Config.addressSpace ∧ t = { s with mem := storeBytes s.mem a bs }) ∨
    (∃ a bs, a + bs.length ≤ Config.addressSpace ∧
      SameMachine (resetBlock { s with mem := storeBytes s.mem a bs }) t) := by
  cases op with
  | wr bytes offset w =>
    simp only [hostStep, hostRegWrite] at h
    split at h
    · cases h
      exact .inr (.inl ⟨_, _, rfl⟩)
    · cases h
  | rd bytes offset =>
    simp only [hostStep, hostRegRead] at h
    split at h
    · cases h
      exact .inl (sameMachine_readNoted _ _ s)
    · cases h
  | memWr a bs =>
    simp only [hostStep, hostMemWrite] at h
    split at h
    · cases h
    · split at h
      · cases h
      · split at h
        · cases h
        · cases h
          exact .inr (.inr (.inl ⟨a, bs, by omega, rfl⟩))
  | memRd a n =>
    simp only [hostStep, hostMemRead] at h
    split at h
    · cases h
    · split at h
      · cases h
      · cases h
        exact .inl ((sameMachine_observe _ s).trans (sameMachine_draw _))
  | wait =>
    cases h
    exact .inl (sameMachine_pollStatus _)
  | awaitIrq =>
    cases h
    exact .inl (sameMachine_refl _)
  | stopOnError =>
    cases h
    exact .inl (sameMachine_stopOnError _)
  | rst =>
    simp only [hostStep, hostReset] at h
    split at h
    · cases h
      exact .inr (.inr (.inr ⟨0, [], Nat.zero_le _, sameMachine_refl _⟩))
    · rename_i i _
      have ht := eq_of_underDuties_next h
      have hsp := commandWrites_in_space i s
      refine .inr (.inr (.inr ⟨(commandWrites i s).1, (commandWrites i s).2.take (Config.freeWriteCount s.draws), ?_, ?_⟩))
      · have := List.length_take_le' (Config.freeWriteCount s.draws) (commandWrites i s).2
        omega
      · rw [ht]
        exact sameMachine_draw _

/-- Everything perform can answer. -/
theorem perform_cases {w : Word} {s t : State} (h : perform w s = .next t) :
    (∃ i, decode w = .ok i ∧ DutiesKept i s ∧ t = resultOf i s) ∨ (∃ e, decode w = .error e ∧ t = rejectWord w s) := by
  rw [perform] at h
  split at h
  · rename_i i hi
    exact .inl ⟨i, hi, duties_of_exec_next h, eq_of_exec_next h⟩
  · rename_i e he
    cases h
    exact .inr ⟨e, he, rfl⟩

/-- Everything a step can do: an IDLE engine waits; a BUSY engine performs its word; or the host carries out its next
statement. `s0` is the state with the turn used up, where there was a choice of turns. -/
theorem step_cases {s t : State} (h : step s = .next t) :
    (s.eng = .idle ∧ t = s) ∨
    (∃ w s0, s.eng = .busy w ∧ (s0 = s ∨ s0 = takeTurn s) ∧ perform w s0 = .next t) ∨
    (∃ op rest s0, s.host = op :: rest ∧ blocked op s = false ∧ (s0 = s ∨ s0 = takeTurn s) ∧
      hostStep op { s0 with host := rest } = .next t) := by
  have engine : ∀ {s0 : State}, (s0 = s ∨ s0 = takeTurn s) → engineStep s0 = .next t →
      (s.eng = .idle ∧ t = s0) ∨ (∃ w s0, s.eng = .busy w ∧ (s0 = s ∨ s0 = takeTurn s) ∧ perform w s0 = .next t) := by
    intro s0 hs0 he
    have heng : s0.eng = s.eng := by rcases hs0 with rfl | rfl <;> simp
    rw [engineStep, heng] at he
    rcases hb : s.eng with _ | w <;> rw [hb] at he
    · cases he
      exact .inl ⟨rfl, rfl⟩
    · exact .inr ⟨w, s0, rfl, hs0, he⟩
  rw [step, machineStep] at h
  by_cases hr : hostReady s = true
  · rw [if_pos hr] at h
    obtain ⟨op, rest, hh, hbl⟩ : ∃ op rest, s.host = op :: rest ∧ blocked op s = false := by
      rw [hostReady] at hr
      split at hr
      · cases hr
      · rename_i op rest hh
        exact ⟨op, rest, hh, by simpa using hr⟩
    have host : ∀ {s0 : State}, (s0 = s ∨ s0 = takeTurn s) → hostMove s0 = .next t →
        ∃ op rest s0, s.host = op :: rest ∧ blocked op s = false ∧ (s0 = s ∨ s0 = takeTurn s) ∧
          hostStep op { s0 with host := rest } = .next t := by
      intro s0 hs0 hm
      have hhost : s0.host = op :: rest := by rcases hs0 with rfl | rfl <;> simp [hh]
      rw [hostMove, hhost] at hm
      exact ⟨op, rest, s0, hh, hbl, hs0, hm⟩
    by_cases hb : busy s = true
    · rw [if_pos hb] at h
      by_cases he : engineFirst s = true
      · rw [if_pos he] at h
        rcases engine (.inr rfl) h with ⟨h1, -⟩ | h1
        · rw [busy, h1] at hb
          cases hb
        · exact .inr (.inl h1)
      · rw [if_neg he] at h
        exact .inr (.inr (host (.inr rfl) h))
    · rw [if_neg hb] at h
      exact .inr (.inr (host (.inl rfl) h))
  · rw [if_neg hr] at h
    rcases engine (.inl rfl) h with h1 | h1
    · exact .inl h1
    · exact .inr (.inl h1)

/-- A property of the machine that every command, every register write, every host store and a reset keep is kept by every
step. -/
theorem step_keeps {P : State → Prop} (same : ∀ {s t : State}, SameMachine s t → P s → P t)
    (command : ∀ (i : Instr) (s : State), busy s = true → P s → P (resultOf i s))
    (reject : ∀ (w : Word) (s : State), busy s = true → P s → P (rejectWord w s))
    (write : ∀ (r : Reg) (w : Word) (s : State), P s → P (regWrite r w s))
    (store : ∀ (s : State) (a : Nat) (bs : List Byte), a + bs.length ≤ Config.addressSpace → P s →
      P { s with mem := storeBytes s.mem a bs })
    (reset : ∀ s : State, P s → P (resetBlock s)) {s t : State} (hP : P s) (h : step s = .next t) : P t := by
  have turn : ∀ {s0 : State}, (s0 = s ∨ s0 = takeTurn s) → P s0 := by
    rintro s0 (rfl | rfl)
    · exact hP
    · exact same (sameMachine_takeTurn s) hP
  rcases step_cases h with ⟨-, rfl⟩ | ⟨w, s0, hb, hs0, hp⟩ | ⟨op, rest, s0, -, -, hs0, hh⟩
  · exact hP
  · have hbusy : busy s0 = true := by rcases hs0 with rfl | rfl <;> simp [busy, hb]
    rcases perform_cases hp with ⟨i, -, -, rfl⟩ | ⟨e, -, rfl⟩
    · exact command i s0 hbusy (turn hs0)
    · exact reject w s0 hbusy (turn hs0)
  · have h0 : P { s0 with host := rest } := same (sameMachine_host s0 rest) (turn hs0)
    rcases hostStep_cases hh with h1 | ⟨r, w, rfl⟩ | ⟨a, bs, h1, rfl⟩ | ⟨a, bs, h1, h2⟩
    · exact same h1 h0
    · exact write r w _ h0
    · exact store _ a bs h1 h0
    · exact same h2 (reset _ (store _ a bs h1 h0))

end Sys2Proof.Machine
end

