-- ==== Sys2Proof/Tests/Slice0.lean ====
section
/-!
SUPPORT. Tests of the model, their expected results taken from the spec's opcode map (30_encoding R99) and its worked examples
(95_test_vectors, 94_scenarios and the examples in the rules), and one witness for every statement that has hypotheses.
-/

namespace Sys2Proof.Tests

set_option Elab.async false

open Sys2Proof Sys2Proof.Machine

/-! ### Helpers -/

/-- The outcome is a next state with a property. -/
def check (o : Host.Outcome State Fault Refusal) (p : State → Bool) : Bool :=
  match o with
  | .next t => p t
  | _ => false

theorem next_of_check {o : Host.Outcome State Fault Refusal} {p : State → Bool} (h : check o p = true) :
    ∃ t, o = .next t ∧ p t = true := by
  cases o with
  | next t => exact ⟨t, rfl, h⟩
  | fault r => simp [check] at h
  | refused r => simp [check] at h

/-- Bytes from numbers. -/
def bytes (l : List Nat) : List Byte := l.map (BitVec.ofNat 8)

/-- Idle after reset, with a matrix of width w and height 1 at 0x1000, DST_BASE 0x2000, TABLE_BASE 0x3000, IN_BYTES n, and
bytes at an address. -/
def machine (w n a : Nat) (l : List Nat) : State :=
  { State.reset with
    cfg := { width := BitVec.ofNat 16 w, height := 1#16, srcBase := 0x1000#32, dstBase := 0x2000#32,
             tableBase := 0x3000#32, inBytes := BitVec.ofNat 32 n }
    mem := storeBytes [] a (bytes l) }

/-- The machine with one address that answers no engine access. -/
def withHole (a : Nat) (s : State) : State := { s with platform := [{ base := a, size := 1, kind := .absent }] }

/-- The code table of a list of codes. -/
def codesOf (l : List (Nat × BitString)) : Vector BitString 256 :=
  tabOf fun v => ((l.find? (fun e => e.1 == v.toNat)).map Prod.snd).getD []

/-- The counts of a list of counts. -/
def freqOf (l : List (Nat × Nat)) : Vector Word 256 :=
  tabOf fun v => BitVec.ofNat 32 (((l.find? (fun e => e.1 == v.toNat)).map Prod.snd).getD 0)

/-- The code table of the scenario matrix 0A 0A 14 1E (94_scenarios): 10 has "0", 20 has "10", 30 has "11". -/
def codesS : Vector BitString 256 := codesOf [(10, [false]), (20, [true, false]), (30, [true, true])]

/-- The scenario matrix with that code table. -/
def scene : State := { machine 4 0 0x1000 [0x0A, 0x0A, 0x14, 0x1E] with codes := codesS }

/-- The scenario's stream, 2C, with that code table: the input of UNPACK. -/
def packed : State := { machine 4 1 0x1000 [0x2C] with codes := codesS }

/-- A matrix of 10, 20, 40, of which 40 has no code. -/
def uncoded : State := { machine 4 0 0x1000 [10, 20, 40, 30] with codes := codesS }

/-- The stream 40 under a table whose one code is 7's "0". -/
def deadEnd : State := { machine 3 1 0x1000 [0x40] with codes := codesOf [(7, [false])] }

/-- NOP accepted. -/
def busyNop : State := accept 0#32 State.reset

theorem busyNop_flags : FlagsOk busyNop := ⟨by decide, by decide, by decide, by decide, by decide, by decide, by decide⟩

theorem plain_nil (r : Span) : PlainMemory [] r := fun _ _ _ _ => rfl

theorem below_top {a n : Nat} (h : n ≤ 0xFFFFFFFF) (ha : a < n) : a < Config.topAddress := by
  have : a < 0xFFFFFFFF := by omega
  simpa only [Config.topAddress] using this

theorem admitted_nil {b n : Nat} (h : b + n ≤ 0xFFFFFFFF) : AllAdmitted [] { base := b, len := n } :=
  (allAdmitted_iff [] b n).2 fun k hk =>
    (admitted_iff _ _).2 ⟨below_top h (Nat.add_lt_add_left hk b), by simp [kindOf]⟩

/-- With a hole and no device every admitted address is plain memory. -/
theorem plain_hole (x : Nat) (r : Span) : PlainMemory [{ base := x, size := 1, kind := .absent }] r := by
  intro a _ _ h
  simp only [admitted, memAdmit, kindOf] at h ⊢
  split at h <;> simp_all

theorem admitted_hole {x b n : Nat} (h : b + n ≤ 0xFFFFFFFF) (hx : x < b ∨ b + n ≤ x) :
    AllAdmitted [{ base := x, size := 1, kind := .absent }] { base := b, len := n } :=
  (allAdmitted_iff _ b n).2 fun k hk =>
    (admitted_iff _ _).2 ⟨below_top h (Nat.add_lt_add_left hk b), by
      simp only [kindOf]
      rw [if_neg (by omega)]
      simp⟩

/-- The duties hold where no device stands and the regions do not meet. -/
theorem duties_nil {i : Instr} {s : State} (hp : s.platform = [])
    (h : (overlapRegions i s).reads.meets (overlapRegions i s).writes = false) : DutiesKept i s := by
  unfold DutiesKept
  rw [hp]
  exact ⟨plain_nil _, plain_nil _, (meets_eq_false_iff _ _).1 h⟩

theorem duties_hole {i : Instr} {s : State} {x : Nat} (hp : s.platform = [{ base := x, size := 1, kind := .absent }])
    (h : (overlapRegions i s).reads.meets (overlapRegions i s).writes = false) : DutiesKept i s := by
  unfold DutiesKept
  rw [hp]
  exact ⟨plain_hole x _, plain_hole x _, (meets_eq_false_iff _ _).1 h⟩

/-! ### Decoding: the words of 30_encoding R99 -/

theorem test_decode_nop : decodeTableWord 32 0x00000000 = some .nop := by decide
theorem test_decode_clear : decodeTableWord 32 0x00000001 = some .clear := by decide
theorem test_decode_freq : decodeTableWord 32 0x00000010 = some .freq := by decide
theorem test_decode_tree : decodeTableWord 32 0x00000020 = some .tree := by decide
theorem test_decode_codes : decodeTableWord 32 0x00000030 = some .codes := by decide
theorem test_decode_pack : decodeTableWord 32 0x00000040 = some .pack := by decide
theorem test_decode_unpack : decodeTableWord 32 0x00000050 = some .unpack := by decide
theorem test_decode_tstore : decodeTableWord 32 0x00000060 = some .tstore := by decide
theorem test_decode_tload : decodeTableWord 32 0x00000061 = some .tload := by decide

/-! ### WellFormed refuses ill-formed words (30_encoding R100) -/

theorem test_rsv_set_is_ill_formed : wordRsvClear 0x00000100#32 = false ∧ wordWellFormed 0x00000100#32 = false := by decide
theorem test_op_unassigned_is_ill_formed :
    wordOpcodeAssigned 0x00000002#32 = false ∧ wordWellFormed 0x00000002#32 = false := by decide
theorem test_rsv_checked_first : decode 0x00000102#32 = .error .reservedBitsSet := by rfl
theorem test_commands_are_well_formed :
    [0x00#32, 0x01#32, 0x10#32, 0x20#32, 0x30#32, 0x40#32, 0x50#32, 0x60#32, 0x61#32].all wordWellFormed = true := by decide

/-! ### One step per command, from the worked examples -/

theorem test_nop : check (step (State.reset.withFetchWord 32 0x00)) (fun t => statusWord t == 0x2#32) = true := by
  decide +kernel

theorem test_clear : check (step (scene.withFetchWord 32 0x01))
    (fun t => statusWord t == 0x102#32 && codeAt t 10#8 == [] && t.mem == scene.mem && t.cfg == scene.cfg) = true := by
  decide +kernel

theorem test_freq_counts : check (step (scene.withFetchWord 32 0x10))
    (fun t => t.results.numSymbols == 3#9 && freqAt t 10#8 == 2#32 && freqAt t 20#8 == 1#32 && freqAt t 30#8 == 1#32
      && statusWord t == 0x1002#32) = true := by decide +kernel

theorem test_freq_bus_error : check (step ((withHole 0x1002 scene).withFetchWord 32 0x10))
    (fun t => t.errors == { code := 3#4, index := 2#32, value := 0#32, faultAddr := 0x1002#32 }
      && freqAt t 10#8 == 0#32 && statusWord t == 0x1006#32) = true := by decide +kernel

theorem test_tree_scene :
    check (step ({ scene with freq := freqOf [(10, 2), (20, 1), (30, 1)] }.withFetchWord 32 0x20))
      (fun t => t.nodes == [.leaf 10#8 2#32, .leaf 20#8 1#32, .leaf 30#8 1#32, .internal 2#32 1 2, .internal 4#32 0 3]
        && t.root == some 4 && t.results.rootWeight == 4#32) = true := by decide +kernel

theorem test_tree_empty : check (step (scene.withFetchWord 32 0x20))
    (fun t => t.nodes == [] && t.root == none && statusWord t == 0x200A#32) = true := by decide +kernel

theorem test_codes_tie :
    check (execTree { scene with freq := freqOf [(5, 3), (9, 3), (200, 3)] })
      (fun t => check (execCodes t)
        (fun u => u.codes.toList == (codesOf [(5, [true, false]), (9, [true, true]), (200, [false])]).toList && u.root == none)) = true := by
  decide +kernel

theorem test_codes_single_value :
    check (execCodes { scene with nodes := [.leaf 7#8 5#32], root := some 0 })
      (fun t => t.codes.toList == (codesOf [(7, [false])]).toList && t.results.maxCodeLen == 1#8) = true := by decide +kernel

theorem test_pack_scene : check (step (scene.withFetchWord 32 0x40))
    (fun t => Memory.read t.mem 0x2000 == 0x2C#8 && t.results.streamBytes == 1#32 && t.results.streamLastBits == 6#4) = true := by
  decide +kernel

theorem test_pack_uncoded : check (step (uncoded.withFetchWord 32 0x40))
    (fun t => t.errors == { code := 1#4, index := 2#32, value := 40#32, faultAddr := 0#32 } && t.mem == uncoded.mem) = true := by
  decide +kernel

theorem test_tstore_scene : check (step (scene.withFetchWord 32 0x60))
    (fun t => loadBytes t.mem 0x3000 11 == bytes [0x03, 0x00, 0x0A, 0x01, 0x00, 0x14, 0x02, 0x80, 0x1E, 0x02, 0xC0]
      && t.results.tableBytes == 11#32) = true := by decide +kernel

theorem test_tstore_empty : check (step (State.reset.withFetchWord 32 0x60))
    (fun t => t.mem == [] && t.results.tableBytes == 2#32 && statusWord t == 0x6002#32) = true := by decide +kernel

theorem test_tload_scene :
    check (step ((machine 4 0 0x3000 [0x03, 0x00, 0x0A, 0x01, 0x00, 0x14, 0x02, 0x80, 0x1E, 0x02, 0xC0]).withFetchWord 32 0x61))
      (fun t => t.codes.toList == codesS.toList && t.results.codeEntries == 3#9 && t.results.maxCodeLen == 2#8
        && t.results.tableBytes == 11#32) = true := by decide +kernel

theorem test_tload_prefix_conflict :
    check (step ((machine 4 0 0x3000 [0x02, 0x00, 0x05, 0x01, 0x00, 0x06, 0x02, 0x00]).withFetchWord 32 0x61))
      (fun t => t.errors == { code := 2#4, index := 2#32, value := 5#32, faultAddr := 0#32 }
        && t.codes.toList == State.reset.codes.toList) = true := by decide +kernel

theorem test_unpack_scene : check (step (packed.withFetchWord 32 0x50))
    (fun t => loadBytes t.mem 0x2000 4 == bytes [0x0A, 0x0A, 0x14, 0x1E] && t.results.streamBytes == 1#32
      && t.results.streamLastBits == 6#4) = true := by decide +kernel

theorem test_unpack_no_leaf : check (step (deadEnd.withFetchWord 32 0x50))
    (fun t => t.errors == { code := 2#4, index := 1#32, value := 7#32, faultAddr := 0#32 }
      && Memory.read t.mem 0x2000 == 7#8) = true := by decide +kernel

theorem test_reserved_word : check (step (State.reset.withFetchWord 32 0x02))
    (fun t => statusWord t == 0x206#32 && t.errors == { code := 4#4, index := 0#32, value := 2#32, faultAddr := 0#32 }) = true := by
  decide +kernel

/-- Where the host's turn comes before the engine's, WAIT reads STATUS while BUSY and again when the command is done
(30_encoding R103). -/
theorem test_wait_reads_status_until_idle :
    check (runSteps 3 { busyNop with host := [.wait], schedule := [.host, .engine] })
      (fun t => t.host == [] && !busy t && (match t.observed with
        | [.register o v, .register p _] => o == 8 && v == 0x2#32 && p == 8
        | _ => false)) = true := by
  decide +kernel

/-- A host read of memory gives the bytes there (30_encoding R102). -/
theorem test_memory_read : check (hostMemRead 0x0FFF 6 scene)
    (fun t => t.observed == [.memory 0x0FFF (bytes [0, 0x0A, 0x0A, 0x14, 0x1E, 0])]) = true := by decide +kernel

/-! ### Witnesses: each statement's hypotheses are met -/

theorem witness_StepRunsTheAcceptedCommand_alone :
    (accept 0x10#32 scene).eng = .busy 0x10#32 ∧ decode 0x10#32 = .ok .freq ∧ hostReady (accept 0x10#32 scene) = false :=
  ⟨rfl, rfl, rfl⟩

theorem witness_StepRunsTheAcceptedCommand_first :
    let s := { accept 0x10#32 scene with host := [.rd 4 8], schedule := [.engine] }
    s.eng = .busy 0x10#32 ∧ decode 0x10#32 = .ok .freq ∧ hostReady s = true ∧ engineFirst s = true := ⟨rfl, rfl, rfl, rfl⟩

theorem witness_PlacedWordRunsNext : decode (BitVec.ofNat 32 (0x61 % 2 ^ 32)) = .ok .tload := by rfl

theorem witness_ReservedWordCompletesIllegal :
    [0x02#32, 0x62#32, 0x100#32, 0xFFFFFFFF#32].all
      (fun w => decide (w.toNat ∉ [0x00, 0x01, 0x10, 0x20, 0x30, 0x40, 0x50, 0x60, 0x61])) = true := by decide

theorem witness_StepRunsTheHostStatement_idle :
    let s := { State.reset with host := [.rd 4 8] }
    s.host = .rd 4 8 :: [] ∧ blocked (.rd 4 8) s = false ∧ busy s = false := ⟨rfl, rfl, rfl⟩

theorem witness_StepRunsTheHostStatement_busy :
    let s := { busyNop with host := [.rd 4 8], schedule := [.host] }
    s.host = .rd 4 8 :: [] ∧ blocked (.rd 4 8) s = false ∧ busy s = true ∧ engineFirst s = false := ⟨rfl, rfl, rfl, rfl⟩

theorem witness_StepRunsTheHostStatement_blocked : blocked .awaitIrq busyNop = true ∧ irq busyNop = false := by decide

theorem witness_AcceptedCommandCompletes_alone :
    busyNop.eng = .busy 0#32 ∧ HostOp.rst ∉ busyNop.host ∧ busyNop.host = [] ∧ (∀ i, decode 0#32 = .ok i → DutiesKept i busyNop) := by
  refine ⟨rfl, by decide, rfl, fun i h => ?_⟩
  cases h
  exact duties_nil rfl (by decide)

/-- The host polls while it can, and the engine's turn comes last. -/
theorem witness_AcceptedCommandCompletes_scheduled :
    let s := { accept 0x40#32 scene with host := [.wait, .rd 4 8], schedule := [.host, .host, .engine] }
    s.eng = .busy 0x40#32 ∧ HostOp.rst ∉ s.host ∧ Agent.engine ∈ s.schedule ∧
      check (runSteps 3 s) (fun t => !busy t && t.status.done) = true := ⟨rfl, by decide, by decide, by rfl⟩

theorem witness_CmdWriteIsAcceptedOrDropped : State.reset.eng = .idle ∧ busyNop.eng ≠ .idle := by decide

theorem witness_WritesWhileBusy :
    busyNop.eng ≠ .idle ∧
      ∀ off ∈ [0x000, 0x004, 0x008, 0x00C, 0x01C, 0x020, 0x034, 0x038, 0xFFC], off < 4096 ∧ off % 4 = 0 := by decide

theorem witness_WritesWhileIdle :
    State.reset.eng = .idle ∧ ∀ off ∈ [0x000, 0x00C, 0x018, 0x038, 0xFFC],
      off < 4096 ∧ off % 4 = 0 ∧ (off = 0 ∨ (0x00C ≤ off ∧ off ≤ 0x018) ∨ 0x038 ≤ off) := by decide

theorem witness_ReadsWhileIdle :
    scene.eng = .idle ∧ (codeAt scene 0#8).length ≤ 255 ∧ (codeAt scene 30#8).length ≤ 255 ∧
      ∀ off ∈ [0x058, 0x3FC, 0xC00, 0xFFC], off % 4 = 0 ∧ ((0x058 ≤ off ∧ off ≤ 0x3FC) ∨ (0xC00 ≤ off ∧ off ≤ 0xFFC)) := by
  decide +kernel

theorem witness_StatusReadsItsFields : scene.eng = .idle := rfl

theorem witness_ReadsWhileBusy :
    busyNop.eng ≠ .idle ∧ FlagsOk busyNop ∧
      (∀ off ∈ [0x058, 0x3FC, 0xC00, 0xFFC], off % 4 = 0 ∧ ((0x058 ≤ off ∧ off ≤ 0x3FC) ∨ (0xC00 ≤ off ∧ off ≤ 0xFFC))) ∧
      ∀ off ∈ [0x00C, 0x018, 0x038, 0x054, 0x400, 0x7FC, 0x800, 0xBFC],
        off % 4 = 0 ∧ ((0x00C ≤ off ∧ off ≤ 0x018) ∨ (0x038 ≤ off ∧ off ≤ 0x054) ∨ (0x400 ≤ off ∧ off ≤ 0xBFC)) :=
  ⟨by decide, busyNop_flags, by decide, by decide⟩

theorem witness_OtherAccessesAreRefused :
    (∀ b ∈ [1, 2, 8], b ≠ 4) ∧ (∀ off ∈ [1, 2, 3], off % 4 ≠ 0) ∧ (4096 : Nat) ≤ 4096 := by decide

theorem witness_IrqFollowsDoneAndEnable :
    (∃ t, exec .nop scene = .next t) ∧ (0x2#32 : Word).getLsbD 1 = true := ⟨⟨_, rfl⟩, by decide⟩

theorem witness_HostMemoryWritesAndReads :
    Memory.wf scene.mem = true ∧ 0xFFFFFFFC + (bytes [1, 2, 3, 4]).length ≤ 2 ^ 32 ∧
      (∀ x, 0xFFFFFFFC ≤ x → x < 0xFFFFFFFC + (bytes [1, 2, 3, 4]).length → kindOf scene.platform x ≠ .device) ∧
      Apart (runningRegions scene).reads { base := 0xFFFFFFFC, len := (bytes [1, 2, 3, 4]).length } ∧
      Apart (runningRegions scene).writes { base := 0xFFFFFFFC, len := (bytes [1, 2, 3, 4]).length } :=
  ⟨by decide +kernel, by decide, fun _ _ _ => by simp [scene, machine, State.reset, kindOf],
    (meets_eq_false_iff _ _).1 (by decide +kernel), (meets_eq_false_iff _ _).1 (by decide +kernel)⟩

/-- A running PACK writes 0x2000; the byte before it reads as memory's. -/
theorem witness_HostMemoryWritesAndReads_busy :
    let s := accept 0x40#32 scene
    Memory.wf s.mem = true ∧ 0x1FFF + (bytes [1, 2]).length ≤ 2 ^ 32 ∧ (∀ x, kindOf s.platform x ≠ .device) ∧
      (runningRegions s).writes.has (0x1FFF + 0) = false ∧ (runningRegions s).writes.has (0x1FFF + 1) = true :=
  ⟨by decide +kernel, by decide, fun a => show kindOf [] a ≠ .device by simp [kindOf], by decide +kernel, by decide +kernel⟩

theorem witness_HostWriteIntoRunningRegionRefused :
    let s := accept 0x40#32 scene
    s.eng = .busy 0x40#32 ∧ decode 0x40#32 = .ok .pack ∧
      (∀ a, kindOf s.platform a ≠ .device) ∧
      (commandRegions .pack s).reads.has 0x1003 = true ∧ (commandRegions .pack s).writes.has 0x2000 = true :=
  ⟨rfl, rfl, fun a => show kindOf [] a ≠ .device by simp [kindOf], by decide +kernel, by decide +kernel⟩

theorem witness_ResetWhileIdle : scene.eng = .idle := rfl

theorem witness_ResetAbandonsTheCommand :
    let s := accept 0x40#32 scene
    s.eng = .busy 0x40#32 ∧ decode 0x40#32 = .ok .pack ∧ DutiesKept .pack s ∧ Memory.wf s.mem = true ∧
      commandWrites .pack s = (0x2000, [0x2C#8]) :=
  ⟨rfl, rfl, duties_nil rfl (by decide +kernel), by decide +kernel, by decide +kernel⟩

theorem witness_ResetAbandonsTheCommand_reserved :
    (accept 0x02#32 scene).eng = .busy 0x02#32 ∧ decode 0x02#32 = .error .unassignedOpcode := ⟨rfl, by rfl⟩

theorem witness_EveryCommandCompletes :
    ∀ i : Instr, ∃ t, exec i scene = .next t ∧ (t.status.done = true) := by
  intro i
  have h : check (exec i scene) (fun t => t.status.done) = true := by cases i <;> decide +kernel
  exact next_of_check h

/-- Also the hypotheses of the other statements about any command that goes on, with each error code; TLOAD's with a count of
257, with LEN = 0 and with a prefix conflict. -/
theorem witness_ErrorCodesByCommand :
    check (exec .pack scene) (fun t => t.errors.code == 0#4) = true ∧
    check (exec .pack uncoded) (fun t => t.errors.code == 1#4 && t.errors.index == 2#32) = true ∧
    check (exec .tload (machine 4 0 0x3000 [1, 1])) (fun t => t.errors.code == 2#4 && t.errors.value == 1#32) = true ∧
    check (exec .tload (machine 4 0 0x3000 [0, 1, 5, 0])) (fun t => t.errors.code == 2#4 && t.errors.value == 3#32) = true ∧
    check (exec .tload (machine 4 0 0x3000 [2, 0, 5, 1, 0, 6, 2, 0]))
      (fun t => t.errors.code == 2#4 && t.errors.value == 5#32 && t.errors.index == 2#32) = true ∧
    check (exec .unpack deadEnd) (fun t => t.errors.code == 2#4) = true ∧
    check (exec .freq (withHole 0x1000 scene)) (fun t => t.errors.code == 3#4) = true ∧
    check (exec .tstore (withHole 0x3001 scene))
      (fun t => t.errors.code == 3#4 && t.errors.index == 1#32 && t.errors.faultAddr == 0x3001#32) = true := by decide +kernel

theorem witness_OnlyTheNamedCommandsWrite : ∃ t, exec .tload scene = .next t ∧ t.status.done = true :=
  witness_EveryCommandCompletes .tload

theorem witness_OnlyTheWriteRegionChanges :
    Memory.wf scene.mem = true ∧ ∀ i ∈ [Instr.pack, .unpack, .tstore, .freq], ∃ t, exec i scene = .next t :=
  ⟨by decide +kernel, fun i _ => (witness_EveryCommandCompletes i).imp fun _ h => h.1⟩

theorem witness_DutiesDecideRefusal_device :
    ¬ (PlainMemory [{ base := 0x1000, size := 1, kind := .device }] (freqRegions scene).reads ∧
      PlainMemory [{ base := 0x1000, size := 1, kind := .device }] (freqRegions scene).writes) := by
  intro h
  have := h.1 0x1000 (by decide) (by decide) (by decide)
  simp [kindOf] at this

theorem witness_DutiesDecideRefusal_overlap :
    let s := { scene with cfg := { scene.cfg with dstBase := 0x1003#32 } }
    PlainMemory s.platform (commandRegions .pack s).reads ∧ PlainMemory s.platform (commandRegions .pack s).writes ∧
      ¬ Apart (overlapRegions .pack s).reads (overlapRegions .pack s).writes :=
  ⟨plain_nil _, plain_nil _, fun h => h 0x1003 ⟨by decide +kernel, by decide +kernel⟩⟩

theorem witness_EmptyInExactlyFiveCases :
    (machine 0 0 0 []).status.empty = false ∧ sampleCount (machine 0 0 0 []) = 0 ∧ (machine 0 0 0 []).root = none ∧
      ∀ i ∈ [Instr.freq, .tree, .codes, .pack, .unpack],
        check (exec i (machine 0 0 0 [])) (fun t => t.status.empty) = true := by decide +kernel

/-- One BUS_ERROR in each region. -/
theorem witness_FaultAddrIsExact :
    check (exec .freq (withHole 0x1003 scene)) (fun t => t.errors.code == 3#4 && t.errors.faultAddr == 0x1003#32) = true ∧
    check (exec .pack (withHole 0x1000 scene)) (fun t => t.errors.code == 3#4 && t.errors.faultAddr == 0x1000#32) = true ∧
    check (exec .pack (withHole 0x2000 scene)) (fun t => t.errors.code == 3#4 && t.errors.faultAddr == 0x2000#32) = true ∧
    check (exec .tstore (withHole 0x300A scene)) (fun t => t.errors.code == 3#4 && t.errors.faultAddr == 0x300A#32) = true ∧
    check (exec .tload (withHole 0x3001 scene)) (fun t => t.errors.code == 3#4 && t.errors.faultAddr == 0x3001#32) = true ∧
    check (exec .unpack (withHole 0x1000 packed)) (fun t => t.errors.code == 3#4 && t.errors.faultAddr == 0x1000#32) = true ∧
    check (exec .unpack (withHole 0x2003 packed)) (fun t => t.errors.code == 3#4 && t.errors.faultAddr == 0x2003#32) = true := by
  decide +kernel

theorem witness_FreqCountsEverySample :
    sampleCount scene = 4 ∧ AllAdmitted scene.platform { base := srcAddr scene, len := sampleCount scene } ∧
      PlainMemory scene.platform { base := srcAddr scene, len := sampleCount scene } :=
  ⟨by decide, admitted_nil (by decide), plain_nil _⟩

theorem witness_FreqBusErrorAtLowestIndex :
    let s := withHole 0x1003 scene
    3 < sampleCount s ∧ AllAdmitted s.platform { base := srcAddr s, len := 3 } ∧
      admitted s.platform (srcAddr s + 3) = false ∧ PlainMemory s.platform { base := srcAddr s, len := sampleCount s } :=
  ⟨by decide, admitted_hole (by decide) (by decide), by decide, plain_hole _ _⟩

theorem witness_FrequencyConservation : ∃ t, exec .freq scene = .next t ∧ t.status.err = false := by
  obtain ⟨t, h, hc⟩ := next_of_check (p := fun t => !t.status.err) (o := exec .freq scene) (by decide +kernel)
  exact ⟨t, h, by simpa using hc⟩

/-- The scenario's counts. -/
def counted : State := { scene with freq := freqOf [(10, 2), (20, 1), (30, 1)] }

theorem single : presentValues (freqOf [(7, 5)]) = [7#8] := by decide +kernel

theorem witness_TreeBuildsTheNodeStore :
    presentValues scene.freq = [] ∧ (presentValues counted.freq).length = 2 + 1 ∧
      (presentValues (freqOf [(7, 5)])).length = 0 + 1 ∧ FreqFits counted := by
  refine ⟨by simp [presentValues, scene, machine, State.reset, tabGet], by decide +kernel, single ▸ rfl, ?_⟩
  unfold FreqFits
  decide +kernel

theorem witness_TreeMergesTheTwoSmallestKeys :
    ∃ t, exec .tree counted = .next t ∧ t.nodes[4]? = some (Node.internal 4#32 0 3) := by
  obtain ⟨t, h, hc⟩ :=
    next_of_check (p := fun t => t.nodes[4]? == some (Node.internal 4#32 0 3)) (o := exec .tree counted) (by decide +kernel)
  exact ⟨t, h, by simpa using hc⟩

/-- Two leaves and their parent. -/
def smallTree : List Node := [.leaf 1#8 1#32, .leaf 2#8 1#32, .internal 2#32 0 1]

theorem smallTree_ok : NodeStoreOk smallTree (some 2) := by
  refine ⟨by decide, by decide, ?_, ?_, by decide, by decide⟩ <;>
  · intro i w l r h
    rcases i with _ | _ | _ | i <;> simp [smallTree, weightAt] at h ⊢
    obtain ⟨rfl, rfl, rfl⟩ := h
    decide

theorem leaf_ok : NodeStoreOk [.leaf 7#8 5#32] (some 0) := by
  refine ⟨by decide, by decide, ?_, ?_, by decide, by decide⟩ <;>
  · intro i w l r h
    rcases i with _ | i <;> simp at h

theorem witness_CodesAreRootToLeafPaths :
    NodeStoreOk smallTree (some 2) ∧ smallTree[2]? = some (Node.internal 2#32 0 1) ∧
      NodeStoreOk [.leaf 7#8 5#32] (some 0) ∧ [Node.leaf 7#8 5#32][0]? = some (Node.leaf 7#8 5#32) :=
  ⟨smallTree_ok, rfl, leaf_ok, rfl⟩

theorem witness_CodesWithoutATree : State.reset.root = none := rfl

theorem two : 2 ≤ (presentValues counted.freq).length := by decide +kernel

theorem witness_HuffmanCodeIsCompletePrefixCode :
    presentValues counted.freq ≠ [] ∧ 2 ≤ (presentValues counted.freq).length ∧ presentValues (freqOf [(7, 5)]) = [7#8] ∧
      ∃ t u, exec .tree counted = .next t ∧ exec .codes t = .next u :=
  ⟨fun h => absurd two (by simp [h]), two, single, _, _, rfl, rfl⟩

/-! PACK. -/

theorem coded {s : State} {vs : List Byte} (h : vs.all (fun v => codeAt s v != []) = true) : ∀ v ∈ vs, codeAt s v ≠ [] := by
  simpa using h

theorem witness_PackWritesTheStream :
    Memory.wf scene.mem = true ∧ DutiesKept .pack scene ∧ streamBits scene (matrixAt scene) = [false, false, true, false, true, true] ∧
      AllAdmitted scene.platform { base := srcAddr scene, len := sampleCount scene } ∧
      (∀ v ∈ matrixAt scene, codeAt scene v ≠ []) ∧ AllAdmitted scene.platform { base := dstAddr scene, len := 1 } :=
  ⟨by decide +kernel, duties_nil rfl (by decide +kernel), by decide +kernel, admitted_nil (by decide),
    coded (by decide +kernel), admitted_nil (by decide)⟩

theorem witness_PackStopsAtFirstBadSample_bus :
    let s := withHole 0x1003 scene
    Memory.wf s.mem = true ∧ DutiesKept .pack s ∧ 3 < sampleCount s ∧ (∀ u ∈ (matrixAt s).take 3, codeAt s u ≠ []) ∧
      AllAdmitted s.platform { base := srcAddr s, len := 3 } ∧ (streamBits s ((matrixAt s).take 3)).length / 8 = 0 ∧
      AllAdmitted s.platform { base := dstAddr s, len := 0 } ∧ admitted s.platform (srcAddr s + 3) = false :=
  ⟨by decide +kernel, duties_hole rfl (by decide +kernel), by decide, coded (by decide +kernel),
    admitted_hole (by decide) (by decide), by decide +kernel, allAdmitted_zero _ _, by decide⟩

theorem witness_PackStopsAtFirstBadSample_uncoded :
    Memory.wf uncoded.mem = true ∧ DutiesKept .pack uncoded ∧ 2 < sampleCount uncoded ∧
      (∀ u ∈ (matrixAt uncoded).take 2, codeAt uncoded u ≠ []) ∧
      AllAdmitted uncoded.platform { base := srcAddr uncoded, len := 2 } ∧
      (streamBits uncoded ((matrixAt uncoded).take 2)).length / 8 = 0 ∧
      AllAdmitted uncoded.platform { base := dstAddr uncoded, len := 0 } ∧
      admitted uncoded.platform (srcAddr uncoded + 2) = true ∧ (matrixAt uncoded)[2]? = some 40#8 ∧
      codeAt uncoded 40#8 = [] :=
  ⟨by decide +kernel, duties_nil rfl (by decide +kernel), by decide, coded (by decide +kernel), admitted_nil (by decide),
    by decide +kernel, allAdmitted_zero _ _, by decide, by decide +kernel, by decide +kernel⟩

/-- Eight samples whose last bit completes output byte 0, which is not admitted. -/
def fullByte : State := withHole 0x2000 { machine 8 0 0x1000 [10, 10, 10, 10, 10, 10, 10, 10] with codes := codesS }

theorem witness_PackBusErrorOnOutputByte_full :
    Memory.wf fullByte.mem = true ∧ DutiesKept .pack fullByte ∧ 7 < sampleCount fullByte ∧
      (streamBits fullByte ((matrixAt fullByte).take 7)).length = 7 ∧
      (streamBits fullByte ((matrixAt fullByte).take (7 + 1))).length = 8 ∧
      (∀ u ∈ (matrixAt fullByte).take (7 + 1), codeAt fullByte u ≠ []) ∧
      AllAdmitted fullByte.platform { base := srcAddr fullByte, len := min (7 + 1) (sampleCount fullByte) } ∧
      AllAdmitted fullByte.platform { base := dstAddr fullByte, len := 0 } ∧
      admitted fullByte.platform (dstAddr fullByte + 0) = false :=
  ⟨by decide +kernel, duties_hole rfl (by decide +kernel), by decide, by decide +kernel, by decide +kernel,
    coded (by decide +kernel), admitted_hole (by decide) (by decide), allAdmitted_zero _ _, by decide⟩

theorem witness_PackBusErrorOnOutputByte_last :
    let s := withHole 0x2000 scene
    Memory.wf s.mem = true ∧ DutiesKept .pack s ∧ sampleCount s = 4 ∧ (streamBits s ((matrixAt s).take 4)).length = 6 ∧
      (∀ u ∈ (matrixAt s).take (4 + 1), codeAt s u ≠ []) ∧
      AllAdmitted s.platform { base := srcAddr s, len := min (4 + 1) (sampleCount s) } ∧
      AllAdmitted s.platform { base := dstAddr s, len := 0 } ∧ admitted s.platform (dstAddr s + 0) = false :=
  ⟨by decide +kernel, duties_hole rfl (by decide +kernel), by decide, by decide +kernel, coded (by decide +kernel),
    admitted_hole (by decide) (by decide), allAdmitted_zero _ _, by decide⟩

/-! Tables. -/

theorem fits_of_all {codes : Vector BitString 256} (h : (allValues.all fun v => decide ((tabGet codes v).length ≤ 255)) = true) :
    CodesFit codes := by
  intro v
  rw [List.all_eq_true] at h
  have hv : v ∈ allValues := by
    simp only [allValues, List.mem_map, List.mem_range]
    exact ⟨v.toNat, v.isLt, BitVec.ofNat_toNat 8 v ▸ by simp⟩
  simpa [Config.maxLen] using h v hv

/-- Prefix-freeness of a table, decided over its values. -/
theorem prefixFree_of_all {codes : Vector BitString 256}
    (h : ((allValues.filter fun v => tabGet codes v != []).all fun u =>
      (allValues.filter fun v => tabGet codes v != []).all fun v =>
        u == v || !(tabGet codes u).isPrefixOf (tabGet codes v)) = true) : PrefixFreeCodes codes := by
  intro u v huv hu hv hp
  have mem : ∀ w : Byte, tabGet codes w ≠ [] → w ∈ allValues.filter fun v => tabGet codes v != [] := by
    intro w hw
    simp only [List.mem_filter, allValues, List.mem_map, List.mem_range, bne_iff_ne]
    exact ⟨⟨w.toNat, w.isLt, BitVec.ofNat_toNat 8 w ▸ by simp⟩, hw⟩
  rw [List.all_eq_true] at h
  have h' := h u (mem u hu)
  rw [List.all_eq_true] at h'
  have h'' := h' v (mem v hv)
  simp only [Bool.or_eq_true, beq_iff_eq, Bool.not_eq_true', huv, false_or] at h''
  exact absurd (List.isPrefixOf_iff_prefix.2 hp) (by simp [h''])

theorem codesS_prefixFree : PrefixFreeCodes codesS := prefixFree_of_all (by decide +kernel)

theorem codesS_fit : CodesFit codesS := fits_of_all (by decide +kernel)

theorem witness_SerializedTableLength :
    CodesFit codesS ∧ ∀ v, (tabGet (Vector.replicate 256 (List.replicate 255 true)) v).length = 255 :=
  ⟨codesS_fit, fun v => by rw [tabGet, Vector.getElem_replicate, List.length_replicate]⟩

theorem witness_TstoreWritesTheTable :
    Memory.wf scene.mem = true ∧ (serializeTable scene.codes).length = 11 ∧
      AllAdmitted scene.platform { base := tableAddr scene, len := 11 } ∧
      PlainMemory scene.platform { base := tableAddr scene, len := 11 } :=
  ⟨by decide +kernel, by decide +kernel, admitted_nil (by decide), plain_nil _⟩

theorem witness_TstoreBusErrorAtOffset :
    let s := withHole 0x300A scene
    Memory.wf s.mem = true ∧ (serializeTable s.codes).length = 11 ∧ AllAdmitted s.platform { base := tableAddr s, len := 10 } ∧
      admitted s.platform (tableAddr s + 10) = false ∧ PlainMemory s.platform { base := tableAddr s, len := 11 } :=
  ⟨by decide +kernel, by decide +kernel, admitted_hole (by decide) (by decide), by decide, plain_hole _ _⟩

/-- The scenario's table in memory. -/
def stored : State := machine 4 0 0x3000 [0x03, 0x00, 0x0A, 0x01, 0x00, 0x14, 0x02, 0x80, 0x1E, 0x02, 0xC0]

theorem witness_TloadReadsASerializedTable :
    PrefixFreeCodes codesS ∧ CodesFit codesS ∧ (serializeTable codesS).length = 11 ∧
      loadBytes stored.mem (tableAddr stored) 11 = serializeTable codesS ∧
      AllAdmitted stored.platform { base := tableAddr stored, len := 11 } ∧
      PlainMemory stored.platform { base := tableAddr stored, len := 11 } :=
  ⟨codesS_prefixFree, codesS_fit, by decide +kernel, by decide +kernel, admitted_nil (by decide), plain_nil _⟩

/-- The hypotheses on the first address of the table that is not admitted. -/
def FirstBad (s : State) (j : Nat) : Prop :=
  AllAdmitted s.platform { base := tableAddr s, len := j } ∧ admitted s.platform (tableAddr s + j) = false ∧
    PlainMemory s.platform { base := tableAddr s, len := j }

/-- The first j bytes of the serialized table stand, for j = 0 and for the last byte. -/
theorem witness_TloadBusErrorAtOffset_serialized :
    CodesFit codesS ∧ (serializeTable codesS).length = 11 ∧
      (loadBytes stored.mem (tableAddr stored) 10 = (serializeTable codesS).take 10) ∧
      FirstBad (withHole 0x300A stored) 10 ∧ FirstBad (withHole 0x3000 stored) 0 :=
  ⟨codesS_fit, by decide +kernel, by decide +kernel, ⟨admitted_hole (by decide) (by decide), by decide, plain_hole _ _⟩,
    ⟨allAdmitted_zero _ _, by decide, plain_hole _ _⟩⟩

theorem witness_TloadBusErrorAtOffset_count : FirstBad (withHole 0x3000 scene) 0 ∧ FirstBad (withHole 0x3001 scene) 1 :=
  ⟨⟨allAdmitted_zero _ _, by decide, plain_hole _ _⟩, ⟨admitted_hole (by decide) (by decide), by decide, plain_hole _ _⟩⟩

/-- The hypotheses of the last clause: entries, and what stands of the next one. -/
def CutTable (s : State) (es : List (Byte × BitString)) (lo hi : Byte) (more : List Byte) : Prop :=
  let entries := es.flatMap (fun e => e.1 :: BitVec.ofNat 8 e.2.length :: packBytes e.2)
  let n := 2 + entries.length + more.length
  loadBytes s.mem (tableAddr s) n = lo :: hi :: (entries ++ more) ∧ FirstBad s n ∧
    (es.map Prod.fst).Pairwise (· < ·) ∧ (∀ e ∈ es, e.2 ≠ [] ∧ e.2.length ≤ 255) ∧
    lo.toNat + 256 * hi.toNat ≤ 256 ∧ es.length < lo.toNat + 256 * hi.toNat

/-- K = 2, the first VALUE the highest, and the second VALUE's byte not admitted. -/
theorem witness_TloadBusErrorAtOffset_value :
    CutTable (withHole 0x3005 (machine 4 0 0x3000 [2, 0, 0xFF, 1, 0])) [(0xFF#8, [false])] 2#8 0#8 [] :=
  ⟨by decide +kernel, ⟨admitted_hole (by decide) (by decide), by decide, plain_hole _ _⟩, by decide, by decide, by decide,
    by decide⟩

/-- K = 256, and the first LEN's byte not admitted. -/
theorem witness_TloadBusErrorAtOffset_len :
    CutTable (withHole 0x3003 (machine 4 0 0x3000 [0, 1, 5])) [] 0#8 1#8 [5#8] ∧
      ∀ e ∈ ([] : List (Byte × BitString)).getLast?, e.1 < (5#8 : Byte) :=
  ⟨⟨by decide +kernel, ⟨admitted_hole (by decide) (by decide), by decide, plain_hole _ _⟩, by decide, by decide, by decide,
    by decide⟩, by decide⟩

/-- LEN = 9, and the second of its two bytes not admitted. -/
theorem witness_TloadBusErrorAtOffset_bits :
    CutTable (withHole 0x3008 (machine 4 0 0x3000 [2, 0, 4, 1, 0, 5, 9, 0x80])) [(4#8, [false])] 2#8 0#8 [5#8, 9#8, 0x80#8] ∧
      (∀ e ∈ [((4#8 : Byte), [false])].getLast?, e.1 < (5#8 : Byte)) ∧ [(0x80#8 : Byte)].length < ((9#8 : Byte).toNat + 7) / 8 :=
  ⟨⟨by decide +kernel, ⟨admitted_hole (by decide) (by decide), by decide, plain_hole _ _⟩, by decide, by decide, by decide,
    by decide⟩, by decide, by decide⟩

theorem witness_TloadFailureKeepsTheTable :
    ∃ t, exec .tload (machine 4 0 0x3000 [1, 1]) = .next t ∧ t.status.err = true :=
  next_of_check (p := fun t => t.status.err) (by decide +kernel)

/-- The shared hypotheses of `Obligations.TloadReportsTheFirstDefect`. -/
def DefectHypotheses (s : State) (es : List (Byte × BitString)) (lo hi : Byte) (more : List Byte) : Prop :=
  let entries := es.flatMap (fun e => e.1 :: BitVec.ofNat 8 e.2.length :: packBytes e.2)
  let n := 2 + entries.length + more.length
  loadBytes s.mem (tableAddr s) n = lo :: hi :: (entries ++ more) ∧
    AllAdmitted s.platform { base := tableAddr s, len := n } ∧ PlainMemory s.platform { base := tableAddr s, len := n } ∧
    (es.map Prod.fst).Pairwise (· < ·) ∧ ∀ e ∈ es, e.2 ≠ [] ∧ e.2.length ≤ 255

/-- An entry count of 257. -/
theorem witness_TloadReportsTheFirstDefect_1 : DefectHypotheses (machine 4 0 0x3000 [1, 1]) [] 1#8 1#8 [] :=
  ⟨by decide +kernel, admitted_nil (by decide), plain_nil _, by decide, by decide⟩

/-- A second entry with the first one's VALUE. -/
theorem witness_TloadReportsTheFirstDefect_2 :
    DefectHypotheses (machine 4 0 0x3000 [2, 0, 5, 1, 0, 5]) [(5#8, [false])] 2#8 0#8 [5#8] ∧
      ∃ e ∈ [((5#8 : Byte), [false])].getLast?, (5#8 : Byte) ≤ e.1 :=
  ⟨⟨by decide +kernel, admitted_nil (by decide), plain_nil _, by decide, by decide⟩, _, rfl, by decide⟩

/-- LEN = 0 in a table whose count is 256, the largest. -/
theorem witness_TloadReportsTheFirstDefect_3 :
    DefectHypotheses (machine 4 0 0x3000 [0, 1, 5, 0]) [] 0#8 1#8 [5#8, 0#8] ∧
      ∀ e ∈ ([] : List (Byte × BitString)).getLast?, e.1 < (5#8 : Byte) :=
  ⟨⟨by decide +kernel, admitted_nil (by decide), plain_nil _, by decide, by decide⟩, by decide⟩

/-- A code of one bit with its first padding bit 1. -/
theorem witness_TloadReportsTheFirstDefect_4 :
    DefectHypotheses (machine 4 0 0x3000 [1, 0, 5, 1, 0x40]) [] 1#8 0#8 [5#8, 1#8, 0x40#8] ∧
      [(0x40#8 : Byte)].length = ((1#8 : Byte).toNat + 7) / 8 ∧
      ∃ q, (1#8 : Byte).toNat ≤ q ∧ (bitsOfBytes [0x40#8])[q]? = some true :=
  ⟨⟨by decide +kernel, admitted_nil (by decide), plain_nil _, by decide, by decide⟩, by decide, 1, by decide, by decide⟩

/-- "0" and "00". -/
theorem witness_TloadReportsTheFirstDefect_5 :
    DefectHypotheses (machine 4 0 0x3000 [2, 0, 5, 1, 0, 6, 2, 0]) [(5#8, [false]), (6#8, [false, false])] 2#8 0#8 [] ∧
      ∃ d ∈ [((5#8 : Byte), [false]), (6#8, [false, false])], ∃ e ∈ [((5#8 : Byte), [false]), (6#8, [false, false])],
        d.1 ≠ e.1 ∧ d.2 <+: e.2 :=
  ⟨⟨by decide +kernel, admitted_nil (by decide), plain_nil _, by decide, by decide⟩, _, List.mem_cons_self,
    _, List.mem_cons_of_mem _ List.mem_cons_self, by decide, by decide⟩

theorem witness_TstoreThenTloadIsIdentity :
    Memory.wf scene.mem = true ∧ PrefixFreeCodes scene.codes ∧ CodesFit scene.codes ∧
      ∃ t v, exec .tstore scene = .next t ∧ t.status.err = false ∧ t.cfg.tableBase = scene.cfg.tableBase ∧
        exec .tload t = .next v ∧ v.status.err = false := by
  have h : check (exec .tstore scene)
      (fun t => !t.status.err && t.cfg.tableBase == scene.cfg.tableBase && check (exec .tload t) (fun v => !v.status.err)) = true := by
    decide +kernel
  obtain ⟨t, h1, h2⟩ := next_of_check h
  simp only [Bool.and_eq_true, Bool.not_eq_true', beq_iff_eq] at h2
  obtain ⟨v, h3, h4⟩ := next_of_check h2.2
  exact ⟨by decide +kernel, codesS_prefixFree, codesS_fit, t, v, h1, h2.1.1, h2.1.2, h3, by simpa using h4⟩

/-! UNPACK. -/

theorem witness_UnpackDecodesTheStream :
    let vs := bytes [10, 10, 20, 30]
    Memory.wf packed.mem = true ∧ DutiesKept .unpack packed ∧ PrefixFreeCodes packed.codes ∧ vs.length = sampleCount packed ∧
      (∀ v ∈ vs, codeAt packed v ≠ []) ∧ ((streamBits packed vs).length + 7) / 8 = 1 ∧ 1 ≤ inByteCount packed ∧
      streamBits packed vs <+: bitsOfBytes (loadBytes packed.mem (srcAddr packed) 1) ∧
      AllAdmitted packed.platform { base := srcAddr packed, len := 1 } ∧
      AllAdmitted packed.platform { base := dstAddr packed, len := sampleCount packed } :=
  ⟨by decide +kernel, duties_nil rfl (by decide +kernel), codesS_prefixFree, by decide, coded (by decide +kernel),
    by decide +kernel, by decide, by decide +kernel, admitted_nil (by decide), admitted_nil (by decide)⟩

/-- The byte 2D spells 10 10 20 30 10 and the first bit of a longer code; six samples are asked for. -/
def cutShort (n : Nat) : State := { machine 6 n 0x1000 [0x2D] with codes := codesS }

theorem witness_UnpackNeedsAByteItCannotRead_exhausted :
    let s := cutShort 1
    let vs := bytes [10, 10, 20, 30, 10]
    Memory.wf s.mem = true ∧ DutiesKept .unpack s ∧ PrefixFreeCodes s.codes ∧ vs.length < sampleCount s ∧
      (∀ v ∈ vs, codeAt s v ≠ []) ∧ (∃ u, [true] <+: codeAt s u ∧ [true] ≠ codeAt s u) ∧
      bitsOfBytes (loadBytes s.mem (srcAddr s) 1) = streamBits s vs ++ [true] ∧ 1 = inByteCount s ∧
      AllAdmitted s.platform { base := srcAddr s, len := 1 } ∧ AllAdmitted s.platform { base := dstAddr s, len := vs.length } :=
  ⟨by decide +kernel, duties_nil rfl (by decide +kernel), codesS_prefixFree, by decide, coded (by decide +kernel),
    ⟨20#8, by decide +kernel, by decide +kernel⟩, by decide +kernel, by decide, admitted_nil (by decide), admitted_nil (by decide)⟩

theorem witness_UnpackNeedsAByteItCannotRead_bus :
    let s := withHole 0x1001 (cutShort 2)
    let vs := bytes [10, 10, 20, 30, 10]
    Memory.wf s.mem = true ∧ DutiesKept .unpack s ∧ PrefixFreeCodes s.codes ∧ vs.length < sampleCount s ∧
      (∀ v ∈ vs, codeAt s v ≠ []) ∧ (∃ u, [true] <+: codeAt s u ∧ [true] ≠ codeAt s u) ∧
      bitsOfBytes (loadBytes s.mem (srcAddr s) 1) = streamBits s vs ++ [true] ∧ 1 < inByteCount s ∧
      admitted s.platform (srcAddr s + 1) = false ∧
      AllAdmitted s.platform { base := srcAddr s, len := 1 } ∧ AllAdmitted s.platform { base := dstAddr s, len := vs.length } :=
  ⟨by decide +kernel, duties_hole rfl (by decide +kernel), codesS_prefixFree, by decide, coded (by decide +kernel),
    ⟨20#8, by decide +kernel, by decide +kernel⟩, by decide +kernel, by decide, by decide,
    admitted_hole (by decide) (by decide), admitted_hole (by decide) (by decide)⟩

theorem witness_UnpackBusErrorOnSampleWrite :
    let s := withHole 0x2003 packed
    let vs := bytes [10, 10, 20]
    Memory.wf s.mem = true ∧ DutiesKept .unpack s ∧ PrefixFreeCodes s.codes ∧ vs.length < sampleCount s ∧
      (∀ u ∈ vs ++ [30#8], codeAt s u ≠ []) ∧ ((streamBits s (vs ++ [30#8])).length + 7) / 8 = 1 ∧ 1 ≤ inByteCount s ∧
      streamBits s (vs ++ [30#8]) <+: bitsOfBytes (loadBytes s.mem (srcAddr s) 1) ∧
      AllAdmitted s.platform { base := srcAddr s, len := 1 } ∧
      AllAdmitted s.platform { base := dstAddr s, len := vs.length } ∧
      admitted s.platform (dstAddr s + vs.length) = false :=
  ⟨by decide +kernel, duties_hole rfl (by decide +kernel), codesS_prefixFree, by decide, coded (by decide +kernel),
    by decide +kernel, by decide, by decide +kernel, admitted_hole (by decide) (by decide),
    admitted_hole (by decide) (by decide), by decide⟩

theorem deadEnd_codes (u : Byte) : codeAt deadEnd u = [] ∨ codeAt deadEnd u = [false] := by
  have h : (allValues.all fun u => codeAt deadEnd u == [] || codeAt deadEnd u == [false]) = true := by decide +kernel
  rw [List.all_eq_true] at h
  have hu : u ∈ allValues := by
    simp only [allValues, List.mem_map, List.mem_range]
    exact ⟨u.toNat, u.isLt, BitVec.ofNat_toNat 8 u ▸ by simp⟩
  simpa using h u hu

theorem witness_UnpackReportsDeadEnd :
    let vs := bytes [7]
    Memory.wf deadEnd.mem = true ∧ DutiesKept .unpack deadEnd ∧ PrefixFreeCodes deadEnd.codes ∧
      vs.length < sampleCount deadEnd ∧ (∀ v ∈ vs, codeAt deadEnd v ≠ []) ∧
      (∀ u, codeAt deadEnd u ≠ [] → ¬ ([] ++ [true]) <+: codeAt deadEnd u) ∧
      ((streamBits deadEnd vs ++ ([] ++ [true])).length + 7) / 8 = 1 ∧ 1 ≤ inByteCount deadEnd ∧
      streamBits deadEnd vs ++ ([] ++ [true]) <+: bitsOfBytes (loadBytes deadEnd.mem (srcAddr deadEnd) 1) ∧
      AllAdmitted deadEnd.platform { base := srcAddr deadEnd, len := 1 } ∧
      AllAdmitted deadEnd.platform { base := dstAddr deadEnd, len := vs.length } :=
  ⟨by decide +kernel, duties_nil rfl (by decide +kernel), prefixFree_of_all (by decide +kernel), by decide,
    coded (by decide +kernel), fun u hu => by rcases deadEnd_codes u with h | h <;> simp_all, by decide +kernel, by decide,
    by decide +kernel, admitted_nil (by decide), admitted_nil (by decide)⟩

/-! The codec. -/

/-- The state from which DECOMPRESS runs on the artifacts in a memory: the stream at 0x2000, the table at 0x3000, output at
0x4000. -/
def artifacts (m : Memory) (n : Word) : State :=
  { State.reset with
    cfg := { width := 4#16, height := 1#16, srcBase := 0x2000#32, dstBase := 0x4000#32, tableBase := 0x3000#32, inBytes := n }
    mem := m }

theorem witness_CompressThenDecompressRestoresTheMatrix :
    ∃ s1 s2 s3 s4 s5 u, Memory.wf scene.mem = true ∧ Memory.wf u.mem = true ∧ sampleCount scene ≠ 0 ∧
      exec .freq scene = .next s1 ∧ s1.status.err = false ∧ exec .tree s1 = .next s2 ∧ exec .codes s2 = .next s3 ∧
      exec .pack s3 = .next s4 ∧ s4.status.err = false ∧ exec .tstore s4 = .next s5 ∧ s5.status.err = false ∧
      Apart { base := dstAddr scene, len := s5.results.streamBytes.toNat }
        { base := tableAddr scene, len := s5.results.tableBytes.toNat } ∧
      u.cfg.width = scene.cfg.width ∧ u.cfg.height = scene.cfg.height ∧ u.cfg.srcBase = scene.cfg.dstBase ∧
      u.cfg.tableBase = scene.cfg.tableBase ∧ u.cfg.inBytes = s5.results.streamBytes ∧ u.mem = s5.mem ∧
      (∀ r ∈ [{ base := srcAddr u, len := inByteCount u : Span }, { base := dstAddr u, len := sampleCount u },
          { base := tableAddr u, len := s5.results.tableBytes.toNat }],
        AllAdmitted u.platform r ∧ PlainMemory u.platform r) ∧
      Apart { base := srcAddr u, len := inByteCount u } { base := dstAddr u, len := sampleCount u } := by
  have h : check (exec .freq scene) (fun s1 => !s1.status.err && check (exec .tree s1) (fun s2 => check (exec .codes s2)
      (fun s3 => check (exec .pack s3) (fun s4 => !s4.status.err && check (exec .tstore s4)
        (fun s5 => !s5.status.err && Memory.wf s5.mem && s5.results.streamBytes == 1#32
          && s5.results.tableBytes == 11#32))))) = true := by decide +kernel
  obtain ⟨s1, h1, h⟩ := next_of_check h
  simp only [Bool.and_eq_true, Bool.not_eq_true'] at h
  obtain ⟨s2, h2, h'⟩ := next_of_check h.2
  obtain ⟨s3, h3, h'⟩ := next_of_check h'
  obtain ⟨s4, h4, h'⟩ := next_of_check h'
  simp only [Bool.and_eq_true, Bool.not_eq_true'] at h'
  obtain ⟨s5, h5, h''⟩ := next_of_check h'.2
  simp only [Bool.and_eq_true, Bool.not_eq_true', beq_iff_eq] at h''
  refine ⟨s1, s2, s3, s4, s5, artifacts s5.mem 1#32, by decide +kernel, h''.1.1.2, by decide, h1, h.1, h2, h3, h4, h'.1, h5,
    h''.1.1.1, ?_, rfl, rfl, rfl, rfl, h''.1.2.symm, rfl, ?_, ?_⟩
  · rw [h''.1.2, h''.2]
    exact (meets_eq_false_iff _ _).1 (by decide)
  · rw [h''.2]
    intro r hr
    simp only [List.mem_cons, List.not_mem_nil, or_false] at hr
    rcases hr with rfl | rfl | rfl
    · exact ⟨admitted_nil (by decide : 0x2000 + 1 ≤ 0xFFFFFFFF), plain_nil _⟩
    · exact ⟨admitted_nil (by decide : 0x4000 + 4 ≤ 0xFFFFFFFF), plain_nil _⟩
    · exact ⟨admitted_nil (by decide : 0x3000 + 11 ≤ 0xFFFFFFFF), plain_nil _⟩
  · exact (meets_eq_false_iff { base := 0x2000, len := 1 } { base := 0x4000, len := 4 }).1 (by decide)

theorem witness_TruncationIsDetected :
    ∃ t u, Memory.wf scene.mem = true ∧ PrefixFreeCodes scene.codes ∧ sampleCount scene ≠ 0 ∧ exec .pack scene = .next t ∧
      t.status.err = false ∧ u.cfg.width = scene.cfg.width ∧ u.cfg.height = scene.cfg.height ∧ u.codes = scene.codes ∧
      u.cfg.srcBase = scene.cfg.dstBase ∧ inByteCount u + 1 = t.results.streamBytes.toNat ∧ u.mem = t.mem ∧
      DutiesKept .unpack u ∧ AllAdmitted u.platform { base := srcAddr u, len := inByteCount u } ∧
      AllAdmitted u.platform { base := dstAddr u, len := sampleCount u } := by
  have h : check (exec .pack scene) (fun t => !t.status.err && t.results.streamBytes == 1#32) = true := by decide +kernel
  obtain ⟨t, h1, h⟩ := next_of_check h
  simp only [Bool.and_eq_true, Bool.not_eq_true', beq_iff_eq] at h
  refine ⟨t, { artifacts t.mem 0#32 with codes := codesS }, by decide +kernel, codesS_prefixFree, by decide, h1, h.1, rfl, rfl,
    rfl, rfl, by rw [h.2]; rfl, rfl, duties_nil rfl ?_, allAdmitted_zero _ _, admitted_nil (by decide : 0x4000 + 4 ≤ 0xFFFFFFFF)⟩
  exact (by decide : Span.meets { base := 0x2000, len := 0 } { base := 0x4000, len := 4 } = false)

/-! Invariants: NOP accepted after reset. -/

theorem busyNop_inv : Inv busyNop := by
  refine ⟨rfl, busyNop_flags, ?_, ?_, ?_, ?_,
    ⟨?_, rfl, rfl, ?_, fun v => ?_, .inl rfl⟩⟩
  · have hz : ∀ v, freqAt busyNop v = 0#32 := fun v => Vector.getElem_replicate v.isLt
    simp only [FreqFits, hz]
    decide +kernel
  · refine ⟨by decide, by decide, ?_, ?_, by decide, by decide⟩ <;> intro i w l r h <;> simp [busyNop, accept, State.reset] at h
  · intro u v _ hu
    simp [busyNop, accept, State.reset, tabGet] at hu
  · intro v
    simp [busyNop, accept, State.reset, tabGet, Config.maxLen]
  · simp [busyNop, accept, State.reset, presentValues, tabGet]
  · simp [busyNop, accept, State.reset, codeAt, tabGet]
  · simp [busyNop, accept, State.reset, codeAt, tabGet]

theorem witness_StepKeepsInvariant : ∃ t, Inv busyNop ∧ step busyNop = .next t := ⟨_, busyNop_inv, rfl⟩

theorem witness_FlagsStayConsistent : ∃ t, FlagsOk busyNop ∧ step busyNop = .next t := ⟨_, busyNop_flags, rfl⟩

theorem witness_CodeTableStaysPrefixFree :
    ∃ t, PrefixFreeCodes (accept 0x40#32 scene).codes ∧ step (accept 0x40#32 scene) = .next t := by
  obtain ⟨t, h, -⟩ := next_of_check (p := fun _ => true) (o := step (accept 0x40#32 scene)) (by decide +kernel)
  exact ⟨t, codesS_prefixFree, h⟩

theorem witness_StepKeepsMemoryCanonical :
    ∃ t, Memory.wf (accept 0x40#32 scene).mem = true ∧ step (accept 0x40#32 scene) = .next t := by
  obtain ⟨t, -, h⟩ := witness_CodeTableStaysPrefixFree
  exact ⟨t, by decide +kernel, h⟩

end Sys2Proof.Tests
end

section
/-!
The register port's writes (10_state R24 to R30 and R48): which offset selects which register, what a write does while a command
runs, and the statements that follow from the two.
-/

namespace Sys2Proof.Machine

/-! ### The register an offset selects -/

theorem singleRegs_nodup : singleRegs.Nodup := by decide

/-- The inverse of the register map (10_state R26) on the registers outside the two windows: no other aligned offset selects
the same register. -/
theorem regOf_eq_iff {r : Reg} {o off : Nat} (hr : singleRegs[o / 4]? = some r) (ho : o % 4 = 0) (hoff : off % 4 = 0) :
    regOf off = r ↔ off = o := by
  obtain ⟨hlen, -⟩ := List.getElem?_eq_some_iff.mp hr
  have hmem : r ∈ singleRegs := List.mem_of_getElem? hr
  have hfreq : ∀ v, Reg.freqWin v ∉ singleRegs := by simp [singleRegs]
  have hlens : ∀ v, Reg.codeLenWin v ∉ singleRegs := by simp [singleRegs]
  have hres : Reg.reserved ∉ singleRegs := by decide
  constructor
  · intro h
    unfold regOf at h
    split_ifs at h
    · exact absurd hmem (h ▸ hfreq _)
    · exact absurd hmem (h ▸ hlens _)
    · have hsame : singleRegs[o / 4]? = singleRegs[off / 4]? := by
        cases hoffr : singleRegs[off / 4]? with
        | none => exact absurd hmem (by simpa [hoffr, ← h] using hres)
        | some q => simpa [hoffr, hr, eq_comm] using h
      have hdiv := (List.getElem?_inj hlen singleRegs_nodup).mp hsame
      omega
  · rintro rfl
    have hlow : off / 4 < 22 := hlen
    rw [regOf, if_neg (by omega), if_neg (by omega), hr, Option.getD_some]

/-- The cfg registers are exactly the ones at the offsets 0x020 to 0x034 (10_state R26). -/
theorem isCfg_regOf_iff {off : Nat} (hoff : off % 4 = 0) :
    (regOf off).isCfg = true ↔ off ∈ [0x020, 0x024, 0x028, 0x02C, 0x030, 0x034] := by
  have hcfg : ∀ r : Reg, r.isCfg = true ↔
      r = .width ∨ r = .height ∨ r = .srcBase ∨ r = .dstBase ∨ r = .tableBase ∨ r = .inBytes := by
    intro r
    cases r <;> simp [Reg.isCfg]
  rw [hcfg, regOf_eq_iff (o := 0x020) rfl rfl hoff, regOf_eq_iff (o := 0x024) rfl rfl hoff,
    regOf_eq_iff (o := 0x028) rfl rfl hoff, regOf_eq_iff (o := 0x02C) rfl rfl hoff,
    regOf_eq_iff (o := 0x030) rfl rfl hoff, regOf_eq_iff (o := 0x034) rfl rfl hoff]
  simp only [List.mem_cons, List.not_mem_nil, or_false]

/-! ### What a write does -/

/-- An access that 10_state R24 allows is not refused. -/
theorem hostRegWrite_of_aligned {off : Nat} (hlt : off < 4096) (hoff : off % 4 = 0) (w : Word) (s : State) :
    hostRegWrite 4 off w s = .next (regWrite (regOf off) w s) :=
  if_pos (by simp [accessOk, Config.registerSpace, hlt, hoff])

theorem busy_of_eng_ne_idle {s : State} (h : s.eng ≠ .idle) : busy s = true := by
  unfold busy
  split
  · contradiction
  · rfl

/-- 10_state R48, by register. -/
theorem regWrite_of_busy {s : State} (h : busy s = true) (r : Reg) (w : Word) :
    regWrite r w s =
      if r = .cmd ∨ r.isCfg = true then setOverrun s
      else if r = .status then writeStatus w s
      else if r = .intEn then { s with doneIe := w.getLsbD 0 }
      else s := by
  cases r <;> simp [regWrite, h, Reg.isCfg]

/-- Settles O10: the offset's register is found by the inverse register map, and R48 says what a write to it does. -/
theorem writesWhileBusy : Obligations.WritesWhileBusy := by
  intro s w off hbusy hlt hoff
  rw [hostRegWrite_of_aligned hlt hoff, regWrite_of_busy (busy_of_eng_ne_idle hbusy)]
  simp only [regOf_eq_iff (o := 0x004) (r := .cmd) rfl rfl hoff, regOf_eq_iff (o := 0x008) (r := .status) rfl rfl hoff,
    regOf_eq_iff (o := 0x01C) (r := .intEn) rfl rfl hoff, isCfg_regOf_iff hoff]
  rfl

/-- Settles O11: offset 0x008 is STATUS, whose write is `writeStatus` whether or not a command runs. -/
theorem statusWriteClears : Obligations.StatusWriteClears := by
  intro s w
  have hclear : ∀ old bit : Bool, (if bit then false else old) = (old && !bit) := by decide
  rw [hostRegWrite_of_aligned (by decide) rfl, hclear, hclear]
  rfl

end Sys2Proof.Machine
end

section
/-!
What a successful FREQ leaves in FREQ (41_frequency_analyzer R121, R122).
-/

namespace Sys2Proof.Machine

/-- A FREQ without an error has read and counted the whole matrix: the other answer of `readSamples` is a BUS_ERROR, which
sets ERR. -/
theorem freqResult_freq_of_noError {s : State} (hok : (freqResult s).status.err = false) :
    (freqResult s).freq = countSamples (matrixAt s) := by
  rcases readSamples_spec s (sampleCount s) 0 with ⟨hread, -⟩ | ⟨m, -, hread, -⟩
  · simp [freqResult, hread, matrixAt]
  · simp [freqResult, hread, CommandError.code] at hok

/-- Settles O33: a successful FREQ holds the counts of the matrix, and these sum to its length, which is N. -/
theorem frequencyConservation : Obligations.FrequencyConservation := by
  intro s t hexec hok
  obtain rfl : t = freqResult s := eq_of_exec_next hexec
  have hfit : (matrixAt s).length ≤ 65535 * 65535 := length_matrixAt s ▸ sampleCount_le s
  calc (allValues.map (fun v => (freqAt (freqResult s) v).toNat)).sum
      = (allValues.map (fun v => (tabGet (countSamples (matrixAt s)) v).toNat)).sum := by
        simp only [freqAt, freqResult_freq_of_noError hok]
    _ = (matrixAt s).length := sum_countSamples hfit
    _ = sampleCount s := length_matrixAt s

end Sys2Proof.Machine
end

section
/-!
The serialized table's least and greatest value (44_bitpacker_encoder R171).
-/

namespace Sys2Proof.Machine

/-- Without a code the serialized table is the entry count 0 alone. -/
theorem serializeTable_of_forall_nil {codes : Vector BitString 256} (h : ∀ v, tabGet codes v = []) :
    serializeTable codes = [0#8, 0#8] := by
  have hnone : allValues.filter (fun v => tabGet codes v != []) = [] := by simp [h]
  rw [serializeTable_eq, entryCount_eq, hnone]
  rfl

/-- With a code of n bits, n positive, for every value, the serialized table has 256 entries of one size. -/
theorem length_serializeTable_of_forall_length {codes : Vector BitString 256} {n : Nat} (hn : 0 < n)
    (h : ∀ v, (tabGet codes v).length = n) : (serializeTable codes).length = 2 + 256 * (2 + bytesFor n) := by
  have hall : allValues.filter (fun v => tabGet codes v != []) = allValues := by
    refine List.filter_eq_self.2 fun v _ => bne_iff_ne.2 ?_
    exact List.ne_nil_of_length_pos (h v ▸ hn)
  rw [length_serializeTable, hall]
  simp only [h, List.map_const', length_allValues, List.sum_replicate, smul_eq_mul]

/-- Settles O42: the two header bytes give the least length, and 256 entries of 34 bytes after them the greatest. -/
theorem serializedTableLength : Obligations.SerializedTableLength := by
  refine ⟨length_serializeTable, fun codes hfit => ⟨?_, length_serializeTable_le hfit⟩, ?_, fun codes h => ?_⟩
  · rw [length_serializeTable]
    exact Nat.le_add_right 2 _
  · exact serializeTable_of_forall_nil (tabGet_replicate [])
  · exact length_serializeTable_of_forall_length (by decide) h

end Sys2Proof.Machine
end

section
/-!
TSTORE followed by TLOAD (45_bitpacker_decoder R181): what a successful TSTORE leaves in memory, and that a TLOAD without an
error has loaded the table that stands there.
-/

namespace Sys2Proof.Machine

/-- A region is admitted, or there is a first address of it that is not. -/
theorem allAdmitted_or_first_not_admitted (p : Platform) (b : Nat) : ∀ n : Nat,
    AllAdmitted p { base := b, len := n } ∨
      ∃ j, j < n ∧ AllAdmitted p { base := b, len := j } ∧ admitted p (b + j) = false
  | 0 => .inl (allAdmitted_zero p b)
  | n + 1 => by
    rcases allAdmitted_or_first_not_admitted p b n with hall | ⟨j, hj, hbelow, hbad⟩
    · cases hn : admitted p (b + n) with
      | true => exact .inl (hall.succ hn)
      | false => exact .inr ⟨n, Nat.lt_succ_self n, hall, hn⟩
    · exact .inr ⟨j, Nat.lt_succ_of_lt hj, hbelow, hbad⟩

/-- A load of fewer bytes gives the first ones. -/
theorem loadBytes_take {m : Memory} {a j : Nat} {bs : List Byte} (h : loadBytes m a bs.length = bs) (hj : j ≤ bs.length) :
    loadBytes m a j = bs.take j := by
  have hlen : (bs.take j).length = j := List.length_take_of_le hj
  conv_lhs => rw [← hlen]
  rw [loadBytes_eq_iff] at h ⊢
  intro k hk
  rw [h k (by omega), List.getElem_take]

/-- A TSTORE without an error has written the whole serialized table: the other answer of its run is a BUS_ERROR, which sets
ERR. -/
theorem tstoreResult_of_noError {s : State} (hwf : Memory.wf s.mem = true) (hok : (tstoreResult s).status.err = false) :
    loadBytes (tstoreResult s).mem (tableAddr s) (serializeTable s.codes).length = serializeTable s.codes ∧
      (tstoreResult s).results.tableBytes = BitVec.ofNat 32 (serializeTable s.codes).length := by
  rcases tstoreRun_spec s with ⟨hrun, hadm⟩ | ⟨j, -, hrun, -⟩
  · simp only [tstoreResult, hrun, finish_mem, finish_results, and_true]
    exact (storeBytes_region hwf hadm).1
  · simp [tstoreResult, hrun, CommandError.code] at hok

/-- Where a table's bytes stand at TABLE_BASE, a TLOAD without an error was admitted at every one of them: at the first one
that is not, it ends in a BUS_ERROR, which sets ERR. -/
theorem tableHas_of_tload_noError {s : State} {codes : Vector BitString 256} (hfit : CodesFit codes)
    (hbytes : loadBytes s.mem (tableAddr s) (serializeTable codes).length = serializeTable codes)
    (hok : (tloadResult s).status.err = false) : TableHas s 0 (serializeTable codes) := by
  rcases allAdmitted_or_first_not_admitted s.platform (tableAddr s) (serializeTable codes).length with
    hall | ⟨j, hj, hbelow, hbad⟩
  · exact ⟨hbytes, hall⟩
  · have hlen : ((serializeTable codes).take j).length = j := List.length_take_of_le hj.le
    have hcut : TableHas s 0 ((serializeTable codes).take j) := by
      rw [TableHas, hlen]
      exact ⟨loadBytes_take hbytes hj.le, hbelow⟩
    simp [tloadResult, tloadRun_cut hfit hj hcut hbad, tableBusError, CommandError.code] at hok

/-- A TLOAD without an error loads the table whose serialized bytes stand at TABLE_BASE. -/
theorem tloadResult_of_noError {s : State} {codes : Vector BitString 256} (hpf : PrefixFreeCodes codes)
    (hfit : CodesFit codes)
    (hbytes : loadBytes s.mem (tableAddr s) (serializeTable codes).length = serializeTable codes)
    (hok : (tloadResult s).status.err = false) :
    (tloadResult s).codes = codes ∧
      (tloadResult s).results.tableBytes = BitVec.ofNat 32 (serializeTable codes).length := by
  have hrun := tloadRun_serialized hpf hfit (tableHas_of_tload_noError hfit hbytes hok)
  simp only [tloadResult, hrun, finish_codes, finish_results, and_self]

/-- TABLE_BYTES holds the length of a serialized table exactly (44_bitpacker_encoder R171). -/
theorem toNat_ofNat_length_serializeTable {codes : Vector BitString 256} (hfit : CodesFit codes) :
    (BitVec.ofNat 32 (serializeTable codes).length).toNat = (serializeTable codes).length :=
  (BitVec.toNat_ofNat _ _).trans (Nat.mod_eq_of_lt ((length_serializeTable_le hfit).trans_lt (by decide)))

/-- Settles O49: TSTORE leaves the serialized table at TABLE_BASE, its TABLE_BYTES bytes still stand there for TLOAD, and a
successful TLOAD of them restores the table. -/
theorem tstoreThenTloadIsIdentity : Obligations.TstoreThenTloadIsIdentity := by
  intro s t u v hwf hpf hfit hstore hstoreOk hbase hkept hload hloadOk
  obtain rfl : t = tstoreResult s := eq_of_exec_next hstore
  obtain rfl : v = tloadResult u := eq_of_exec_next hload
  obtain ⟨hstored, hcount⟩ := tstoreResult_of_noError hwf hstoreOk
  rw [hcount, toNat_ofNat_length_serializeTable hfit] at hkept
  have haddr : tableAddr u = tableAddr s := congrArg BitVec.toNat hbase
  have hbytes : loadBytes u.mem (tableAddr u) (serializeTable s.codes).length = serializeTable s.codes := by
    rw [haddr, loadBytes_congr _ u.mem (tstoreResult s).mem _ fun k hk => hkept _ (by omega) (by omega), hstored]
  obtain ⟨hcodes, hbytesLoaded⟩ := tloadResult_of_noError hpf hfit hbytes hloadOk
  exact ⟨hcodes, hbytesLoaded.trans hcount.symm⟩

end Sys2Proof.Machine
end

section
/-!
The command words are the only words the decoder takes (30_encoding R97, R99), and what performing any other word does
(60_exceptions R203).
-/

namespace Sys2Proof.Machine

/-! ### The words the decoder takes -/

/-- The opcode map reads a command only from that command's opcode (30_encoding R99). -/
theorem eq_opcodeOf_of_instrOfOpcode {op : Byte} {i : Instr} (h : instrOfOpcode op = some i) : op = opcodeOf i := by
  unfold instrOfOpcode at h
  split_ifs at h <;> (cases h; assumption)

/-- A word is its RSV field above its OP field (30_encoding R96). -/
theorem rsvField_append_opField (w : Word) : rsvField w ++ opField w = w := by
  rw [rsvField, opField, BitVec.extractLsb'_append_extractLsb'_eq_extractLsb' (start₁ := 0) (len₁ := 8) rfl]
  exact BitVec.extractLsb'_eq_self

/-- The decoder reads a command only from that command's word (30_encoding R97): RSV is 0 and OP is its opcode. -/
theorem eq_encode_of_decode {w : Word} {i : Instr} (h : decode w = .ok i) : w = encode i := by
  unfold decode at h
  split at h
  case isTrue => cases h
  case isFalse hrsv =>
    split at h
    case h_1 j hop =>
      cases h
      rw [encode, ← eq_opcodeOf_of_instrOfOpcode hop, ← not_ne_iff.mp hrsv, rsvField_append_opField]
    case h_2 => cases h

/-- The nine command words (30_encoding R99). -/
theorem toNat_encode_mem (i : Instr) :
    (encode i).toNat ∈ [0x00, 0x01, 0x10, 0x20, 0x30, 0x40, 0x50, 0x60, 0x61] := by
  cases i <;> decide

/-- Every word but the nine command words is reserved (30_encoding R100). -/
theorem exists_decode_error {w : Word} (h : w.toNat ∉ [0x00, 0x01, 0x10, 0x20, 0x30, 0x40, 0x50, 0x60, 0x61]) :
    ∃ e, decode w = .error e := by
  cases hw : decode w with
  | ok i => exact absurd (eq_encode_of_decode hw ▸ toNat_encode_mem i) h
  | error e => exact ⟨e, rfl⟩

/-! ### A reserved word's outcome -/

theorem perform_of_decode_error {w : Word} {e : DecodeError} (h : decode w = .error e) (s : State) :
    perform w s = .next (rejectWord w s) := by
  rw [perform, h]

/-- LAST_OP holds the low byte of the accepted word (10_state R28). -/
theorem lastOp_accept (w : Word) (s : State) : (accept w s).status.lastOp = BitVec.ofNat 8 w.toNat := by
  rw [accept_status, ← BitVec.setWidth_eq_extractLsb' (by decide), ← BitVec.ofNat_toNat]

/-- What rejecting an accepted word leaves (60_exceptions R203). -/
theorem rejectWord_accept (w : Word) (s : State) :
    rejectWord w (accept w s) =
      { s with
        status := { s.status with done := true, err := true, empty := false, lastOp := BitVec.ofNat 8 w.toNat }
        errors := { code := 4#4, index := 0#32, value := w, faultAddr := 0#32 }
        eng := .idle } := by
  rw [← lastOp_accept w s]
  rfl

/-- Settles O6: a word outside the nine is reserved, and performing it rejects it. -/
theorem reservedWordCompletesIllegal : Obligations.ReservedWordCompletesIllegal := by
  intro s w hw
  obtain ⟨e, he⟩ := exists_decode_error hw
  rw [perform_of_decode_error he, rejectWord_accept]

end Sys2Proof.Machine
end

section
/-!
What a command that goes on leaves unchanged, and which fields each command writes (10_state R40, R47, 60_exceptions R206, R207).
-/

namespace Sys2Proof.Machine

/-! ### The fields each command writes -/

/-- The STATUS that every command ends with: DONE is set, and only ERR and EMPTY depend on the command (60_exceptions R207). -/
def endStatus (s t : State) : StatusBits :=
  { s.status with done := true, err := t.status.err, empty := t.status.empty }

theorem freqResult_frame (s : State) :
    freqResult s =
      { s with
        freq := (freqResult s).freq
        results := { s.results with numSymbols := (freqResult s).results.numSymbols }
        status := endStatus s (freqResult s), errors := (freqResult s).errors, eng := .idle } := by
  unfold freqResult
  split <;> rfl

theorem packResult_frame (s : State) :
    packResult s =
      { s with
        mem := (packResult s).mem
        results :=
          { s.results with
            streamBytes := (packResult s).results.streamBytes
            streamLastBits := (packResult s).results.streamLastBits }
        status := endStatus s (packResult s), errors := (packResult s).errors, eng := .idle } := by
  unfold packResult
  split <;> rfl

theorem unpackResult_frame (s : State) :
    unpackResult s =
      { s with
        mem := (unpackResult s).mem
        results :=
          { s.results with
            streamBytes := (unpackResult s).results.streamBytes
            streamLastBits := (unpackResult s).results.streamLastBits }
        status := endStatus s (unpackResult s), errors := (unpackResult s).errors, eng := .idle } := by
  unfold unpackResult
  split <;> rfl

theorem tstoreResult_frame (s : State) :
    tstoreResult s =
      { s with
        mem := (tstoreResult s).mem
        results := { s.results with tableBytes := (tstoreResult s).results.tableBytes }
        status := endStatus s (tstoreResult s), errors := (tstoreResult s).errors, eng := .idle } := by
  unfold tstoreResult
  split <;> rfl

theorem tloadResult_frame (s : State) :
    tloadResult s =
      { s with
        codes := (tloadResult s).codes
        results :=
          { s.results with
            tableBytes := (tloadResult s).results.tableBytes
            codeEntries := (tloadResult s).results.codeEntries
            maxCodeLen := (tloadResult s).results.maxCodeLen }
        status := endStatus s (tloadResult s), errors := (tloadResult s).errors, eng := .idle } := by
  unfold tloadResult
  split <;> rfl

/-- FREQ and NUM_SYMBOLS change only under FREQ and CLEAR (10_state R40, R47). -/
theorem freq_resultOf {i : Instr} (hi : i ∉ [Instr.freq, .clear]) (s : State) :
    (resultOf i s).freq = s.freq ∧ (resultOf i s).results.numSymbols = s.results.numSymbols := by
  cases i with
  | freq | clear => simp at hi
  | nop | tree | codes => exact ⟨rfl, rfl⟩
  | pack => rw [resultOf, packResult_frame]; exact ⟨rfl, rfl⟩
  | unpack => rw [resultOf, unpackResult_frame]; exact ⟨rfl, rfl⟩
  | tstore => rw [resultOf, tstoreResult_frame]; exact ⟨rfl, rfl⟩
  | tload => rw [resultOf, tloadResult_frame]; exact ⟨rfl, rfl⟩

/-- The node store and its result registers change only under TREE, CODES and CLEAR (10_state R40, R47). -/
theorem tree_resultOf {i : Instr} (hi : i ∉ [Instr.tree, .codes, .clear]) (s : State) :
    (resultOf i s).nodes = s.nodes ∧ (resultOf i s).root = s.root ∧
      (resultOf i s).results.treeNodes = s.results.treeNodes ∧
      (resultOf i s).results.rootWeight = s.results.rootWeight := by
  cases i with
  | tree | codes | clear => simp at hi
  | nop => exact ⟨rfl, rfl, rfl, rfl⟩
  | freq => rw [resultOf, freqResult_frame]; exact ⟨rfl, rfl, rfl, rfl⟩
  | pack => rw [resultOf, packResult_frame]; exact ⟨rfl, rfl, rfl, rfl⟩
  | unpack => rw [resultOf, unpackResult_frame]; exact ⟨rfl, rfl, rfl, rfl⟩
  | tstore => rw [resultOf, tstoreResult_frame]; exact ⟨rfl, rfl, rfl, rfl⟩
  | tload => rw [resultOf, tloadResult_frame]; exact ⟨rfl, rfl, rfl, rfl⟩

/-- The code table and its result registers change only under CODES, TLOAD and CLEAR (10_state R40, R47). -/
theorem codes_resultOf {i : Instr} (hi : i ∉ [Instr.codes, .tload, .clear]) (s : State) :
    (resultOf i s).codes = s.codes ∧ (resultOf i s).results.codeEntries = s.results.codeEntries ∧
      (resultOf i s).results.maxCodeLen = s.results.maxCodeLen := by
  cases i with
  | codes | tload | clear => simp at hi
  | nop | tree => exact ⟨rfl, rfl, rfl⟩
  | freq => rw [resultOf, freqResult_frame]; exact ⟨rfl, rfl, rfl⟩
  | pack => rw [resultOf, packResult_frame]; exact ⟨rfl, rfl, rfl⟩
  | unpack => rw [resultOf, unpackResult_frame]; exact ⟨rfl, rfl, rfl⟩
  | tstore => rw [resultOf, tstoreResult_frame]; exact ⟨rfl, rfl, rfl⟩

/-- STREAM_BYTES and STREAM_LAST_BITS change only under PACK, UNPACK and CLEAR (10_state R40). -/
theorem stream_resultOf {i : Instr} (hi : i ∉ [Instr.pack, .unpack, .clear]) (s : State) :
    (resultOf i s).results.streamBytes = s.results.streamBytes ∧
      (resultOf i s).results.streamLastBits = s.results.streamLastBits := by
  cases i with
  | pack | unpack | clear => simp at hi
  | nop | tree | codes => exact ⟨rfl, rfl⟩
  | freq => rw [resultOf, freqResult_frame]; exact ⟨rfl, rfl⟩
  | tstore => rw [resultOf, tstoreResult_frame]; exact ⟨rfl, rfl⟩
  | tload => rw [resultOf, tloadResult_frame]; exact ⟨rfl, rfl⟩

/-- TABLE_BYTES changes only under TSTORE, TLOAD and CLEAR (10_state R40). -/
theorem tableBytes_resultOf {i : Instr} (hi : i ∉ [Instr.tstore, .tload, .clear]) (s : State) :
    (resultOf i s).results.tableBytes = s.results.tableBytes := by
  cases i with
  | tstore | tload | clear => simp at hi
  | nop | tree | codes => rfl
  | freq => rw [resultOf, freqResult_frame]
  | pack => rw [resultOf, packResult_frame]
  | unpack => rw [resultOf, unpackResult_frame]

/-- Settles O23: a command that goes on ends in its result, and each element's writers are named one by one above. -/
theorem onlyTheNamedCommandsWrite : Obligations.OnlyTheNamedCommandsWrite := by
  intro i s t h
  obtain rfl := eq_of_exec_next h
  exact ⟨fun hi => freq_resultOf hi s, fun hi => tree_resultOf hi s, fun hi => codes_resultOf hi s,
    fun hi => stream_resultOf hi s, fun hi => tableBytes_resultOf hi s⟩

/-! ### The end of every command -/

/-- Every command ends with DONE, keeps OVERRUN and LAST_OP, and leaves the host's notes and turns alone (60_exceptions
R207). -/
theorem resultOf_ending (i : Instr) (s : State) :
    (resultOf i s).status = endStatus s (resultOf i s) ∧ (resultOf i s).observed = s.observed ∧
      (resultOf i s).schedule = s.schedule ∧ (resultOf i s).draws = s.draws := by
  cases i with
  | nop | clear | tree | codes => exact ⟨rfl, rfl, rfl, rfl⟩
  | freq => rw [resultOf, freqResult_frame]; exact ⟨rfl, rfl, rfl, rfl⟩
  | pack => rw [resultOf, packResult_frame]; exact ⟨rfl, rfl, rfl, rfl⟩
  | unpack => rw [resultOf, unpackResult_frame]; exact ⟨rfl, rfl, rfl, rfl⟩
  | tstore => rw [resultOf, tstoreResult_frame]; exact ⟨rfl, rfl, rfl, rfl⟩
  | tload => rw [resultOf, tloadResult_frame]; exact ⟨rfl, rfl, rfl, rfl⟩

/-- ERR says whether a command ended with an ERR_CODE other than 0 (60_exceptions R207). -/
theorem err_resultOf_iff (i : Instr) (s : State) :
    (resultOf i s).status.err = true ↔ (resultOf i s).errors.code ≠ 0#4 := by
  rcases ending_resultOf i s with ⟨herr, herrors, -⟩ | ⟨e, -, herr, -, herrors, hcode, -⟩
  · simp [herr, herrors]
  · simp [herr, herrors, hcode]

/-- Settles O22: the frame and the ending of a command's result, with ERR the summary of ERR_CODE. -/
theorem everyCommandCompletes : Obligations.EveryCommandCompletes := by
  intro i s t h
  obtain rfl := eq_of_exec_next h
  obtain ⟨heng, hplatform, hhost, hcfg, hdoneIe⟩ := resultOf_frame i s
  obtain ⟨hstatus, hobserved, hschedule, hdraws⟩ := resultOf_ending i s
  refine ⟨heng, ?_, err_resultOf_iff i s, ?_, ?_, hcfg, hdoneIe, hplatform, hhost, hobserved, hschedule, hdraws⟩
  all_goals rw [hstatus, endStatus]

end Sys2Proof.Machine
end

section
/-!
What every step keeps: canonical memory (20_memory R71), a code table in which no code begins another (45_bitpacker_decoder R180), flags that agree
(60_exceptions R207), and the invariant of the whole machine. `step_keeps` reduces each to the commands, the register writes, the
host's stores and the reset.
-/

namespace Sys2Proof.Machine

/-! ### The tables after reset -/

/-- The counters after reset are 0, and the code table has no code (70_reset_and_hazards R231). -/
theorem freq_reset (v : Byte) : tabGet State.reset.freq v = 0#32 := tabGet_replicate 0#32 v

theorem codes_reset (v : Byte) : tabGet State.reset.codes v = [] := tabGet_replicate [] v

/-! ### Memory -/

/-- Settles O56: commands, host stores and the first writes of an abandoned command all store inside the address space. -/
theorem stepKeepsMemoryCanonical : Obligations.StepKeepsMemoryCanonical := by
  intro s t hwf hstep
  refine step_keeps (P := fun s => Memory.wf s.mem = true) (fun hsame h => ?_) (fun i s _ h => wf_resultOf i s h)
    (fun _ _ _ h => h) (fun r w s h => ?_) (fun s a bs hspace h => wf_storeBytes bs s.mem a h hspace)
    (fun _ h => h) hwf hstep
  · obtain ⟨-, -, -, -, -, -, -, -, -, -, hmem, -⟩ := hsame.fields
    exact hmem ▸ h
  · exact (regWrite_frame r w s).1 ▸ h

/-! ### The code table -/

/-- In the empty code table no code begins another, and the codes fit. -/
theorem prefixFree_of_forall_nil {codes : Vector BitString 256} (h : ∀ v, tabGet codes v = []) : PrefixFreeCodes codes :=
  fun u _ _ hu _ => absurd (h u) hu

theorem codesFit_of_forall_nil {codes : Vector BitString 256} (h : ∀ v, tabGet codes v = []) : CodesFit codes :=
  fun v => by simp [h v]

/-- TLOAD's end, as far as the code table goes: it holds a checked table with its summary, or it is as it was
(45_bitpacker_decoder R176). -/
theorem tloadResult_codes (s : State) :
    (∃ codes, PrefixFreeCodes codes ∧ CodesFit codes ∧ (tloadResult s).codes = codes ∧
      (tloadResult s).results.codeEntries = BitVec.ofNat 9 (entryCount codes) ∧
      (tloadResult s).results.maxCodeLen = BitVec.ofNat 8 (longestCode codes)) ∨
    ((tloadResult s).codes = s.codes ∧ (tloadResult s).results.codeEntries = s.results.codeEntries ∧
      (tloadResult s).results.maxCodeLen = s.results.maxCodeLen) := by
  rcases tloadRun_spec s with ⟨es, -, hasc, hfit, hpf, -, hrun⟩ | ⟨sub, j, r, -, hrun, -⟩ | ⟨r, -, hrun, -⟩
  · refine .inl ⟨setAll noCodes es, hpf, codesFit_setAll hfit, ?_⟩
    rw [entryCount_setAll hasc.nodup fun e he => (hfit e he).1]
    simp only [tloadResult, hrun, finish_codes, finish_results, and_self]
  · exact .inr (by simp [tloadResult, hrun])
  · exact .inr (by simp [tloadResult, hrun])

/-- No command leaves a code table in which a code begins another one (45_bitpacker_decoder R180). -/
theorem prefixFree_resultOf (i : Instr) (s : State) (h : PrefixFreeCodes s.codes) :
    PrefixFreeCodes (resultOf i s).codes := by
  by_cases hi : i ∈ [Instr.codes, .tload, .clear]
  · simp only [List.mem_cons, List.not_mem_nil, or_false] at hi
    rcases hi with rfl | rfl | rfl
    · exact prefixFree_codeTable s.nodes s.root
    · rcases tloadResult_codes s with ⟨codes, hpf, -, hcodes, -⟩ | ⟨hcodes, -⟩
      · exact hcodes ▸ hpf
      · exact hcodes ▸ h
    · exact prefixFree_of_forall_nil codes_reset
  · exact (codes_resultOf hi s).1 ▸ h

/-- Settles O57: CODES makes such tables whatever the node store, TLOAD checks, CLEAR and a reset empty the table, and
nothing else writes it. -/
theorem codeTableStaysPrefixFree : Obligations.CodeTableStaysPrefixFree := by
  intro s t hpf hstep
  refine step_keeps (P := fun s => PrefixFreeCodes s.codes) (fun hsame h => ?_) (fun i s _ h => prefixFree_resultOf i s h)
    (fun _ _ _ h => h) (fun r w s h => ?_) (fun _ _ _ _ h => h)
    (fun _ _ => prefixFree_of_forall_nil codes_reset) hpf hstep
  · obtain ⟨-, -, -, -, -, -, -, -, hcodes, -⟩ := hsame.fields
    exact hcodes ▸ h
  · obtain ⟨-, hcodes, -⟩ := regWrite_frame r w s
    exact hcodes ▸ h

/-! ### The flags -/

/-- The flags rest on STATUS, the error registers, the engine and the platform alone. -/
theorem FlagsOk.congr {s t : State} (h : FlagsOk s) (hstatus : t.status = s.status) (herrors : t.errors = s.errors)
    (heng : t.eng = s.eng) (hplatform : t.platform = s.platform) : FlagsOk t := by
  obtain ⟨h1, h2, h3, h4, h5, h6, h7⟩ := h
  constructor <;> simp only [busy, hstatus, herrors, heng, hplatform] <;> assumption

/-- With no record and STATUS's ERR 0 the flags agree, where a running command also has DONE and EMPTY 0. -/
theorem flagsOk_of_noError {s : State} (herrors : s.errors = { code := 0#4, index := 0#32, value := 0#32, faultAddr := 0#32 })
    (herr : s.status.err = false) (hbusy : busy s = true → s.status.done = false ∧ s.status.empty = false) : FlagsOk s where
  busyClean hb := ⟨(hbusy hb).1, herr, (hbusy hb).2, by rw [herrors]⟩
  errIsCode := by simp [herr, herrors]
  codeAssigned := by simp [herrors]
  emptyNoError _ := by rw [herrors]
  successClean _ := by simp [herrors]
  faultAddrClean _ := by rw [herrors]
  busErrorExact hc := by simp [herrors] at hc

/-- A recorded error makes the flags agree, where the block is IDLE with EMPTY 0 and the record is one of 60_exceptions R202. -/
theorem flagsOk_of_error {s : State} {e : CommandError} (hbusy : busy s = false) (herr : s.status.err = true)
    (hempty : s.status.empty = false)
    (herrors : s.errors = { code := e.code, index := e.index, value := e.value, faultAddr := e.faultAddr })
    (hbus : e.code = 3#4 → admitted s.platform e.faultAddr.toNat = false) : FlagsOk s where
  busyClean hb := by simp [hbusy] at hb
  errIsCode := by cases e <;> simp [herr, herrors, CommandError.code]
  codeAssigned := by cases e <;> simp [herrors, CommandError.code]
  emptyNoError h := by simp [hempty] at h
  successClean hc := by cases e <;> simp [herrors, CommandError.code] at hc
  faultAddrClean hc := by cases e <;> simp_all [CommandError.code, CommandError.faultAddr]
  busErrorExact hc := by cases e <;> simp_all [CommandError.code, CommandError.value]

/-- The address of a command's BUS_ERROR was not admitted, and FAULT_ADDR holds it in full (20_memory R75). -/
theorem Raises.faultAddr_not_admitted {s : State} {i : Instr} {e : CommandError} (h : Raises s i e) (hc : e.code = 3#4) :
    admitted s.platform e.faultAddr.toNat = false := by
  cases h with
  | noCode | badTable | badStream => simp [CommandError.code] at hc
  | busError _ _ base k _ hbad _ hfits =>
    rwa [CommandError.faultAddr, BitVec.toNat_ofNat, Nat.mod_eq_of_lt hfits]

/-- A running command leaves flags that agree. -/
theorem flagsOk_resultOf (i : Instr) (s : State) (hb : busy s = true) (h : FlagsOk s) : FlagsOk (resultOf i s) := by
  obtain ⟨heng, hplatform, -⟩ := resultOf_frame i s
  have hidle : busy (resultOf i s) = false := by rw [busy, heng]
  obtain ⟨-, -, hempty, hcode⟩ := h.busyClean hb
  obtain ⟨hindex, hvalue⟩ := h.successClean hcode
  have hfault := h.faultAddrClean (by simp [hcode])
  rcases ending_resultOf i s with ⟨herr, herrors, -⟩ | ⟨e, hraises, herr, hempty', herrors, -⟩
  · exact flagsOk_of_noError (by simp only [herrors, hindex, hvalue, hfault]) herr (by simp [hidle])
  · refine flagsOk_of_error hidle herr (hempty' ▸ hempty) herrors ?_
    rw [hplatform]
    exact hraises.faultAddr_not_admitted

/-- A register write leaves flags that agree: the acceptance of a word clears them, and a write to STATUS clears DONE and
OVERRUN only (10_state R28, R30). -/
theorem flagsOk_regWrite (r : Reg) (w : Word) (s : State) (h : FlagsOk s) : FlagsOk (regWrite r w s) := by
  have hoverrun : FlagsOk (setOverrun s) := ⟨h.1, h.2, h.3, h.4, h.5, h.6, h.7⟩
  unfold regWrite
  split_ifs
  · exact hoverrun
  · exact flagsOk_of_noError rfl rfl fun _ => ⟨rfl, rfl⟩
  · refine ⟨fun hb => ?_, h.2, h.3, h.4, h.5, h.6, h.7⟩
    obtain ⟨hdone, hrest⟩ := h.busyClean hb
    exact ⟨by simp [hdone], hrest⟩
  · exact h.congr rfl rfl rfl rfl
  · exact hoverrun
  · exact h.congr rfl rfl rfl rfl
  · exact h

/-- Rejecting the running word leaves flags that agree (60_exceptions R203). -/
theorem flagsOk_rejectWord (w : Word) (s : State) (hb : busy s = true) (h : FlagsOk s) : FlagsOk (rejectWord w s) := by
  obtain ⟨-, -, hempty, -⟩ := h.busyClean hb
  exact flagsOk_of_error (e := .illegalCommand w) rfl rfl hempty rfl (by simp [CommandError.code])

/-- Settles O58: each command records what its ending names, and acceptance clears the record before. -/
theorem flagsStayConsistent : Obligations.FlagsStayConsistent := by
  intro s t hflags hstep
  refine step_keeps (P := FlagsOk) (fun hsame h => ?_) flagsOk_resultOf flagsOk_rejectWord flagsOk_regWrite
    (fun _ _ _ _ h => h.congr rfl rfl rfl rfl) (fun s _ => flagsOk_of_noError rfl rfl fun _ => ⟨rfl, rfl⟩) hflags hstep
  obtain ⟨hstatus, herrors, -, -, -, -, -, -, -, heng, -, hplatform⟩ := hsame.fields
  exact h.congr hstatus herrors heng hplatform

/-! ### The datapath -/

theorem presentValues_reset : presentValues State.reset.freq = [] :=
  List.filter_eq_nil_iff.2 fun v _ => by simp [freq_reset v]

/-- Counts that are all 0 sum to no more than the largest matrix. -/
theorem freqFits_of_zero {s : State} (h : ∀ v, freqAt s v = 0#32) : FreqFits s := by
  have hsum : (allValues.map (fun v => (freqAt s v).toNat)).sum = 0 := by
    refine List.sum_eq_zero fun n hn => ?_
    obtain ⟨v, -, rfl⟩ := List.mem_map.1 hn
    rw [h v]
    rfl
  rw [FreqFits, hsum]
  exact Nat.zero_le _

/-- How FREQ ends: with the counts of the matrix, or, at the lowest sample address that is not admitted, with none
(41_frequency_analyzer R121, R123). -/
theorem freqResult_cases (s : State) :
    (AllAdmitted s.platform { base := srcAddr s, len := sampleCount s } ∧
      freqResult s = finish (setEmptyIf (sampleCount s == 0)
        { s with
          freq := countSamples (matrixAt s)
          results := { s.results with numSymbols := BitVec.ofNat 9 (symbolCount (countSamples (matrixAt s))) } })) ∨
    (∃ m, m < sampleCount s ∧ AllAdmitted s.platform { base := srcAddr s, len := m } ∧
      admitted s.platform (srcAddr s + m) = false ∧
      freqResult s = raise (.busError m (srcAddr s + m))
        { s with freq := State.reset.freq, results := { s.results with numSymbols := 0#9 } }) := by
  rcases readSamples_spec s (sampleCount s) 0 with ⟨hread, hadm⟩ | ⟨m, hm, hread, hadm, hbad⟩
  · exact .inl ⟨hadm, by simp only [freqResult, hread]; rfl⟩
  · simp only [Nat.zero_add, Nat.add_zero] at hread hadm hbad
    exact .inr ⟨m, hm, hadm, hbad, by simp only [freqResult, hread]⟩

/-- The counts of FREQ stay within the largest matrix (00_scope R11). -/
theorem freqFits_resultOf (i : Instr) (s : State) (h : FreqFits s) : FreqFits (resultOf i s) := by
  by_cases hi : i ∈ [Instr.freq, .clear]
  · simp only [List.mem_cons, List.not_mem_nil, or_false] at hi
    rcases hi with rfl | rfl
    · rcases freqResult_cases s with ⟨-, hres⟩ | ⟨m, -, -, -, hres⟩
      · have hlen : (matrixAt s).length ≤ 65535 * 65535 := length_matrixAt s ▸ sampleCount_le s
        simp only [resultOf, FreqFits, freqAt, hres, finish_freq, setEmptyIf_freq, sum_countSamples hlen, hlen]
      · exact freqFits_of_zero fun v => by rw [resultOf, freqAt, hres]; exact freq_reset v
    · exact freqFits_of_zero freq_reset
  · simpa only [FreqFits, freqAt, (freq_resultOf hi s).1] using h

/-- NUM_SYMBOLS of counters is the number of present values. -/
theorem symbolCount_eq_length (freq : Vector Word 256) : symbolCount freq = (presentValues freq).length :=
  symbolCount_eq freq

/-- NUM_SYMBOLS stays the number of values with a count (10_state R40). -/
theorem numSymbols_resultOf (i : Instr) (s : State)
    (h : s.results.numSymbols.toNat = (presentValues s.freq).length) :
    (resultOf i s).results.numSymbols.toNat = (presentValues (resultOf i s).freq).length := by
  by_cases hi : i ∈ [Instr.freq, .clear]
  · simp only [List.mem_cons, List.not_mem_nil, or_false] at hi
    rcases hi with rfl | rfl
    · rcases freqResult_cases s with ⟨-, hres⟩ | ⟨m, -, -, -, hres⟩
      · have hle := length_presentValues_le (countSamples (matrixAt s))
        simp only [resultOf, hres, finish_results, setEmptyIf_results, finish_freq, setEmptyIf_freq, symbolCount_eq_length,
          BitVec.toNat_ofNat]
        omega
      · rw [resultOf, hres]
        exact (congrArg List.length presentValues_reset).symm
    · exact (congrArg List.length presentValues_reset).symm
  · obtain ⟨hfreq, hnum⟩ := freq_resultOf hi s
    rw [hfreq, hnum, h]

/-- A node store without nodes is well formed. -/
theorem nodeStoreOk_empty : NodeStoreOk [] none :=
  ⟨by simp, by simp, by simp, by simp, by simp [childIndices], by simp [leafValues]⟩

/-- The node store stays well formed: TREE builds one, and CODES and CLEAR discard it (10_state R43, R44). -/
theorem nodeStoreOk_resultOf (i : Instr) (s : State) (h : NodeStoreOk s.nodes s.root) :
    NodeStoreOk (resultOf i s).nodes (resultOf i s).root := by
  by_cases hi : i ∈ [Instr.tree, .codes, .clear]
  · simp only [List.mem_cons, List.not_mem_nil, or_false] at hi
    rcases hi with rfl | rfl | rfl
    · exact nodeStoreOk_buildTree s.freq
    · exact nodeStoreOk_empty
    · exact nodeStoreOk_empty
  · obtain ⟨hnodes, hroot, -⟩ := tree_resultOf hi s
    rwa [hnodes, hroot]

/-- TREE_NODES and ROOT_WEIGHT stay the size of the store and its root's weight (10_state R40). -/
theorem treeSummary_resultOf (i : Instr) (s : State)
    (h : s.results.treeNodes.toNat = s.nodes.length ∧ s.results.rootWeight = rootWeightOf s.nodes s.root) :
    (resultOf i s).results.treeNodes.toNat = (resultOf i s).nodes.length ∧
      (resultOf i s).results.rootWeight = rootWeightOf (resultOf i s).nodes (resultOf i s).root := by
  by_cases hi : i ∈ [Instr.tree, .codes, .clear]
  · simp only [List.mem_cons, List.not_mem_nil, or_false] at hi
    rcases hi with rfl | rfl | rfl
    · have hcap : (buildTree s.freq).1.length ≤ 511 := (nodeStoreOk_buildTree s.freq).capacity
      exact ⟨(BitVec.toNat_ofNat _ _).trans (Nat.mod_eq_of_lt (by omega)), rfl⟩
    · exact ⟨rfl, rfl⟩
    · exact ⟨rfl, rfl⟩
  · obtain ⟨hnodes, hroot, hcount, hweight⟩ := tree_resultOf hi s
    rwa [hnodes, hroot, hcount, hweight]

/-! ### The summary of the code table -/

/-- MAX_CODE_LEN holds the longest code's length in full where the codes fit (10_state R40). -/
theorem toNat_longestCode {codes : Vector BitString 256} (h : CodesFit codes) :
    (BitVec.ofNat 8 (longestCode codes)).toNat = longestCode codes := by
  obtain ⟨v, hv⟩ := exists_length_eq_longestCode codes
  have hle : longestCode codes ≤ 255 := hv ▸ h v
  exact (BitVec.toNat_ofNat _ _).trans (Nat.mod_eq_of_lt (by omega))

/-- CODE_ENTRIES holds the number of values with a code in full (10_state R40). -/
theorem toNat_entryCount (codes : Vector BitString 256) :
    (BitVec.ofNat 9 (entryCount codes)).toNat = (allValues.filter (fun v => tabGet codes v != [])).length := by
  have hle := entryCount_le codes
  rw [← entryCount_eq, BitVec.toNat_ofNat, Nat.mod_eq_of_lt (by omega)]

/-- CODE_ENTRIES and MAX_CODE_LEN of a code table, as `ResultsOk` has them. -/
def CodeSummary (codes : Vector BitString 256) (entries : BitVec 9) (maxLen : BitVec 8) : Prop :=
  entries.toNat = (allValues.filter (fun v => tabGet codes v != [])).length ∧
    (∀ v, (tabGet codes v).length ≤ maxLen.toNat) ∧ (maxLen = 0#8 ∨ ∃ v, (tabGet codes v).length = maxLen.toNat)

theorem codeSummary_of_fit {codes : Vector BitString 256} (h : CodesFit codes) :
    CodeSummary codes (BitVec.ofNat 9 (entryCount codes)) (BitVec.ofNat 8 (longestCode codes)) := by
  refine ⟨toNat_entryCount codes, ?_⟩
  rw [toNat_longestCode h]
  exact ⟨length_le_longestCode codes, .inr (exists_length_eq_longestCode codes)⟩

theorem codeSummary_reset : CodeSummary State.reset.codes 0#9 0#8 := by
  refine ⟨?_, fun v => Nat.le_of_eq (congrArg List.length (codes_reset v)), .inl rfl⟩
  exact (congrArg List.length (List.filter_eq_nil_iff.2 fun v _ => by simp [codes_reset v])).symm

/-- The codes stay within MAX_LEN, and their summary stays theirs: CODES writes the codes of a well-formed store, TLOAD codes
it has checked (10_state R40, R45). -/
theorem codeSummary_resultOf (i : Instr) (s : State) (htree : NodeStoreOk s.nodes s.root) (hfit : CodesFit s.codes)
    (h : CodeSummary s.codes s.results.codeEntries s.results.maxCodeLen) :
    CodesFit (resultOf i s).codes ∧
      CodeSummary (resultOf i s).codes (resultOf i s).results.codeEntries (resultOf i s).results.maxCodeLen := by
  by_cases hi : i ∈ [Instr.codes, .tload, .clear]
  · simp only [List.mem_cons, List.not_mem_nil, or_false] at hi
    rcases hi with rfl | rfl | rfl
    · have hnew := codesFit_codeTable htree
      exact ⟨hnew, codeSummary_of_fit hnew⟩
    · rcases tloadResult_codes s with ⟨codes, -, hnew, hcodes, hentries, hmax⟩ | ⟨hcodes, hentries, hmax⟩
      · simp only [resultOf, hcodes, hentries, hmax]
        exact ⟨hnew, codeSummary_of_fit hnew⟩
      · simp only [resultOf, hcodes, hentries, hmax]
        exact ⟨hfit, h⟩
    · exact ⟨codesFit_of_forall_nil codes_reset, codeSummary_reset⟩
  · obtain ⟨hcodes, hentries, hmax⟩ := codes_resultOf hi s
    rw [hcodes, hentries, hmax]
    exact ⟨hfit, h⟩

/-! ### The invariant of the whole machine -/

theorem rootWeightOf_eq {nodes : List Node} {root : Option Nat} :
    rootWeightOf nodes root = match root with
      | none => 0#32
      | some r => weightAt nodes r := by
  cases root <;> rfl

/-- `ResultsOk`, by the element each result register summarises. -/
theorem resultsOk_iff (s : State) :
    ResultsOk s ↔ s.results.numSymbols.toNat = (presentValues s.freq).length ∧
      (s.results.treeNodes.toNat = s.nodes.length ∧ s.results.rootWeight = rootWeightOf s.nodes s.root) ∧
      CodeSummary s.codes s.results.codeEntries s.results.maxCodeLen :=
  ⟨fun ⟨hnum, hcount, hweight, hentries, hmax⟩ => ⟨hnum, ⟨hcount, hweight.trans rootWeightOf_eq.symm⟩, hentries, hmax⟩,
    fun ⟨hnum, ⟨hcount, hweight⟩, hentries, hmax⟩ => ⟨hnum, hcount, hweight.trans rootWeightOf_eq, hentries, hmax⟩⟩

/-- The invariant rests on memory, the flags, the datapath and the result registers alone. -/
theorem Inv.congr {s t : State} (h : Inv s) (hmem : Memory.wf t.mem = true) (hflags : FlagsOk t) (hfreq : t.freq = s.freq)
    (hnodes : t.nodes = s.nodes) (hroot : t.root = s.root) (hcodes : t.codes = s.codes)
    (hresults : t.results = s.results) : Inv t where
  memory := hmem
  flags := hflags
  freq := by simpa only [FreqFits, freqAt, hfreq] using h.freq
  tree := by rw [hnodes, hroot]; exact h.tree
  prefixFree := hcodes ▸ h.prefixFree
  codesFit := hcodes ▸ h.codesFit
  results := by rw [resultsOk_iff, hfreq, hnodes, hroot, hcodes, hresults, ← resultsOk_iff]; exact h.results

/-- A running command keeps the invariant. -/
theorem inv_resultOf (i : Instr) (s : State) (hb : busy s = true) (h : Inv s) : Inv (resultOf i s) := by
  obtain ⟨hnum, htree, hcodes⟩ := (resultsOk_iff s).1 h.results
  obtain ⟨hfit, hsummary⟩ := codeSummary_resultOf i s h.tree h.codesFit hcodes
  exact
    { memory := wf_resultOf i s h.memory
      flags := flagsOk_resultOf i s hb h.flags
      freq := freqFits_resultOf i s h.freq
      tree := nodeStoreOk_resultOf i s h.tree
      prefixFree := prefixFree_resultOf i s h.prefixFree
      codesFit := hfit
      results := (resultsOk_iff _).2 ⟨numSymbols_resultOf i s hnum, treeSummary_resultOf i s htree, hsummary⟩ }

/-- A register write keeps the invariant: it touches flags and configuration only (10_state R47). -/
theorem inv_regWrite (r : Reg) (w : Word) (s : State) (h : Inv s) : Inv (regWrite r w s) := by
  obtain ⟨hmem, hcodes, hfreq, hnodes, hroot, hresults, -⟩ := regWrite_frame r w s
  exact h.congr (hmem ▸ h.memory) (flagsOk_regWrite r w s h.flags) hfreq hnodes hroot hcodes hresults

/-- The block's reset state meets the invariant, over any canonical memory. -/
theorem inv_resetBlock (s : State) (hmem : Memory.wf s.mem = true) : Inv (resetBlock s) where
  memory := hmem
  flags := flagsOk_of_noError rfl rfl fun _ => ⟨rfl, rfl⟩
  freq := freqFits_of_zero freq_reset
  tree := nodeStoreOk_empty
  prefixFree := prefixFree_of_forall_nil codes_reset
  codesFit := codesFit_of_forall_nil codes_reset
  results := (resultsOk_iff _).2 ⟨(congrArg List.length presentValues_reset).symm, ⟨rfl, rfl⟩, codeSummary_reset⟩

/-- Settles O60: the state after reset is the block's reset state over an empty memory. -/
theorem resetMeetsInvariant : Obligations.ResetMeetsInvariant := inv_resetBlock State.reset rfl

/-- Settles O59: commands, register writes, host stores and a reset each keep the invariant. -/
theorem stepKeepsInvariant : Obligations.StepKeepsInvariant := by
  intro s t hinv hstep
  refine step_keeps (P := Inv) (fun {s t} hsame h => ?_) inv_resultOf (fun w s hb h => ?_) inv_regWrite
    (fun s a bs hspace h => ?_) (fun s h => inv_resetBlock s h.memory) hinv hstep
  · obtain ⟨hstatus, herrors, -, -, hresults, hfreq, hnodes, hroot, hcodes, heng, hmem, hplatform⟩ := hsame.fields
    exact h.congr (hmem ▸ h.memory) (h.flags.congr hstatus herrors heng hplatform) hfreq hnodes hroot hcodes hresults
  · exact h.congr h.memory (flagsOk_rejectWord w s hb h.flags) rfl rfl rfl rfl rfl
  · exact h.congr (wf_storeBytes bs s.mem a h.memory hspace) (h.flags.congr rfl rfl rfl rfl) rfl rfl rfl rfl rfl

end Sys2Proof.Machine
end

section
/-!
The decoder, word by word (30_encoding R97, R99, R100): the nine command words, and which of the two kinds a reserved word is.
-/

namespace Sys2Proof.Machine

/-- The decoder reads a command from its word (30_encoding R97). -/
theorem decode_encode (i : Instr) : decode (encode i) = .ok i := by cases i <;> rfl

/-- Settles O1: each word is the encoding of its command. -/
theorem tableWordsDecode : Obligations.TableWordsDecode :=
  ⟨decode_encode .nop, decode_encode .clear, decode_encode .freq, decode_encode .tree, decode_encode .codes,
    decode_encode .pack, decode_encode .unpack, decode_encode .tstore, decode_encode .tload⟩

/-- Settles O2: the decoder reads a command from that command's word only. -/
theorem decodeIsInverseOfEncode : Obligations.DecodeIsInverseOfEncode :=
  fun _ i => ⟨eq_encode_of_decode, fun h => h ▸ decode_encode i⟩

/-- RSV, bits 31:8, is 0 exactly in the words below 256 (30_encoding R96). -/
theorem rsvField_eq_zero_iff (w : Word) : rsvField w = 0#24 ↔ w.toNat < 256 := by
  have hw := w.isLt
  rw [← BitVec.toNat_inj, rsvField, BitVec.extractLsb'_toNat, Nat.shiftRight_eq_div_pow]
  simp only [BitVec.toNat_ofNat]
  omega

/-- RSV is checked first (30_encoding R97). -/
theorem decode_eq_reservedBitsSet_iff (w : Word) : decode w = .error .reservedBitsSet ↔ 256 ≤ w.toNat := by
  rw [← not_lt, ← rsvField_eq_zero_iff, decode]
  split
  · simpa
  · split <;> simp_all

/-- The words whose value is one of the nine are command words (30_encoding R99). -/
theorem exists_encode_of_mem {w : Word} (h : w.toNat ∈ [0x00, 0x01, 0x10, 0x20, 0x30, 0x40, 0x50, 0x60, 0x61]) :
    ∃ i, w = encode i := by
  have word : ∀ i, w.toNat = (encode i).toNat → ∃ i, w = encode i := fun i hi => ⟨i, BitVec.eq_of_toNat_eq hi⟩
  simp only [List.mem_cons, List.not_mem_nil, or_false] at h
  rcases h with h | h | h | h | h | h | h | h | h
  exacts [word .nop h, word .clear h, word .freq h, word .tree h, word .codes h, word .pack h, word .unpack h,
    word .tstore h, word .tload h]

/-- Settles O3: RSV decides the first kind; a word below 256 that is none of the nine is of the other kind. -/
theorem reservedWordsAreRejected : Obligations.ReservedWordsAreRejected := by
  refine fun w => ⟨decode_eq_reservedBitsSet_iff w, fun h => ⟨?_, fun hmem => ?_⟩, fun ⟨hlt, hmem⟩ => ?_⟩
  · refine not_le.1 fun hle => ?_
    rw [(decode_eq_reservedBitsSet_iff w).2 hle] at h
    cases h
  · obtain ⟨i, rfl⟩ := exists_encode_of_mem hmem
    rw [decode_encode] at h
    cases h
  · obtain ⟨e, he⟩ := exists_decode_error hmem
    cases e with
    | reservedBitsSet => exact absurd ((decode_eq_reservedBitsSet_iff w).1 he) (not_le.2 hlt)
    | unassignedOpcode => exact he

end Sys2Proof.Machine
end

section
/-!
Who moves and what the move is (00_scope R19, 60_exceptions R206, 30_encoding R102 to R104), and that an accepted command ends.
-/

namespace Sys2Proof.Machine

/-! ### One step -/

theorem step_of_not_ready {s : State} (hr : hostReady s = false) : step s = engineStep s := by
  simp [step, machineStep, hr]

theorem step_of_engineFirst {s : State} (hr : hostReady s = true) (hb : busy s = true) (he : engineFirst s = true) :
    step s = engineStep (takeTurn s) := by
  simp [step, machineStep, hr, hb, he]

theorem step_of_hostFirst {s : State} (hr : hostReady s = true) (hb : busy s = true) (he : engineFirst s = false) :
    step s = hostMove (takeTurn s) := by
  simp [step, machineStep, hr, hb, he]

theorem step_of_idle {s : State} (hr : hostReady s = true) (hb : busy s = false) : step s = hostMove s := by
  simp [step, machineStep, hr, hb]

theorem busy_of_eng {s : State} {w : Word} (h : s.eng = .busy w) : busy s = true := by rw [busy, h]

theorem engineStep_of_eng {s : State} {w : Word} (h : s.eng = .busy w) : engineStep s = perform w s := by
  rw [engineStep, h]

theorem perform_of_decode {w : Word} {i : Instr} (h : decode w = .ok i) (s : State) : perform w s = exec i s := by
  rw [perform, h]

theorem hostReady_of_cons {s : State} {op : HostOp} {rest : List HostOp} (h : s.host = op :: rest)
    (hop : blocked op s = false) : hostReady s = true := by
  simp [hostReady, h, hop]

theorem hostMove_of_cons {s : State} {op : HostOp} {rest : List HostOp} (h : s.host = op :: rest) :
    hostMove s = hostStep op { s with host := rest } := by
  rw [hostMove, h]

/-- Settles O4: while BUSY the engine's step performs the accepted word, which decodes. -/
theorem stepRunsTheAcceptedCommand : Obligations.StepRunsTheAcceptedCommand := by
  intro s w i heng hdec
  refine ⟨fun hr => ?_, fun hr he => ?_, rfl⟩
  · rw [step_of_not_ready hr, engineStep_of_eng heng, perform_of_decode hdec]
  · rw [step_of_engineFirst hr (busy_of_eng heng) he, engineStep_of_eng (s := takeTurn s) heng, perform_of_decode hdec]

/-- The step after a word is placed performs it on the state its acceptance leaves: the engine's turn that was put before the
schedule is used up. -/
theorem step_withPendingWord (w : Word) (s : State) : step (withPendingWord w s) = perform w (accept w s) := by
  unfold withPendingWord
  split
  next hr => exact step_of_engineFirst (s := { accept w s with schedule := .engine :: s.schedule }) hr rfl rfl
  next hr => exact step_of_not_ready (Bool.eq_false_iff.2 hr)

/-- Settles O5: the step performs the placed word, which decodes. -/
theorem placedWordRunsNext : Obligations.PlacedWordRunsNext := by
  intro s nbits w i hdec
  rw [State.withFetchWord, step_withPendingWord, perform_of_decode hdec]

/-- An access that 10_state R24 allows reads its register. -/
theorem hostRegRead_of_aligned {off : Nat} (hlt : off < 4096) (hoff : off % 4 = 0) (s : State) :
    hostRegRead 4 off s = .next (readNoted (regOf off) off s) :=
  if_pos (by simp [accessOk, Config.registerSpace, hlt, hoff])

/-- Settles O7: a host that can act moves while the engine is IDLE or its turn comes first; WAIT's turn is a read of STATUS. -/
theorem stepRunsTheHostStatement : Obligations.StepRunsTheHostStatement := by
  refine ⟨fun s op rest hhost hop => ⟨fun hb => ?_, fun hb he => ?_⟩, fun s => ?_, fun op s => ?_⟩
  · rw [step_of_idle (hostReady_of_cons hhost hop) hb, hostMove_of_cons hhost]
  · rw [step_of_hostFirst (hostReady_of_cons hhost hop) hb he, hostMove_of_cons (s := takeTurn s) hhost]
  · refine ⟨readNoted .status 0x008 s, hostRegRead_of_aligned (by decide) rfl s, ?_⟩
    rw [hostStep, pollStatus, readNoted_host]
    rfl
  · cases op <;> simp [blocked]

/-! ### The end of an accepted command -/

/-- After n steps the engine is IDLE with DONE = 1, or the model has stopped before. -/
def EndsWithin (n : Nat) (s : State) : Prop :=
  (∃ t, runSteps n s = .next t ∧ busy t = false ∧ t.status.done = true) ∨
    (∃ r, runSteps n s = .fault r) ∨ ∃ r, runSteps n s = .refused r

theorem EndsWithin.succ {n : Nat} {s t : State} (h : step s = .next t) (ht : EndsWithin n t) : EndsWithin (n + 1) s := by
  rw [EndsWithin, runSteps, h]
  exact ht

theorem endsWithin_one_of_next {s t : State} (h : step s = .next t) (hb : busy t = false) (hd : t.status.done = true) :
    EndsWithin 1 s := .succ h (.inl ⟨t, rfl, hb, hd⟩)

theorem endsWithin_one_of_stop {s : State} (h : (∃ r, step s = .fault r) ∨ ∃ r, step s = .refused r) : EndsWithin 1 s := by
  rcases h with ⟨r, h⟩ | ⟨r, h⟩
  · exact .inr (.inl ⟨r, by rw [runSteps, h]⟩)
  · exact .inr (.inr ⟨r, by rw [runSteps, h]⟩)

/-- A command's result is IDLE with DONE = 1 (60_exceptions R207). -/
theorem completed_resultOf (i : Instr) (s : State) : busy (resultOf i s) = false ∧ (resultOf i s).status.done = true := by
  refine ⟨?_, ?_⟩
  · rw [busy, (resultOf_frame i s).1]
  · rw [(resultOf_ending i s).1, endStatus]

/-- Performing a word completes it, or a broken duty refuses it. -/
theorem perform_completes (w : Word) (s : State) :
    (∃ t, perform w s = .next t ∧ busy t = false ∧ t.status.done = true) ∨ ∃ r, perform w s = .refused r := by
  cases hdec : decode w with
  | error e => exact .inl ⟨rejectWord w s, perform_of_decode_error hdec s, rfl, rfl⟩
  | ok i =>
    rw [perform_of_decode hdec, exec_eq]
    rcases underDuties_eq s.platform (commandRegions i s) (overlapRegions i s) (resultOf i s) with
      ⟨-, -, -, h⟩ | ⟨-, h⟩ | ⟨-, -, -, h⟩
    · exact .inl ⟨_, h, completed_resultOf i s⟩
    · exact .inr ⟨_, h⟩
    · exact .inr ⟨_, h⟩

/-- The engine's turn ends the command. -/
theorem endsWithin_of_engineStep {s s0 : State} {w : Word} (heng : s0.eng = .busy w) (h : step s = engineStep s0) :
    EndsWithin 1 s := by
  rw [engineStep_of_eng heng] at h
  rcases perform_completes w s0 with ⟨t, ht, hb, hd⟩ | ⟨r, hr⟩
  · exact endsWithin_one_of_next (h.trans ht) hb hd
  · exact endsWithin_one_of_stop (.inr ⟨r, h.trans hr⟩)

/-- While a command runs, a register write neither ends it nor touches the host's list or the turns (10_state R48). -/
theorem regWrite_keeps_command {s : State} (hb : busy s = true) (r : Reg) (w : Word) :
    (regWrite r w s).eng = s.eng ∧ (regWrite r w s).schedule = s.schedule ∧ (regWrite r w s).host = s.host := by
  rw [regWrite_of_busy hb]
  split_ifs <;> exact ⟨rfl, rfl, rfl⟩

/-- While a command runs, a host statement other than a reset leaves it running; it uses up no turn, and adds nothing but WAIT
to the host's list. -/
theorem hostStep_keeps_command {op : HostOp} {s t : State} (hop : op ≠ .rst) (hb : busy s = true)
    (h : hostStep op s = .next t) :
    t.eng = s.eng ∧ t.schedule = s.schedule ∧ ∀ o ∈ t.host, o = .wait ∨ o ∈ s.host := by
  have hkept : ∀ {u : State}, u.host = s.host → ∀ o ∈ u.host, o = .wait ∨ o ∈ s.host := fun hu o ho => .inr (hu ▸ ho)
  cases op with
  | wr bytes offset w =>
    simp only [hostStep, hostRegWrite] at h
    split at h
    · cases h
      obtain ⟨heng, hschedule, hhost⟩ := regWrite_keeps_command hb (regOf offset) w
      exact ⟨heng, hschedule, hkept hhost⟩
    · cases h
  | rd bytes offset =>
    simp only [hostStep, hostRegRead] at h
    split at h
    · cases h
      exact ⟨readNoted_eng _ _ s, readNoted_schedule _ _ s, hkept (readNoted_host _ _ s)⟩
    · cases h
  | memWr a bs =>
    simp only [hostStep, hostMemWrite] at h
    split_ifs at h
    cases h
    exact ⟨rfl, rfl, hkept rfl⟩
  | memRd a n =>
    simp only [hostStep, hostMemRead] at h
    split_ifs at h
    cases h
    exact ⟨rfl, rfl, hkept rfl⟩
  | wait =>
    cases h
    rw [pollStatus_eq, if_pos hb]
    exact ⟨readNoted_eng .status statusOffset s, readNoted_schedule .status statusOffset s, fun o ho => List.mem_cons.1 ho⟩
  | awaitIrq =>
    cases h
    exact ⟨rfl, rfl, hkept rfl⟩
  | stopOnError =>
    cases h
    unfold stopOnError
    split
    · exact ⟨readNoted_eng .errCode errCodeOffset s, readNoted_schedule .errCode errCodeOffset s, fun o ho => absurd ho List.not_mem_nil⟩
    · exact ⟨rfl, rfl, hkept rfl⟩
  | rst => exact absurd rfl hop

/-- One step of a running command, where the host asserts no reset: it ends the command, or the host used up a turn and the
command still runs. -/
theorem step_progress {s : State} {w : Word} (heng : s.eng = .busy w) (hrst : HostOp.rst ∉ s.host) :
    EndsWithin 1 s ∨
      (engineFirst s = false ∧
        ∃ t, step s = .next t ∧ t.eng = .busy w ∧ t.schedule = (agenda s).tail ∧ HostOp.rst ∉ t.host) := by
  have hb := busy_of_eng heng
  cases hr : hostReady s with
  | false => exact .inl (endsWithin_of_engineStep heng (step_of_not_ready hr))
  | true =>
    cases he : engineFirst s with
    | true => exact .inl (endsWithin_of_engineStep (s0 := takeTurn s) heng (step_of_engineFirst hr hb he))
    | false =>
      have hstep := step_of_hostFirst hr hb he
      cases hhost : s.host with
      | nil => simp [hostReady, hhost] at hr
      | cons op rest =>
        rw [hhost, List.mem_cons, not_or] at hrst
        rw [hostMove_of_cons (s := takeTurn s) hhost] at hstep
        cases hres : hostStep op { takeTurn s with host := rest } with
        | fault r => exact .inl (endsWithin_one_of_stop (.inl ⟨r, hstep.trans hres⟩))
        | refused r => exact .inl (endsWithin_one_of_stop (.inr ⟨r, hstep.trans hres⟩))
        | next t =>
          obtain ⟨hteng, htschedule, hthost⟩ := hostStep_keeps_command (s := { takeTurn s with host := rest }) (Ne.symm hrst.1) hb hres
          refine .inr ⟨rfl, t, hstep.trans hres, hteng.trans heng, htschedule, fun ht => ?_⟩
          rcases hthost _ ht with h | h
          · cases h
          · exact hrst.2 h

/-- Where the schedule names a turn of the engine, its length bounds the steps to the command's end. -/
theorem endsWithin_schedule {w : Word} : ∀ {turns : List Agent} {s : State}, s.schedule = turns → Agent.engine ∈ turns →
    s.eng = .busy w → HostOp.rst ∉ s.host → ∃ n, n ≤ turns.length ∧ EndsWithin n s
  | [], _, _, hmem, _, _ => absurd hmem List.not_mem_nil
  | a :: turns, s, hs, hmem, heng, hrst => by
    rcases step_progress heng hrst with hend | ⟨hfirst, t, hstep, hteng, htschedule, htrst⟩
    · exact ⟨1, by simp, hend⟩
    · have hagenda : agenda s = a :: turns := by rw [agenda, hs]
      have ha : a ≠ .engine := by simpa [engineFirst, hagenda] using hfirst
      have hrest : Agent.engine ∈ turns := (List.mem_cons.1 hmem).resolve_left (Ne.symm ha)
      obtain ⟨n, hn, hend⟩ := endsWithin_schedule (by rw [htschedule, hagenda, List.tail_cons]) hrest hteng htrst
      exact ⟨n + 1, Nat.succ_le_succ hn, .succ hstep hend⟩

/-- Whatever the schedule, a running command ends: when the schedule is used up, finitely many turns of the host and then one
of the engine come next (00_scope R19). -/
theorem exists_endsWithin {w : Word} : ∀ {turns : List Agent} {s : State}, s.schedule = turns → s.eng = .busy w →
    HostOp.rst ∉ s.host → ∃ n, EndsWithin n s
  | turns, s, hs, heng, hrst => by
    rcases step_progress heng hrst with hend | ⟨hfirst, t, hstep, hteng, htschedule, htrst⟩
    · exact ⟨1, hend⟩
    · match turns, hs with
      | [], hs =>
        have hagenda : agenda s = List.replicate (Config.freeHostTurns s.draws) .host ++ [.engine] := by rw [agenda, hs]
        cases hk : Config.freeHostTurns s.draws with
        | zero => simp [engineFirst, hagenda, hk] at hfirst
        | succ k =>
          have hmem : Agent.engine ∈ (agenda s).tail := by simp [hagenda, hk, List.replicate_succ]
          obtain ⟨n, -, hend⟩ := endsWithin_schedule htschedule hmem hteng htrst
          exact ⟨n + 1, .succ hstep hend⟩
      | a :: turns, hs =>
        have hagenda : agenda s = a :: turns := by rw [agenda, hs]
        obtain ⟨n, hend⟩ := exists_endsWithin (turns := turns) (by rw [htschedule, hagenda, List.tail_cons]) hteng htrst
        exact ⟨n + 1, .succ hstep hend⟩

/-- Settles O8: the host's turns before the engine's are finitely many, at most the schedule's where it names the engine; and
with an idle host the engine moves at once. -/
theorem acceptedCommandCompletes : Obligations.AcceptedCommandCompletes := by
  intro s w heng hrst
  refine ⟨?_, fun hhost hduties => ?_⟩
  · by_cases hmem : Agent.engine ∈ s.schedule
    · obtain ⟨n, hn, hend⟩ := endsWithin_schedule rfl hmem heng hrst
      exact ⟨n, fun _ => hn, hend⟩
    · obtain ⟨n, hend⟩ := exists_endsWithin rfl heng hrst
      exact ⟨n, fun h => absurd h hmem, hend⟩
  · rw [step_of_not_ready (by rw [hostReady, hhost]), engineStep_of_eng heng]
    cases hdec : decode w with
    | error e => exact ⟨rejectWord w s, perform_of_decode_error hdec s, rfl, rfl⟩
    | ok i => exact ⟨resultOf i s, (perform_of_decode hdec s).trans (exec_of_duties (hduties i hdec)), completed_resultOf i s⟩

end Sys2Proof.Machine
end

section
/-!
The register port (10_state R24 to R50): what each offset reads and writes, IDLE and BUSY, and `irq` (60_exceptions R214, R215).
-/

namespace Sys2Proof.Machine

/-! ### Writes -/

/-- A write to a register that is read-only or reserved changes nothing (10_state R25). -/
theorem regWrite_of_readOnly {r : Reg} (hcmd : r ≠ .cmd) (hstatus : r ≠ .status) (hintEn : r ≠ .intEn)
    (hcfg : ¬ r.isCfg = true) (w : Word) (s : State) : regWrite r w s = s := by
  simp [regWrite, hcmd, hstatus, hintEn, hcfg]

/-- A write to a configuration register while IDLE (10_state R36 to R38). -/
theorem regWrite_cfg_of_idle {r : Reg} (hcfg : r.isCfg = true) {s : State} (h : s.eng = .idle) (w : Word) :
    regWrite r w s = { s with cfg := writeCfg r w s.cfg } := by
  have hb : busy s = false := by rw [busy, h]
  cases r <;> simp [regWrite, hb, Reg.isCfg] at hcfg ⊢

/-- Settles O12: the offset's register is found by the register map, and by its kind the write is stored or ignored. -/
theorem writesWhileIdle : Obligations.WritesWhileIdle := by
  intro s w hidle
  have hlow : w.setWidth 16 = w.extractLsb' 0 16 := BitVec.setWidth_eq_extractLsb' (by decide)
  have cfg : ∀ {off : Nat} {r : Reg}, off < 4096 → off % 4 = 0 → regOf off = r → r.isCfg = true →
      hostRegWrite 4 off w s = .next { s with cfg := writeCfg r w s.cfg } := by
    intro off r hlt hoff hr hcfg
    rw [hostRegWrite_of_aligned hlt hoff, hr, regWrite_cfg_of_idle hcfg hidle]
  refine ⟨hostRegWrite_of_aligned (by decide) rfl w s, ?_, ?_, cfg (by decide) rfl rfl rfl, cfg (by decide) rfl rfl rfl,
    cfg (by decide) rfl rfl rfl, cfg (by decide) rfl rfl rfl, fun off hlt hoff hwhere => ?_⟩
  · rw [← hlow]
    exact cfg (by decide) rfl rfl rfl
  · rw [← hlow]
    exact cfg (by decide) rfl rfl rfl
  · rw [hostRegWrite_of_aligned hlt hoff, regWrite_of_readOnly]
    · rw [ne_eq, regOf_eq_iff (o := 0x004) rfl rfl hoff]
      omega
    · rw [ne_eq, regOf_eq_iff (o := 0x008) rfl rfl hoff]
      omega
    · rw [ne_eq, regOf_eq_iff (o := 0x01C) rfl rfl hoff]
      omega
    · rw [isCfg_regOf_iff hoff]
      simp only [List.mem_cons, List.not_mem_nil, or_false]
      omega

/-! ### Reads -/

/-- A read of a register whose value is defined notes its value and changes nothing else (10_state R49). -/
theorem readNoted_of_defined {r : Reg} {s : State} (h : busy s = false ∨ (r.unspecifiedWhileBusy = false ∧ r ≠ .status))
    (off : Nat) : readNoted r off s = { s with observed := .register off (regValue s r) :: s.observed } := by
  have hread : regRead r s = (regValue s r, s) := by
    rcases h with hb | ⟨hspec, hstatus⟩
    · simp [regRead, hb]
    · simp [regRead, hspec, hstatus]
  rw [readNoted, hread]
  rfl

/-- The same, by the offset. -/
theorem hostRegRead_of_defined {off : Nat} {r : Reg} {s : State} (hlt : off < 4096) (hoff : off % 4 = 0) (hr : regOf off = r)
    (h : busy s = false ∨ (r.unspecifiedWhileBusy = false ∧ r ≠ .status)) :
    hostRegRead 4 off s = .next { s with observed := .register off (regValue s r) :: s.observed } := by
  rw [hostRegRead_of_aligned hlt hoff, hr, readNoted_of_defined h]

/-- A read while BUSY of a register that 10_state R49 leaves unspecified draws its value. -/
theorem hostRegRead_of_unspecified {off : Nat} {s : State} (hlt : off < 4096) (hoff : off % 4 = 0) (hb : busy s = true)
    (hr : (regOf off).unspecifiedWhileBusy = true) :
    ∃ w, hostRegRead 4 off s = .next { s with observed := .register off w :: s.observed, draws := s.draws + 1 } := by
  refine ⟨(regRead (regOf off) s).1, ?_⟩
  rw [hostRegRead_of_aligned hlt hoff, readNoted, regRead, if_pos hb, if_pos hr]
  rfl

/-- The reserved offsets (10_state R26). -/
theorem regOf_reserved {off : Nat} (hoff : off % 4 = 0)
    (h : (0x058 ≤ off ∧ off ≤ 0x3FC) ∨ (0xC00 ≤ off ∧ off ≤ 0xFFC)) : regOf off = .reserved := by
  rw [regOf, if_neg (by omega), if_neg (by omega), List.getElem?_eq_none (by simp [singleRegs]; omega), Option.getD_none]

/-- The window of FREQ (10_state R41). -/
theorem regOf_freqWin (v : Byte) : regOf (0x400 + 4 * v.toNat) = .freqWin v := by
  have hv := v.isLt
  rw [regOf, if_pos (by omega), show (0x400 + 4 * v.toNat - 0x400) / 4 = v.toNat by omega, BitVec.ofNat_toNat,
    BitVec.setWidth_eq]

/-- The window of CODE_LEN (10_state R46). -/
theorem regOf_codeLenWin (v : Byte) : regOf (0x800 + 4 * v.toNat) = .codeLenWin v := by
  have hv := v.isLt
  rw [regOf, if_neg (by omega), if_pos (by omega), show (0x800 + 4 * v.toNat - 0x800) / 4 = v.toNat by omega,
    BitVec.ofNat_toNat, BitVec.setWidth_eq]

/-- Settles O9: CMD is the register at 0x004; its write is an acceptance or sets OVERRUN, and its value is 0. -/
theorem cmdWriteIsAcceptedOrDropped : Obligations.CmdWriteIsAcceptedOrDropped := by
  intro s w
  refine ⟨fun h => ?_, fun h => ?_, hostRegRead_of_defined (by decide) rfl rfl (.inr ⟨rfl, by decide⟩)⟩
  · have hb : busy s = false := by rw [busy, h]
    rw [hostRegWrite_of_aligned (by decide) rfl, regWrite, if_pos (by rfl), hb]
    rfl
  · rw [hostRegWrite_of_aligned (by decide) rfl, regWrite_of_busy (busy_of_eng_ne_idle h)]
    rfl

/-- CODE_LEN reads the length of a code that fits its 8 bits (10_state R46). -/
theorem codeLen_setWidth {s : State} {v : Byte} (h : (codeAt s v).length ≤ 255) :
    (codeLen s v).setWidth 32 = BitVec.ofNat 32 (codeAt s v).length := by
  apply BitVec.eq_of_toNat_eq
  simp only [codeLen, BitVec.toNat_setWidth, BitVec.toNat_ofNat]
  omega

/-- Settles O13: each offset's register and its value. -/
theorem readsWhileIdle : Obligations.ReadsWhileIdle := by
  intro s hidle reads
  have hb : busy s = false := by rw [busy, hidle]
  have value : ∀ {off : Nat} {r : Reg}, off < 4096 → off % 4 = 0 → regOf off = r → reads off (regValue s r) :=
    fun hlt hoff hr => hostRegRead_of_defined hlt hoff hr (.inl hb)
  have hbit : (if s.doneIe then 1#32 else 0#32) = bitAt s.doneIe 0 := rfl
  rw [hbit]
  refine ⟨value (by decide) rfl rfl, value (by decide) rfl rfl, value (by decide) rfl rfl, value (by decide) rfl rfl,
    value (by decide) rfl rfl, value (by decide) rfl rfl, value (by decide) rfl rfl, value (by decide) rfl rfl,
    value (by decide) rfl rfl, value (by decide) rfl rfl, value (by decide) rfl rfl, value (by decide) rfl rfl,
    value (by decide) rfl rfl, value (by decide) rfl rfl, value (by decide) rfl rfl, value (by decide) rfl rfl,
    value (by decide) rfl rfl, value (by decide) rfl rfl, value (by decide) rfl rfl, value (by decide) rfl rfl,
    value (by decide) rfl rfl, fun v => ?_, fun v hlen => ?_, fun off hoff hwhere => ?_⟩
  · exact value (by have := v.isLt; omega) (by omega) (regOf_freqWin v)
  · rw [← codeLen_setWidth hlen]
    exact value (by have := v.isLt; omega) (by omega) (regOf_codeLenWin v)
  · exact value (by omega) hoff (regOf_reserved hoff hwhere)

/-! ### STATUS -/

theorem getLsbD_bitAt (b : Bool) {n k : Nat} (hk : k < 32) : (bitAt b n).getLsbD k = (b && decide (k = n)) := by
  unfold bitAt
  cases b
  · simp
  · by_cases h : k = n <;> simp [h, hk] <;> omega

/-- STATUS bit by bit (10_state R29). -/
theorem getLsbD_statusWordWith (s : State) (tv : Bool) {k : Nat} (hk : k < 32) :
    (statusWordWith s tv).getLsbD k =
      ((busy s && decide (k = 0)) || (s.status.done && decide (k = 1)) || (s.status.err && decide (k = 2)) ||
        (s.status.empty && decide (k = 3)) || (s.status.overrun && decide (k = 4)) || (tv && decide (k = 5)) ||
        (decide (8 ≤ k) && s.status.lastOp.getLsbD (k - 8))) := by
  simp only [statusWordWith, BitVec.getLsbD_or, getLsbD_bitAt _ hk, BitVec.getLsbD_shiftLeft, BitVec.getLsbD_setWidth]
  have hsub : k - 8 < 32 := by omega
  simp only [hk, hsub, decide_true, Bool.true_and, ← decide_not, not_lt]

/-- The fields of STATUS (10_state R29). -/
theorem statusWordWith_fields (s : State) (tv : Bool) :
    (statusWordWith s tv).getLsbD 0 = busy s ∧ (statusWordWith s tv).getLsbD 1 = s.status.done ∧
      (statusWordWith s tv).getLsbD 2 = s.status.err ∧ (statusWordWith s tv).getLsbD 3 = s.status.empty ∧
      (statusWordWith s tv).getLsbD 4 = s.status.overrun ∧ (statusWordWith s tv).getLsbD 5 = tv ∧
      (statusWordWith s tv).getLsbD 6 = false ∧ (statusWordWith s tv).getLsbD 7 = false ∧
      (statusWordWith s tv).extractLsb' 8 8 = s.status.lastOp ∧ (statusWordWith s tv).extractLsb' 16 16 = 0#16 := by
  have bit := fun {k : Nat} (hk : k < 32) => getLsbD_statusWordWith s tv hk
  have high : ∀ {k : Nat}, 8 ≤ k → k < 32 → (statusWordWith s tv).getLsbD k = s.status.lastOp.getLsbD (k - 8) := by
    intro k h8 hk
    rw [bit hk]
    simp [h8, show k ≠ 0 by omega, show k ≠ 1 by omega, show k ≠ 2 by omega, show k ≠ 3 by omega, show k ≠ 4 by omega,
      show k ≠ 5 by omega]
  refine ⟨(bit (by decide)).trans (by simp), (bit (by decide)).trans (by simp), (bit (by decide)).trans (by simp),
    (bit (by decide)).trans (by simp), (bit (by decide)).trans (by simp), (bit (by decide)).trans (by simp),
    (bit (by decide)).trans (by simp), (bit (by decide)).trans (by simp), ?_, ?_⟩
  · ext j hj
    rw [BitVec.getElem_extractLsb', high (by omega) (by omega), Nat.add_sub_cancel_left, BitVec.getLsbD_eq_getElem]
  · ext j hj
    rw [BitVec.getElem_extractLsb', high (by omega) (by omega), BitVec.getLsbD_of_ge _ _ (by omega), BitVec.getElem_zero]

/-- Settles O14: STATUS is the register at 0x008, and IDLE is BUSY = 0. -/
theorem statusReadsItsFields : Obligations.StatusReadsItsFields := by
  intro s hidle
  have hb : busy s = false := by rw [busy, hidle]
  obtain ⟨h0, hrest⟩ := statusWordWith_fields s (treeValid s)
  exact ⟨statusWord s, hostRegRead_of_defined (by decide) rfl rfl (.inl hb), h0.trans hb, hrest⟩

/-- The offsets of the registers whose whole value is unspecified while BUSY (10_state R49). -/
theorem unspecified_regOf {off : Nat} (hoff : off % 4 = 0)
    (h : (0x00C ≤ off ∧ off ≤ 0x018) ∨ (0x038 ≤ off ∧ off ≤ 0x054) ∨ (0x400 ≤ off ∧ off ≤ 0xBFC)) :
    (regOf off).unspecifiedWhileBusy = true := by
  have single : ∀ k, k < 22 → (3 ≤ k ∧ k ≤ 6 ∨ 14 ≤ k ∧ k ≤ 21) →
      ((singleRegs[k]?).getD .reserved).unspecifiedWhileBusy = true := by decide
  unfold regOf
  split_ifs
  · rfl
  · rfl
  · exact single (off / 4) (by omega) (by omega)

/-- Settles O15: the registers that 10_state R49 defines read their value; STATUS its fields with TREE_VALID free; the others a
free value. -/
theorem readsWhileBusy : Obligations.ReadsWhileBusy := by
  intro s hbusy reads readsSome
  have hb := busy_of_eng_ne_idle hbusy
  have value : ∀ {off : Nat} {r : Reg}, off < 4096 → off % 4 = 0 → regOf off = r → r.unspecifiedWhileBusy = false →
      r ≠ .status → reads off (regValue s r) :=
    fun hlt hoff hr hspec hstatus => hostRegRead_of_defined hlt hoff hr (.inr ⟨hspec, hstatus⟩)
  have hbit : (if s.doneIe then 1#32 else 0#32) = bitAt s.doneIe 0 := rfl
  rw [hbit]
  refine ⟨value (by decide) rfl rfl rfl (by decide), value (by decide) rfl rfl rfl (by decide),
    value (by decide) rfl rfl rfl (by decide), value (by decide) rfl rfl rfl (by decide),
    value (by decide) rfl rfl rfl (by decide), value (by decide) rfl rfl rfl (by decide),
    value (by decide) rfl rfl rfl (by decide), value (by decide) rfl rfl rfl (by decide),
    value (by decide) rfl rfl rfl (by decide), fun off hoff hwhere => ?_, ?_, fun off hoff hwhere => ?_⟩
  · exact value (by omega) hoff (regOf_reserved hoff hwhere) rfl (by decide)
  · have hread : regRead .status s = (statusWordWith s ((Config.freeWord s.draws).getLsbD 5), draw s) := by
      simp [regRead, hb, Reg.unspecifiedWhileBusy]
    obtain ⟨h0, h1, h2, h3, h4, -, h6, h7, hop, hhigh⟩ :=
      statusWordWith_fields s ((Config.freeWord s.draws).getLsbD 5)
    refine ⟨_, ⟨h0.trans hb, h1, h2, h3, h4, h6, h7, hop, hhigh, fun hflags => ?_⟩, ?_⟩
    · obtain ⟨hdone, herr, hempty, -⟩ := hflags.busyClean hb
      exact ⟨h1.trans hdone, h2.trans herr, h3.trans hempty⟩
    · rw [hostRegRead_of_aligned (by decide) rfl, show regOf 0x008 = .status from rfl, readNoted, hread]
      rfl
  · obtain ⟨w, hw⟩ := hostRegRead_of_unspecified (by omega) hoff hb (unspecified_regOf hoff hwhere)
    exact ⟨w, trivial, hw⟩

/-- Settles O16: such an access is none that 10_state R24 allows. -/
theorem otherAccessesAreRefused : Obligations.OtherAccessesAreRefused := by
  intro s bytes off w h
  have hbad : accessOk bytes off = false := by
    rw [Bool.eq_false_iff]
    intro hok
    simp only [accessOk, Bool.and_eq_true, beq_iff_eq, decide_eq_true_eq] at hok
    rw [Config.registerSpace] at hok
    omega
  simp [hostRegWrite, hostRegRead, hbad]

/-- Settles O17: `irq` is DONE and DONE_IE; a command ends with DONE = 1 and keeps DONE_IE, and acceptance and the W1C write
clear DONE. -/
theorem irqFollowsDoneAndEnable : Obligations.IrqFollowsDoneAndEnable := by
  refine ⟨fun i s t h => ?_, fun s w => ⟨?_, rfl⟩, fun s w hw => ?_, fun s w => ?_, rfl⟩
  · obtain ⟨-, hdone, -, -, -, -, hdoneIe, -⟩ := everyCommandCompletes i s t h
    rw [irq, hdone, hdoneIe, Bool.true_and]
  · rw [irq, rejectWord, raise, complete_status, complete_doneIe, Bool.true_and]
  · refine ⟨_, statusWriteClears s w, ?_⟩
    simp [irq, hw]
  · exact ⟨_, hostRegWrite_of_aligned (by decide) rfl w s, rfl⟩

end Sys2Proof.Machine
end

section
/-!
The host's memory statements (30_encoding R102, 20_memory R84, R85) and the reset input (70_reset_and_hazards R231, R232).
-/

namespace Sys2Proof.Machine

/-! ### MEMWR and MEMRD -/

theorem hitsDevice_eq_false {p : Platform} {lo hi : Nat} (h : ∀ x, lo ≤ x → x < hi → kindOf p x ≠ .device) :
    hitsDevice p lo hi = false := by
  rw [Bool.eq_false_iff]
  intro hhit
  obtain ⟨x, hlo, hhi, hx⟩ := (hitsDevice_iff p lo hi).1 hhit
  exact h x hlo hhi hx

@[simp] theorem length_hostLoad (s : State) (writes : Span) : ∀ (n a : Nat), (hostLoad s writes a n).length = n
  | 0, _ => rfl
  | n + 1, a => by rw [hostLoad, List.length_cons, length_hostLoad s writes n]

/-- Outside a running command's write region MEMRD gives the memory's bytes (20_memory R85). -/
theorem getElem?_hostLoad (s : State) {writes : Span} : ∀ (n a k : Nat), k < n → writes.has (a + k) = false →
    (hostLoad s writes a n)[k]? = some (Memory.read s.mem (a + k))
  | n + 1, a, 0, _, hout => by
    rw [Nat.add_zero] at hout
    rw [hostLoad, if_neg (Bool.eq_false_iff.1 hout), List.getElem?_cons_zero, Nat.add_zero]
  | n + 1, a, k + 1, hk, hout => by
    rw [show a + (k + 1) = a + 1 + k by omega] at hout ⊢
    rw [hostLoad, List.getElem?_cons_succ, getElem?_hostLoad s n (a + 1) k (by omega) hout]

/-- Settles O18: off every device and inside the address space MEMWR stores and MEMRD loads. -/
theorem hostMemoryWritesAndReads : Obligations.HostMemoryWritesAndReads := by
  intro s a bs hwf hspace hplain
  have hin : ¬ Config.addressSpace < a + bs.length := not_lt.2 hspace
  have hdevice := hitsDevice_eq_false hplain
  refine ⟨fun hreads hwrites => ?_, hostLoad s (runningRegions s).writes a bs.length, ?_, length_hostLoad _ _ _ _,
    fun k hk hout => getElem?_hostLoad s _ _ _ hk hout⟩
  · refine ⟨{ s with mem := storeBytes s.mem a bs }, ?_, rfl, loadBytes_storeBytes bs s.mem a hwf hspace,
      fun x hx => read_storeBytes_outside bs s.mem a x hwf hspace hx⟩
    rw [hostMemWrite, if_neg hin, hdevice, (meets_eq_false_iff _ _).2 hreads, (meets_eq_false_iff _ _).2 hwrites]
    rfl
  · rw [hostMemRead, if_neg hin, hdevice]
    rfl

theorem runningCommand_of_decode {s : State} {w : Word} {i : Instr} (heng : s.eng = .busy w) (hdec : decode w = .ok i) :
    runningCommand s = some i := by
  simp [runningCommand, heng, hdec]

/-- Regions with a common address meet. -/
theorem meets_of_has {r q : Span} {x : Nat} (hr : r.has x = true) (hq : q.has x = true) : r.meets q = true := by
  cases h : r.meets q with
  | true => rfl
  | false => exact absurd ⟨hr, hq⟩ ((meets_eq_false_iff r q).1 h x)

/-- Settles O19: a byte of both the host's range and a region of the running command is a common address. -/
theorem hostWriteIntoRunningRegionRefused : Obligations.HostWriteIntoRunningRegionRefused := by
  intro s w i a x bs heng hdec hspace hplain hax hxa hregion
  have hin : ¬ Config.addressSpace < a + bs.length := not_lt.2 hspace
  have hrunning : runningRegions s = commandRegions i s := by
    rw [runningRegions, runningCommand_of_decode heng hdec]
  have hhas : Span.has { base := a, len := bs.length } x = true := by simp [Span.has, hax, hxa]
  have hmeets : ((commandRegions i s).reads.meets { base := a, len := bs.length } ||
      (commandRegions i s).writes.meets { base := a, len := bs.length }) = true := by
    rw [Bool.or_eq_true]
    exact hregion.imp (meets_of_has · hhas) (meets_of_has · hhas)
  rw [hostMemWrite, if_neg hin, hitsDevice_eq_false hplain, hrunning, hmeets]
  rfl

/-! ### Reset -/

theorem hostReset_of_no_command {s : State} (h : runningCommand s = none) : hostReset s = .next (resetBlock s) := by
  rw [hostReset, h]

/-- Settles O20: the block takes its reset state. -/
theorem resetWhileIdle : Obligations.ResetWhileIdle := by
  intro s hidle
  have hstatus : statusWord (resetBlock s) = 0#32 := show statusWord State.reset = 0#32 by decide
  exact ⟨resetBlock s, hostReset_of_no_command (by rw [runningCommand, hidle]), rfl, rfl, rfl, rfl, rfl, freq_reset, rfl, rfl,
    codes_reset, rfl, rfl, hstatus, rfl, rfl, rfl, rfl, rfl, rfl⟩

/-- Settles O21: the store of the sequence's first writes lies in the address space, as that of all of them does. -/
theorem resetAbandonsTheCommand : Obligations.ResetAbandonsTheCommand := by
  refine ⟨fun s w i heng hdec hduties hwf => ?_, fun s w e heng hdec => ?_⟩
  · obtain ⟨hreads, hwrites, hapart⟩ := hduties
    have hspace := commandWrites_in_space i s
    generalize hdone : (commandWrites i s).2.take (Config.freeWriteCount s.draws) = done
    have hlen : done.length ≤ (commandWrites i s).2.length := hdone ▸ List.length_take_le' _ _
    have htake : (commandWrites i s).2.take done.length = done := by
      rw [← hdone, List.length_take, ← List.take_eq_take_min]
    refine ⟨draw (resetBlock { s with mem := storeBytes s.mem (commandWrites i s).1 done }), done.length, ?_, hlen, rfl, ?_, ?_⟩
    · rw [hostReset, runningCommand_of_decode heng hdec]
      simp only [hdone]
      exact underDuties_next _ hreads hwrites hapart
    · rw [htake]
      exact loadBytes_storeBytes done s.mem _ hwf (by omega)
    · exact fun x hx => read_storeBytes_outside done s.mem _ x hwf (by omega) hx
  · exact ⟨hostReset_of_no_command (by simp [runningCommand, heng, hdec]), rfl, rfl, rfl, rfl⟩

end Sys2Proof.Machine
end

section
/-!
How a command can end: which memory it changes, when it is refused, when it sets EMPTY, and which error it records
(60_exceptions R201 to R207, 20_memory R73, R87, R91).
-/

namespace Sys2Proof.Machine

/-! ### Memory and refusals -/

/-- Settles O24: a command stores its write sequence, which lies in its write region. -/
theorem onlyTheWriteRegionChanges : Obligations.OnlyTheWriteRegionChanges := by
  intro i s t h hwf
  obtain rfl := eq_of_exec_next h
  refine ⟨fun hi => ?_, fun a => ⟨?_, ?_, ?_⟩⟩
  · rw [mem_resultOf]
    cases i with
    | nop | clear | freq | tree | codes | tload => rfl
    | pack | unpack | tstore => simp at hi
  · rintro rfl ha
    have hlen := (packWrites_spec s).2
    exact read_resultOf_outside .pack s hwf a (ha.imp_right fun h => le_trans (Nat.add_le_add_left hlen _) h)
  · rintro rfl ha
    have hlen := length_unpackWrites s
    exact read_resultOf_outside .unpack s hwf a (ha.imp_right fun h => le_trans (Nat.add_le_add_left hlen _) h)
  · rintro rfl ha
    have hlen := length_tstoreWrites s
    exact read_resultOf_outside .tstore s hwf a (ha.imp_right fun h => le_trans (Nat.add_le_add_left hlen _) h)

/-- Settles O25: the three answers of the duty check exclude each other, and so do their conditions. -/
theorem dutiesDecideRefusal : Obligations.DutiesDecideRefusal := by
  intro i s
  rw [exec_eq, DutiesKept]
  rcases underDuties_eq s.platform (commandRegions i s) (overlapRegions i s) (resultOf i s) with
    ⟨hreads, hwrites, hapart, h⟩ | ⟨hplain, h⟩ | ⟨hreads, hwrites, hapart, h⟩
  · simp [h, hreads, hwrites, hapart]
  · rw [not_and] at hplain
    simp +contextual [h, hplain]
  · simp [h, hreads, hwrites, hapart]

/-! ### EMPTY -/

theorem presentValues_eq_nil_iff (s : State) : presentValues s.freq = [] ↔ ∀ v, freqAt s v = 0#32 := by
  simp [presentValues, freqAt, List.filter_eq_nil_iff]

/-- TREE, CODES and the control commands raise no error. -/
theorem Raises.instr_mem {s : State} {i : Instr} {e : CommandError} (h : Raises s i e) :
    i ∈ [Instr.freq, .pack, .unpack, .tstore, .tload] := by
  cases h with
  | noCode | badTable | badStream => decide
  | busError _ _ _ _ hacc => cases hacc <;> decide

/-- Settles O26: a success sets EMPTY where the command's rule says so; a failing FREQ, PACK or UNPACK has a sample. -/
theorem emptyInExactlyFiveCases : Obligations.EmptyInExactlyFiveCases := by
  intro i s t h hclear
  obtain rfl := eq_of_exec_next h
  rcases ending_resultOf i s with ⟨-, herrors, hempty⟩ | ⟨e, hraises, -, hempty, herrors, hcode, hsamples⟩
  · refine ⟨?_, fun _ => by rw [herrors]⟩
    rw [hempty, hclear, Bool.false_or]
    cases i <;> simp [presentValues_eq_nil_iff]
  · refine ⟨?_, fun hset => absurd (hempty.symm.trans hset) (by simp [hclear])⟩
    rw [hempty, hclear]
    refine ⟨fun hf => absurd hf Bool.false_ne_true, fun hcases => ?_⟩
    have hi := hraises.instr_mem
    rcases hcases with ⟨rfl, h0⟩ | ⟨rfl, -⟩ | ⟨rfl, -⟩ | ⟨rfl, h0⟩ | ⟨rfl, h0⟩
    · exact absurd h0 (hsamples (by decide))
    · exact absurd hi (by decide)
    · exact absurd hi (by decide)
    · exact absurd h0 (hsamples (by decide))
    · exact absurd h0 (hsamples (by decide))

/-! ### The error record -/

/-- A number below 2^32 fits a 32-bit register. -/
theorem toNat_word {n : Nat} (h : n < 2 ^ 32) : (BitVec.ofNat 32 n).toNat = n :=
  (BitVec.toNat_ofNat _ _).trans (Nat.mod_eq_of_lt h)

/-- A sample index, and PACK's index N, fit ERR_INDEX. -/
theorem toNat_sampleIndex {s : State} {i : Nat} (h : i ≤ sampleCount s) : (BitVec.ofNat 32 i).toNat = i := by
  have hle := sampleCount_le s
  exact toNat_word (by omega)

/-- Settles O28: the address of a BUS_ERROR is that of the access that failed, and fits FAULT_ADDR. -/
theorem faultAddrIsExact : Obligations.FaultAddrIsExact := by
  intro i s t h hcode
  obtain rfl := eq_of_exec_next h
  rcases ending_resultOf i s with ⟨-, herrors, -⟩ | ⟨e, hraises, -, -, herrors, -⟩
  · simp [herrors] at hcode
  · rw [herrors] at hcode ⊢
    cases hraises with
    | noCode | badTable | badStream => simp [CommandError.code] at hcode
    | busError _ j base k hacc hbad hadm hfits =>
      have hindex : (BitVec.ofNat 32 k).toNat = k := toNat_word (by omega)
      refine ⟨base, k, toNat_word hfits, hbad, hadm, ?_⟩
      cases hacc with
      | freq k hk => exact .inl ⟨rfl, rfl, hk, hindex⟩
      | packRead k hk => exact .inr (.inl ⟨rfl, rfl, hk, hindex⟩)
      | packWrite i k hi hk => exact .inr (.inr (.inl ⟨rfl, rfl, hk⟩))
      | tstore k hk => exact .inr (.inr (.inr (.inl ⟨rfl, rfl, hk, hindex⟩)))
      | tload k hk => exact .inr (.inr (.inr (.inr (.inl ⟨rfl, rfl, hk, hindex⟩))))
      | unpackRead i k hi hk => exact .inr (.inr (.inr (.inr (.inr (.inl ⟨rfl, rfl, hk⟩)))))
      | unpackWrite k hk => exact .inr (.inr (.inr (.inr (.inr (.inr ⟨rfl, rfl, hk, hindex⟩)))))

/-- What `ErrorCodesByCommand` says of CORRUPT_ARTIFACT from TLOAD, by the defect (45_bitpacker_decoder R179). -/
theorem TableDefect.record {s : State} {sub j : Nat} (h : TableDefect s sub j) :
    (BitVec.ofNat 32 sub = 1#32 ∧ BitVec.ofNat 32 j = 0#32 ∧ 256 < tableCountAt s) ∨
    (BitVec.ofNat 32 sub ∈ [2#32, 3#32, 4#32] ∧ (BitVec.ofNat 32 j).toNat < tableCountAt s ∧ tableCountAt s ≤ 256) ∨
    (BitVec.ofNat 32 sub = 5#32 ∧ (BitVec.ofNat 32 j).toNat = tableCountAt s ∧ tableCountAt s ≤ 256) := by
  cases h with
  | count hk => exact .inl ⟨rfl, rfl, hk⟩
  | entry sub e hlo hhi he hk =>
    refine .inr (.inl ⟨?_, (toNat_word (by omega)).trans_lt he, hk⟩)
    interval_cases sub <;> simp
  | notPrefixFree hk => exact .inr (.inr ⟨rfl, toNat_word (by omega), hk⟩)

/-- What `ErrorCodesByCommand` says of BUS_ERROR, by the access (60_exceptions R202). -/
theorem BusAccess.record {s : State} {c : Instr} {i base k : Nat} (h : BusAccess s c i base k) (hfits : base + k < 2 ^ 32) :
    (c ∈ [Instr.freq, .unpack] ∧ (BitVec.ofNat 32 i).toNat < sampleCount s) ∨
    (c = .pack ∧ (BitVec.ofNat 32 i).toNat ≤ sampleCount s) ∨
    (c ∈ [Instr.tstore, .tload] ∧ (BitVec.ofNat 32 (base + k)).toNat = tableAddr s + (BitVec.ofNat 32 i).toNat) := by
  have table : (BitVec.ofNat 32 (base + k)).toNat = base + (BitVec.ofNat 32 k).toNat := by
    rw [toNat_word hfits, toNat_word (by omega)]
  cases h with
  | freq k hk => exact .inl ⟨by decide, (toNat_sampleIndex hk.le).trans_lt hk⟩
  | packRead k hk => exact .inr (.inl ⟨rfl, (toNat_sampleIndex hk.le).trans_le hk.le⟩)
  | packWrite i k hi hk => exact .inr (.inl ⟨rfl, (toNat_sampleIndex hi).trans_le hi⟩)
  | tstore k hk => exact .inr (.inr ⟨by decide, table⟩)
  | tload k hk => exact .inr (.inr ⟨by decide, table⟩)
  | unpackRead i k hi hk => exact .inl ⟨by decide, (toNat_sampleIndex hi.le).trans_lt hi⟩
  | unpackWrite k hk => exact .inl ⟨by decide, (toNat_sampleIndex hk.le).trans_lt hk⟩

/-- Settles O27: a success keeps the detail registers, and each error of 60_exceptions R202 has one code and its record. -/
theorem errorCodesByCommand : Obligations.ErrorCodesByCommand := by
  intro i s t h
  obtain rfl := eq_of_exec_next h
  rcases ending_resultOf i s with ⟨-, herrors, -⟩ | ⟨e, hraises, -, -, herrors, hcode, -⟩
  · simp [herrors]
  · have hi : i ∈ [Instr.nop, .clear, .tree, .codes] → e.code = 0#4 := by
      have hmem := hraises.instr_mem
      intro hi
      simp only [List.mem_cons, List.not_mem_nil, or_false] at hi
      rcases hi with rfl | rfl | rfl | rfl <;> exact absurd hmem (by decide)
    rw [herrors]
    refine ⟨?_, hi, fun h0 => absurd h0 hcode, fun h1 => ?_, fun h2 => ?_, fun h3 => ?_⟩
    · cases hraises <;> simp [CommandError.code]
    · cases hraises with
      | badTable | badStream | busError => simp [CommandError.code] at h1
      | noCode i v hv hnone hcoded =>
        have hlt : i < sampleCount s := length_matrixAt s ▸ (List.getElem?_eq_some_iff.1 hv).1
        have hindex : (CommandError.inconsistentCodeTable i v).index.toNat = i := toNat_sampleIndex hlt.le
        refine ⟨rfl, rfl, v, hnone, rfl, ?_⟩
        rw [hindex]
        exact ⟨hv, hcoded⟩
    · cases hraises with
      | noCode | busError => simp [CommandError.code] at h2
      | badTable sub j hdefect => exact ⟨rfl, .inl ⟨rfl, hdefect.record⟩⟩
      | badStream sub j hsub hj =>
        refine ⟨rfl, .inr ⟨rfl, ?_, (toNat_sampleIndex hj.le).trans_lt hj⟩⟩
        rcases hsub with rfl | rfl <;> simp [CommandError.value]
    · cases hraises with
      | noCode | badTable | badStream => simp [CommandError.code] at h3
      | busError _ j base k hacc hbad hadm hfits => exact ⟨rfl, hacc.record hfits⟩

end Sys2Proof.Machine
end

section
/-!
NOP, CLEAR and FREQ (40_control, 41_frequency_analyzer).
-/

namespace Sys2Proof.Machine

/-- Settles O29: NOP is the completion alone. -/
theorem nopOnlyCompletes : Obligations.NopOnlyCompletes := fun _ => rfl

/-- Settles O30: CLEAR writes the datapath's reset values and completes. -/
theorem clearEmptiesTheDatapath : Obligations.ClearEmptiesTheDatapath :=
  fun s => ⟨finish (clearDatapath s), rfl, freq_reset, codes_reset, rfl, rfl, rfl, rfl⟩

/-- A region cannot be admitted in full where one of its addresses is not. -/
theorem not_allAdmitted {p : Platform} {b n m : Nat} (hm : m < n) (hbad : admitted p (b + m) = false) :
    ¬ AllAdmitted p { base := b, len := n } := by
  intro h
  rw [(allAdmitted_iff p b n).1 h m hm] at hbad
  cases hbad

/-- FREQ goes on where its region is plain memory. -/
theorem exec_freq {s : State} (h : PlainMemory s.platform { base := srcAddr s, len := sampleCount s }) :
    exec .freq s = .next (freqResult s) :=
  exec_of_duties (i := .freq) (duties_of_reads h rfl rfl)

/-- Settles O31: with every sample admitted FREQ ends with the counts of the matrix. -/
theorem freqCountsEverySample : Obligations.FreqCountsEverySample := by
  intro s hadm hplain
  rcases freqResult_cases s with ⟨-, hres⟩ | ⟨m, hm, -, hbad, -⟩
  · have hlen : (matrixAt s).length ≤ 65535 * 65535 := length_matrixAt s ▸ sampleCount_le s
    refine ⟨_, (exec_freq hplain).trans (congrArg _ hres), count_countSamples hlen, ?_, rfl⟩
    simp only [finish_results, setEmptyIf_results, symbolCount_eq_length, finish_freq, setEmptyIf_freq]
  · exact absurd hadm (not_allAdmitted hm hbad)

/-- Settles O32: FREQ ends at the lowest index whose address is not admitted, which is one only. -/
theorem freqBusErrorAtLowestIndex : Obligations.FreqBusErrorAtLowestIndex := by
  intro s i hi hbelow hbad hplain
  rcases freqResult_cases s with ⟨hadm, -⟩ | ⟨m, -, hbelow', hbad', hres⟩
  · exact absurd hadm (not_allAdmitted hi hbad)
  · obtain rfl := first_not_admitted hbelow hbelow' hbad hbad'
    exact ⟨_, (exec_freq hplain).trans (congrArg _ hres), freq_reset, Nat.le_of_lt_succ (fault_address_fits hbelow), rfl⟩

end Sys2Proof.Machine
end

section
/-!
TREE and CODES (42_tree_builder R131 to R134, 43_code_assigner R146, R148): the store that is built, its paths, and the complete
code they make.
-/

namespace Sys2Proof.Machine

/-! ### TREE -/

/-- There is no tree exactly where no value is present. -/
theorem isNone_buildTree (freq : Vector Word 256) : (buildTree freq).2.isNone = (presentValues freq).isEmpty := by
  rcases h : presentValues freq with _ | ⟨v, vs⟩
  · rw [buildTree_empty h]
    rfl
  · obtain ⟨merged, w, htree, -⟩ := buildTree_spec (freq := freq) (k := vs.length) (by rw [h]; rfl)
    rw [htree]
    rfl

/-- What the store built from k + 1 present values is: their leaves in ascending value, then k internal nodes, the root last;
the root's weight is the sum of the counts where it fits (42_tree_builder R131, R134). -/
theorem buildTree_layout {freq : Vector Word 256} {k : Nat} (h : (presentValues freq).length = k + 1) :
    (buildTree freq).1.length = 2 * k + 1 ∧ (buildTree freq).2 = some (2 * k) ∧
      (buildTree freq).1.take (k + 1) = (presentValues freq).map (fun v => Node.leaf v (tabGet freq v)) ∧
      (∀ i, k < i → i < 2 * k + 1 → ∃ w l r, (buildTree freq).1[i]? = some (Node.internal w l r)) ∧
      (weightAt (buildTree freq).1 (2 * k)).toNat % 2 ^ 32 =
        (allValues.map (fun v => (tabGet freq v).toNat)).sum % 2 ^ 32 := by
  obtain ⟨merged, w, htree, hmerged, hinternal, hmerging, hsum⟩ := buildTree_spec h
  have hlen : ((presentValues freq).map (fun v => Node.leaf v (tabGet freq v))).length = k + 1 := by
    rw [List.length_map, h]
  rw [htree]
  refine ⟨?_, rfl, List.take_left' hlen, fun i hlo hhi => ?_, ?_⟩
  · rw [List.length_append, hlen, hmerged]
    omega
  · rw [List.getElem?_append_right (by omega), hlen]
    have hi : i - (k + 1) < merged.length := by omega
    obtain ⟨v, l, r, hnode⟩ := hinternal merged[i - (k + 1)] (List.getElem_mem hi)
    exact ⟨v, l, r, by rw [List.getElem?_eq_getElem hi, hnode]⟩
  · rw [← hmerging.keys _ (List.mem_singleton.2 rfl)]
    exact hsum

/-- In a well-formed store of 2k + 1 nodes no leaf is deeper than k. -/
theorem length_followPath_le {nodes : List Node} {root : Option Nat} (h : NodeStoreOk nodes root) {k : Nat}
    (hlen : nodes.length = 2 * k + 1) {v : Byte} {p : BitString} (hp : followPath nodes (2 * k) p = some v) :
    p.length ≤ k := by
  obtain ⟨j, w, hj, -⟩ := followPath_eq_some.1 hp
  have hchildren : (childIndices nodes).length = 2 * k := by
    rw [h.ownedOnce.length_eq, List.length_range, hlen, Nat.add_sub_cancel]
  calc p.length ≤ internalsTo nodes (2 * k) := length_path_le h.childrenBelow hj
    _ = k := by rw [internalsTo, List.take_of_length_le hlen.le, hchildren, Nat.mul_div_cancel_left k (by decide)]

/-- Settles O34: the layout of the store that is built, which is well formed. -/
theorem treeBuildsTheNodeStore : Obligations.TreeBuildsTheNodeStore := by
  intro s
  refine ⟨treeResult s, rfl, fun hnone => ?_, fun k hk => ?_, ?_⟩
  · simp only [treeResult, buildTree_empty hnone]
    exact ⟨rfl, rfl, rfl, rfl⟩
  · obtain ⟨hlen, hroot, hleaves, hinternal, hweight⟩ := buildTree_layout hk
    have hok := nodeStoreOk_buildTree s.freq
    refine ⟨hlen, hroot, hleaves, hinternal, hok, fun hfits => ?_, fun v p hp => length_followPath_le hok hlen hp, ?_, ?_⟩
    · have hsum : (allValues.map (fun v => (tabGet s.freq v).toNat)).sum ≤ 65535 * 65535 := hfits
      rw [Nat.mod_eq_of_lt (BitVec.isLt _), Nat.mod_eq_of_lt (by omega)] at hweight
      exact hweight
    · exact congrArg (BitVec.ofNat 10) hlen
    · exact congrArg (rootWeightOf _) hroot
  · rw [treeResult, isNone_buildTree]
    rfl

/-- Settles O35: every merge of the loop takes the two smallest keys of its collection, the nodes without a parent. -/
theorem treeMergesTheTwoSmallestKeys : Obligations.TreeMergesTheTwoSmallestKeys := by
  intro s t h n w a b hn
  obtain rfl := eq_of_exec_next h
  rcases hpresent : presentValues s.freq with _ | ⟨v, vs⟩
  · simp [resultOf, treeResult, buildTree_empty hpresent] at hn
  · obtain ⟨merged, w', htree, -, -, hmerging, -⟩ := buildTree_spec (freq := s.freq) (k := vs.length) (by rw [hpresent]; rfl)
    have hnodes : (resultOf .tree s).nodes = (presentValues s.freq).map (fun v => Node.leaf v (tabGet s.freq v)) ++ merged :=
      congrArg Prod.fst htree
    rw [hnodes] at hn ⊢
    exact hmerging.smallest n w a b hn

/-! ### CODES -/

/-- Without a tree the code table is empty. -/
theorem codeTable_none (nodes : List Node) (v : Byte) : tabGet (codeTable nodes none) v = [] :=
  tabGet_tabOf (fun _ => []) v

/-- The table of a root that is a leaf. -/
theorem codeTable_leaf {nodes : List Node} {r : Nat} {v : Byte} {w : Word} (h : nodes[r]? = some (Node.leaf v w)) (u : Byte) :
    tabGet (codeTable nodes (some r)) u = if u = v then [false] else [] := by
  simp [codeTable, codeAssignments, h]

/-- The codes of a root that is an internal node are the paths to the leaves. -/
theorem codeTable_internal {nodes : List Node} {r : Nat} (hok : NodeStoreOk nodes (some r)) {w : Word} {a b : Nat}
    (h : nodes[r]? = some (Node.internal w a b)) (u : Byte) {p : BitString} (hp : p ≠ []) :
    tabGet (codeTable nodes (some r)) u = p ↔ followPath nodes r p = some u := by
  rw [tabGet_codeTable hok u hp, mem_codeAssignments hok]
  simp [h]

/-- CODES has no host duty. -/
theorem exec_codes (s : State) : exec .codes s = .next (codesResult s) := rfl

/-- CODES on a tree ends with its code table and the tree discarded (43_code_assigner R146). -/
theorem codesResult_some {s : State} {r : Nat} (h : s.root = some r) :
    codesResult s =
      { s with
        codes := codeTable s.nodes (some r), nodes := [], root := none
        results :=
          { s.results with
            codeEntries := BitVec.ofNat 9 (entryCount (codeTable s.nodes (some r)))
            maxCodeLen := BitVec.ofNat 8 (longestCode (codeTable s.nodes (some r)))
            treeNodes := 0#10, rootWeight := 0#32 }
        status := { s.status with done := true, err := false }
        errors := { s.errors with code := 0#4 }
        eng := .idle } := by
  rw [codesResult, h]
  rfl

/-- Settles O36: the codes by the kind of the root, and their summary. -/
theorem codesAreRootToLeafPaths : Obligations.CodesAreRootToLeafPaths := by
  intro s r hok hroot
  rw [hroot] at hok
  have hmax := toNat_longestCode (codesFit_codeTable hok)
  refine ⟨_, (exec_codes s).trans (congrArg _ (codesResult_some hroot)), fun v w hleaf u => codeTable_leaf hleaf u,
    fun w a b hint u p hp => codeTable_internal hok hint u hp, ?_, fun u => ?_, ?_, rfl⟩
  · rw [entryCount_eq]
    rfl
  · exact hmax.symm ▸ length_le_longestCode _ u
  · exact hmax.symm ▸ exists_length_eq_longestCode _

/-- Settles O37: without a tree CODES writes the empty table, whose summary is 0. -/
theorem codesWithoutATree : Obligations.CodesWithoutATree := by
  intro s hroot
  have hentries : entryCount (codeTable s.nodes none) = 0 := by
    rw [entryCount_eq, List.length_eq_zero_iff, List.filter_eq_nil_iff]
    simp [codeTable_none]
  have hmax : longestCode (codeTable s.nodes none) = 0 := by
    obtain ⟨v, hv⟩ := exists_length_eq_longestCode (codeTable s.nodes none)
    rw [← hv, codeTable_none, List.length_nil]
  refine ⟨codesResult s, rfl, fun v => ?_, ?_⟩
  · rw [codesResult, hroot]
    exact codeTable_none s.nodes v
  · simp only [codesResult, hroot, hentries, hmax]
    rfl

/-! ### The Huffman code -/

/-- The values of the store's leaves are the present ones. -/
theorem leafValues_buildTree (freq : Vector Word 256) : leafValues (buildTree freq).1 = presentValues freq := by
  rcases h : presentValues freq with _ | ⟨v, vs⟩
  · rw [buildTree_empty h]
    rfl
  · obtain ⟨merged, w, htree, -, hinternal, -⟩ := buildTree_spec (freq := freq) (k := vs.length) (by rw [h]; rfl)
    rw [htree, ← h]
    simp only [leafValues_append, leafValues_leaves, leafValues_internals hinternal, List.append_nil]

/-- An assignment is the code of its value. -/
theorem tabGet_codeTable_of_mem {nodes : List Node} {r : Nat} (hok : NodeStoreOk nodes (some r)) {e : Byte × BitString}
    (he : e ∈ codeAssignments nodes (some r)) : tabGet (codeTable nodes (some r)) e.1 = e.2 :=
  (tabGet_codeTable hok e.1 (codeAssignments_ne_nil hok he)).2 he

/-- In a well-formed store exactly the values of the leaves get a code. -/
theorem tabGet_codeTable_ne_nil_iff {nodes : List Node} {r : Nat} (hok : NodeStoreOk nodes (some r)) (v : Byte) :
    tabGet (codeTable nodes (some r)) v ≠ [] ↔ v ∈ leafValues nodes := by
  rw [← (codeAssignments_keys hok).mem_iff, List.mem_map]
  constructor
  · exact fun hv => ⟨_, (tabGet_codeTable hok v hv).1 rfl, rfl⟩
  · rintro ⟨e, he, rfl⟩
    exact tabGet_codeTable_of_mem hok he ▸ codeAssignments_ne_nil hok he

/-- The codes of a well-formed store whose root is an internal node are complete (43_code_assigner R148). -/
theorem kraft_codeTable {nodes : List Node} {r : Nat} (hok : NodeStoreOk nodes (some r)) {w : Word} {a b : Nat}
    (h : nodes[r]? = some (Node.internal w a b)) :
    ((leafValues nodes).map (fun v => 2 ^ (255 - (tabGet (codeTable nodes (some r)) v).length))).sum = 2 ^ 255 := by
  have hr : r < nodes.length := (List.getElem?_eq_some_iff.1 h).1
  have hassign : codeAssignments nodes (some r) = assignCodes nodes nodes.length r [] := by simp [codeAssignments, h]
  have hfit : ∀ e ∈ codeAssignments nodes (some r), e.2.length ≤ 255 := fun e he =>
    tabGet_codeTable_of_mem hok he ▸ codesFit_codeTable hok e.1
  calc ((leafValues nodes).map (fun v => 2 ^ (255 - (tabGet (codeTable nodes (some r)) v).length))).sum
      = (((codeAssignments nodes (some r)).map Prod.fst).map
          (fun v => 2 ^ (255 - (tabGet (codeTable nodes (some r)) v).length))).sum :=
        ((codeAssignments_keys hok).map _).sum_eq.symm
    _ = ((codeAssignments nodes (some r)).map (fun e => 2 ^ (255 - e.2.length))).sum := by
        rw [List.map_map]
        exact congrArg List.sum (List.map_congr_left fun e he => by
          rw [Function.comp_apply, tabGet_codeTable_of_mem hok he])
    _ = 2 ^ 255 := by
        rw [hassign] at hfit ⊢
        exact kraft_assignCodes 255 hok.childrenBelow hr hr hfit

/-- Settles O38: the store that TREE builds has the present values as its leaves, and CODES gives each its path. -/
theorem huffmanCodeIsCompletePrefixCode : Obligations.HuffmanCodeIsCompletePrefixCode := by
  intro s t u htree hcodes hpresent
  obtain rfl : t = treeResult s := eq_of_exec_next htree
  obtain rfl : u = codesResult (treeResult s) := eq_of_exec_next hcodes
  obtain ⟨k, hk⟩ := Nat.exists_eq_succ_of_ne_zero (mt List.length_eq_zero_iff.1 hpresent)
  obtain ⟨hlen, hroot, hleaves, hinternal, -⟩ := buildTree_layout hk
  have hok := nodeStoreOk_buildTree s.freq
  have htable : (codesResult (treeResult s)).codes = codeTable (buildTree s.freq).1 (some (2 * k)) :=
    congrArg (codeTable (buildTree s.freq).1) hroot
  rw [hroot] at hok
  simp only [codeAt, htable]
  refine ⟨fun v => ?_, prefixFree_codeTable _ _, codesFit_codeTable hok, fun v hv => ?_, fun h2 => ?_⟩
  · rw [tabGet_codeTable_ne_nil_iff hok, leafValues_buildTree]
    simp [presentValues, freqAt]
  · obtain rfl : k = 0 := by simpa [hv] using hk
    have hleaf : (buildTree s.freq).1[2 * 0]? = some (Node.leaf v (tabGet s.freq v)) := by
      have h0 := congrArg (fun l => l[0]?) hleaves
      simpa [hv] using h0
    rw [codeTable_leaf hleaf, if_pos rfl]
  · obtain ⟨w, a, b, hnode⟩ := hinternal (2 * k) (by omega) (by omega)
    rw [← leafValues_buildTree]
    exact kraft_codeTable hok hnode

end Sys2Proof.Machine
end

section
/-!
PACK and TSTORE (44_bitpacker_encoder): which of the answers of their runs a state gives, and the state they then end in. The end
states of PACK and UNPACK have one shape, which is said once.
-/

namespace Sys2Proof.Machine

/-! ### The ends of PACK and UNPACK -/

/-- What an error records (60_exceptions R202). -/
def CommandError.record (e : CommandError) : ErrorRegs :=
  { code := e.code, index := e.index, value := e.value, faultAddr := e.faultAddr }

/-- Raising an error sets ERR: no error has code 0 (60_exceptions R201). -/
theorem raise_eq (e : CommandError) (s : State) :
    raise e s =
      { s with status := { s.status with done := true, err := true }, errors := e.record, eng := .idle } := by
  cases e <;> rfl

/-- The end of PACK and UNPACK with success: the bytes written at DST_BASE, and the stream's length. -/
def streamDone (s : State) (out : List Byte) (streamBytes bits : Nat) : State :=
  finish (setEmptyIf (sampleCount s == 0)
    { s with
      mem := storeBytes s.mem (dstAddr s) out
      results := { s.results with streamBytes := BitVec.ofNat 32 streamBytes, streamLastBits := lastBits bits } })

/-- The end of PACK and UNPACK with an error: the bytes written so far, and no stream. -/
def streamAbort (s : State) (a : Abort) : State :=
  raise a.error
    { s with
      mem := storeBytes s.mem (dstAddr s) a.wrote
      results := { s.results with streamBytes := 0#32, streamLastBits := 0#4 } }

theorem packResult_of_ok {s : State} {d : PackDone} (h : packRun s = .ok d) :
    packResult s = streamDone s d.out d.out.length d.bits := by
  rw [packResult, h]
  rfl

theorem packResult_of_error {s : State} {a : Abort} (h : packRun s = .error a) : packResult s = streamAbort s a := by
  rw [packResult, h]
  rfl

theorem unpackResult_of_ok {s : State} {c : UnpackCursor} (h : unpackRun s = .ok c) :
    unpackResult s = streamDone s c.out (bytesFor c.pos) c.pos := by
  rw [unpackResult, h]
  rfl

theorem unpackResult_of_error {s : State} {a : Abort} (h : unpackRun s = .error a) : unpackResult s = streamAbort s a := by
  rw [unpackResult, h]
  rfl

/-- The state after an error of PACK or UNPACK, as the statements about them have it: `out` written at DST_BASE and nothing
after it, the results cleared, and `errors` recorded. -/
def StopsWith (s : State) (out : List Byte) (errors : ErrorRegs) (t : State) : Prop :=
  loadBytes t.mem (dstAddr s) out.length = out ∧
    (∀ a, a < dstAddr s ∨ dstAddr s + out.length ≤ a → Memory.read t.mem a = Memory.read s.mem a) ∧
    t = { s with
      mem := t.mem
      results := { s.results with streamBytes := 0#32, streamLastBits := 0#4 }
      status := { s.status with done := true, err := true }
      errors := errors
      eng := .idle }

theorem stopsWith_streamAbort {s : State} {a : Abort} (hwf : Memory.wf s.mem = true)
    (h : AllAdmitted s.platform { base := dstAddr s, len := a.wrote.length }) :
    StopsWith s a.wrote a.error.record (streamAbort s a) := by
  obtain ⟨hload, -, hout⟩ := storeBytes_region hwf h
  rw [streamAbort, raise_eq]
  exact ⟨hload, hout, rfl⟩

/-! ### PACK succeeds -/

/-- With every sample readable and coded and every output byte admitted PACK packs the whole matrix. -/
theorem packRun_complete {s : State} (hsrc : AllAdmitted s.platform { base := srcAddr s, len := sampleCount s })
    (hcoded : ∀ v ∈ matrixAt s, codeAt s v ≠ [])
    (hdst : AllAdmitted s.platform { base := dstAddr s, len := bytesFor (streamBits s (matrixAt s)).length }) :
    packRun s = .ok { out := packBytes (streamBits s (matrixAt s)), bits := (streamBits s (matrixAt s)).length } := by
  have hall := packedBits_all s _ (Nat.le_refl _)
  rcases packRun_spec s with ⟨hrun, -⟩ | ⟨i, a, -, hstop⟩ | ⟨c, -, hc, hpending, hbad⟩
  · exact hrun
  · cases hstop with
    | badRead c hi _ hbad => exact absurd hsrc (not_allAdmitted hi hbad)
    | noCode c hi _ _ hnone => exact absurd hnone (hcoded _ (List.mem_of_getElem? (getElem?_matrixAt s i hi)))
    | badWrite c out hi _ _ _ _ _ hlen _ hbad =>
      have hle := length_packedBits_mono (s := s) (show i + 1 ≤ sampleCount s by omega)
      rw [hall] at hle
      exact absurd hdst (not_allAdmitted (by unfold bytesFor; omega) hbad)
  · have hbits := congrArg List.length hc.bits
    have hpos := List.length_pos_of_ne_nil hpending
    rw [hall, List.length_append, length_bitsOfBytes] at hbits
    exact absurd hdst (not_allAdmitted (by unfold bytesFor; omega) hbad)

/-- Settles O39: the packed stream stands at DST_BASE, and a packed bit string reads back as itself and its padding. -/
theorem packWritesTheStream : Obligations.PackWritesTheStream := by
  intro s hwf hduties hsrc hcoded p n hdst
  have hres := packResult_of_ok (packRun_complete hsrc hcoded hdst)
  have hlen : (packBytes p).length = n := length_packBytes p
  simp only [show streamBits s (matrixAt s) = p from rfl] at hres
  rw [hlen] at hres
  obtain ⟨hload, -, hout⟩ := storeBytes_region (bs := packBytes p) hwf (hlen.symm ▸ hdst)
  rw [hlen] at hload hout
  refine ⟨_, (exec_of_duties hduties).trans (congrArg _ hres), ⟨_, bytesFor_pad_lt p.length, ?_⟩, hout, rfl, rfl⟩
  exact (congrArg bitsOfBytes hload).trans (bitsOfBytes_packBytes p)

/-! ### PACK stops -/

/-- Every sample before the one PACK has come to could be read and had a code. -/
theorem PackedBefore.good {s : State} {i m : Nat} {c : PackCursor} (h : PackedBefore s m c) (hm : m ≤ sampleCount s)
    (hi : i < m) : admitted s.platform (srcAddr s + i) = true ∧ codeAt s (Memory.read s.mem (srcAddr s + i)) ≠ [] :=
  ⟨(allAdmitted_iff _ _ _).1 h.sources i hi, codeAt_ne_nil_of_lt hi hm h.coded⟩

/-- The first sample that cannot be read or has no code ends PACK, where the full bytes before it can be written. -/
theorem packRun_badSample {s : State} {i : Nat} (hi : i < sampleCount s)
    (hcoded : ∀ u ∈ (matrixAt s).take i, codeAt s u ≠ [])
    (hsrc : AllAdmitted s.platform { base := srcAddr s, len := i })
    (hdst : AllAdmitted s.platform { base := dstAddr s, len := (packedBits s i).length / 8 })
    (hbad : admitted s.platform (srcAddr s + i) = false ∨ codeAt s (Memory.read s.mem (srcAddr s + i)) = []) :
    ∃ c, PackedBefore s i c ∧
      packRun s = .error
        { error :=
            if admitted s.platform (srcAddr s + i) then
              .inconsistentCodeTable i (Memory.read s.mem (srcAddr s + i))
            else .busError i (srcAddr s + i)
          wrote := c.out, read := 0 } := by
  have notGood : ¬ (admitted s.platform (srcAddr s + i) = true ∧ codeAt s (Memory.read s.mem (srcAddr s + i)) ≠ []) := by
    rintro ⟨hadm, hcode⟩
    rcases hbad with h | h
    · rw [h] at hadm
      cases hadm
    · exact hcode h
  have reached : ∀ {m c}, PackedBefore s m c → m ≤ sampleCount s → m ≤ i :=
    fun hc hm => not_lt.1 fun hlt => notGood (hc.good hm hlt)
  rcases packRun_spec s with ⟨-, hadm, hall, -⟩ | ⟨m, a, hrun, hstop⟩ | ⟨c, -, hc, -⟩
  · exact absurd ⟨(allAdmitted_iff _ _ _).1 hadm i hi, hall _ (List.mem_of_getElem? (getElem?_matrixAt s i hi))⟩ notGood
  · cases hstop with
    | badRead c hm hc hbad' =>
      rcases (reached hc hm.le).lt_or_eq with hlt | rfl
      · exact absurd hsrc (not_allAdmitted hlt hbad')
      · exact ⟨c, hc, by rw [hrun, hbad', if_neg Bool.false_ne_true]⟩
    | noCode c hm hc hadm hnone =>
      rcases (reached hc hm.le).lt_or_eq with hlt | rfl
      · exact absurd hnone (codeAt_ne_nil_of_lt hlt hi.le hcoded)
      · exact ⟨c, hc, by rw [hrun, if_pos hadm]⟩
    | badWrite c out hm hc hadm hcode _ _ hlen _ hbad' =>
      rcases (reached hc hm.le).lt_or_eq with hlt | rfl
      · have hle := length_packedBits_mono (s := s) (show m + 1 ≤ i from hlt)
        exact absurd hdst (not_allAdmitted (by omega) hbad')
      · exact absurd ⟨hadm, hcode⟩ notGood
  · exact absurd (reached hc (Nat.le_refl _)) (not_le.2 hi)

/-- Settles O40: PACK stops at the first bad sample, with the full bytes of the stream before it. -/
theorem packStopsAtFirstBadSample : Obligations.PackStopsAtFirstBadSample := by
  intro s i hwf hduties hi hcoded hsrc p hdst stopsWith
  have stop : (admitted s.platform (srcAddr s + i) = false ∨ codeAt s (Memory.read s.mem (srcAddr s + i)) = []) →
      stopsWith (CommandError.record (if admitted s.platform (srcAddr s + i) then
        .inconsistentCodeTable i (Memory.read s.mem (srcAddr s + i)) else .busError i (srcAddr s + i))) := by
    intro hbad
    obtain ⟨c, hc, hrun⟩ := packRun_badSample hi hcoded hsrc hdst hbad
    have hlen : c.out.length = p.length / 8 := hc.length_out
    obtain ⟨hload, hout, hstate⟩ := stopsWith_streamAbort hwf
      (a := { error := _, wrote := c.out, read := 0 }) (hlen.symm ▸ hdst)
    refine ⟨_, (exec_of_duties hduties).trans (congrArg _ (packResult_of_error hrun)), ?_, hlen ▸ hout, hstate⟩
    rw [← hlen, hload, hc.bitsOfBytes_out, hlen]
    rfl
  refine ⟨fun hbad => ?_, fun v hadm hv hnone => ?_⟩
  · have h := stop (.inl hbad)
    rwa [hbad, if_neg Bool.false_ne_true] at h
  · obtain rfl : Memory.read s.mem (srcAddr s + i) = v := Option.some.inj ((getElem?_matrixAt s i hi).symm.trans hv)
    have h := stop (.inr hnone)
    rwa [if_pos hadm] at h

/-- The first output byte that is not admitted ends PACK at the sample whose bits complete it, or at N for the padded one. -/
theorem packRun_badWrite {s : State} {i j : Nat} (hi : i ≤ sampleCount s)
    (hbefore : (packedBits s i).length < 8 * (j + 1)) (hafter : i < sampleCount s → 8 * (j + 1) ≤ (packedBits s (i + 1)).length)
    (hlast : i = sampleCount s → 8 * j < (packedBits s i).length)
    (hcoded : ∀ u ∈ (matrixAt s).take (i + 1), codeAt s u ≠ [])
    (hsrc : AllAdmitted s.platform { base := srcAddr s, len := min (i + 1) (sampleCount s) })
    (hdst : AllAdmitted s.platform { base := dstAddr s, len := j }) (hbad : admitted s.platform (dstAddr s + j) = false) :
    ∃ out, out.length = j ∧ bitsOfBytes out = (packedBits s (i + 1)).take (8 * j) ∧
      packRun s = .error { error := .busError i (dstAddr s + j), wrote := out, read := 0 } := by
  have room : ∀ {n}, AllAdmitted s.platform { base := dstAddr s, len := n } → n ≤ j :=
    fun h => not_lt.1 fun hlt => not_allAdmitted hlt hbad h
  have reached : ∀ {m c}, PackedBefore s m c → m ≤ sampleCount s → m ≤ i := by
    refine fun {m c} hc hm => not_lt.1 fun hlt => ?_
    have hle := length_packedBits_mono (s := s) (show i + 1 ≤ m from hlt)
    have hroom := room hc.room
    have := hafter (hlt.trans_le hm)
    rw [hc.length_out] at hroom
    omega
  rcases packRun_spec s with ⟨-, -, -, hadm⟩ | ⟨m, a, hrun, hstop⟩ | ⟨c, hrun, hc, -, hbad'⟩
  · have hroom := room hadm
    rw [← packedBits_all s _ (Nat.le_refl _), bytesFor] at hroom
    rcases hi.lt_or_eq with hlt | rfl
    · have hle := length_packedBits_mono (s := s) (show i + 1 ≤ sampleCount s from hlt)
      have := hafter hlt
      omega
    · have := hlast rfl
      omega
  · cases hstop with
    | badRead c hm hc hbad' => exact absurd hsrc (not_allAdmitted (lt_min (Nat.lt_succ_of_le (reached hc hm.le)) hm) hbad')
    | noCode c hm hc _ hnone =>
      have hmem : Memory.read s.mem (srcAddr s + m) ∈ (matrixAt s).take (i + 1) := by
        refine List.mem_of_getElem? (i := m) ?_
        rw [List.getElem?_take, if_pos (Nat.lt_succ_of_le (reached hc hm.le))]
        exact getElem?_matrixAt s m hm
      exact absurd hnone (hcoded _ hmem)
    | badWrite c out hm hc _ _ _ hprefix hlen hadm hbad' =>
      obtain rfl := first_not_admitted hdst hadm hbad hbad'
      have hmi : m = i := by
        refine (reached hc hm.le).eq_of_not_lt fun hlt => ?_
        have hle := length_packedBits_mono (s := s) (show m + 1 ≤ i from hlt)
        omega
      subst hmi
      exact ⟨out, rfl, by rw [List.prefix_iff_eq_take.1 hprefix, length_bitsOfBytes], hrun⟩
  · obtain rfl := first_not_admitted hdst hc.room hbad hbad'
    obtain rfl := le_antisymm hi (reached hc (Nat.le_refl _))
    refine ⟨c.out, rfl, ?_, hrun⟩
    rw [packedBits_all s _ (Nat.le_succ _), ← packedBits_all s _ (Nat.le_refl _), hc.length_out]
    exact hc.bitsOfBytes_out

/-- Settles O41: PACK stops at output byte j, the bytes before which are the stream's. -/
theorem packBusErrorOnOutputByte : Obligations.PackBusErrorOnOutputByte := by
  intro s i j hwf hduties hi p hbefore hafter hlast hcoded hsrc hdst hbad
  obtain ⟨out, rfl, hbits, hrun⟩ := packRun_badWrite hi hbefore hafter hlast hcoded hsrc hdst hbad
  obtain ⟨hload, hout, hstate⟩ := stopsWith_streamAbort hwf (a := { error := _, wrote := out, read := 0 }) hdst
  exact ⟨_, (exec_of_duties hduties).trans (congrArg _ (packResult_of_error hrun)), hload ▸ hbits, hout, hstate⟩

/-! ### TSTORE -/

/-- TSTORE goes on where its region is plain memory. -/
theorem exec_tstore {s : State} (h : PlainMemory s.platform { base := tableAddr s, len := (serializeTable s.codes).length }) :
    exec .tstore s = .next (tstoreResult s) :=
  exec_of_duties (i := .tstore) ⟨plain_empty _, h, fun a ha => apart_empty _ a ha.symm⟩

/-- Settles O43: the whole table is written, and it is the count and the entries. -/
theorem tstoreWritesTheTable : Obligations.TstoreWritesTheTable := by
  intro s hwf hadm hplain present k n
  rcases tstoreRun_spec s with ⟨hrun, -⟩ | ⟨j, hj, -, -, hbad⟩
  · obtain ⟨hload, -, hout⟩ := storeBytes_region hwf hadm
    refine ⟨tstoreResult s, exec_tstore hplain, ?_, ?_, ?_⟩
    · simp only [tstoreResult, hrun, finish_mem]
      refine hload.trans ?_
      rw [serializeTable_eq, entryCount_eq]
      rfl
    · simp only [tstoreResult, hrun, finish_mem]
      exact hout
    · simp only [tstoreResult, hrun]
      rfl
  · exact absurd hadm (not_allAdmitted hj hbad)

/-- Settles O44: the bytes below the first address that is not admitted are written. -/
theorem tstoreBusErrorAtOffset : Obligations.TstoreBusErrorAtOffset := by
  intro s j hwf hj hbelow hbad hplain
  rcases tstoreRun_spec s with ⟨-, hadm⟩ | ⟨m, -, hrun, hbelow', hbad'⟩
  · exact absurd hadm (not_allAdmitted hj hbad)
  · obtain rfl := first_not_admitted hbelow hbelow' hbad hbad'
    have hlen : ((serializeTable s.codes).take j).length = j := List.length_take_of_le hj.le
    obtain ⟨hload, -, hout⟩ := storeBytes_region (bs := (serializeTable s.codes).take j) hwf (hlen.symm ▸ hbelow)
    rw [hlen] at hload hout
    refine ⟨tstoreResult s, exec_tstore hplain, ?_, ?_, ?_⟩
    · simp only [tstoreResult, hrun, raise_eq]
      exact hload
    · simp only [tstoreResult, hrun, raise_eq]
      exact hout
    · simp only [tstoreResult, hrun, raise_eq]
      rfl

end Sys2Proof.Machine
end

section
/-!
TLOAD (45_bitpacker_decoder R176 to R179): which answer its run gives for the bytes that stand at TABLE_BASE, and the state it
then ends in.
-/

namespace Sys2Proof.Machine

/-! ### The ends of TLOAD -/

/-- TLOAD goes on where the bytes it reads are plain memory. -/
theorem exec_tload {s : State} {n : Nat} (hlen : (tloadRegions s).reads.len ≤ n)
    (hplain : PlainMemory s.platform { base := tableAddr s, len := n }) : exec .tload s = .next (tloadResult s) :=
  exec_of_duties (i := .tload) (duties_of_reads (hplain.mono hlen) rfl rfl)

/-- TLOAD's end with an error: TABLE_BYTES is 0 and the code table is as it was (45_bitpacker_decoder R176). -/
theorem tloadResult_of_error {s : State} {a : Abort} (h : tloadRun s = .error a) :
    tloadResult s =
      { s with
        results := { s.results with tableBytes := 0#32 }
        status := { s.status with done := true, err := true }
        errors := a.error.record
        eng := .idle } := by
  rw [tloadResult, h]
  exact raise_eq _ _

theorem exec_tload_of_error {s : State} {a : Abort} {n : Nat} (h : tloadRun s = .error a) (hn : a.read ≤ n)
    (hplain : PlainMemory s.platform { base := tableAddr s, len := n }) :
    exec .tload s = .next
      { s with
        results := { s.results with tableBytes := 0#32 }
        status := { s.status with done := true, err := true }
        errors := a.error.record
        eng := .idle } := by
  rw [← tloadResult_of_error h]
  exact exec_tload (by simpa only [tloadRegions, h] using hn) hplain

/-- Bytes at TABLE_BASE that are admitted. -/
theorem tableHas_zero {s : State} {bs : List Byte} (hload : loadBytes s.mem (tableAddr s) bs.length = bs)
    (hadm : AllAdmitted s.platform { base := tableAddr s, len := bs.length }) : TableHas s 0 bs := ⟨hload, hadm⟩

/-- Settles O45: the serialized table that stands at TABLE_BASE is loaded. -/
theorem tloadReadsASerializedTable : Obligations.TloadReadsASerializedTable := by
  intro s codes hpf hfit n hload hadm hplain
  have hrun := tloadRun_serialized hpf hfit (tableHas_zero hload hadm)
  have hmax := toNat_longestCode hfit
  have hcodes : (tloadResult s).codes = codes := by
    rw [tloadResult, hrun]
    rfl
  have hmaxLen : (tloadResult s).results.maxCodeLen = BitVec.ofNat 8 (longestCode codes) := by
    rw [tloadResult, hrun]
    rfl
  refine ⟨tloadResult s, exec_tload (by simp only [tloadRegions, hrun]; exact Nat.le_refl n) hplain, hcodes, ?_⟩
  rw [hmaxLen, hmax]
  refine ⟨length_le_longestCode codes, .inr (exists_length_eq_longestCode codes), ?_⟩
  rw [tloadResult, hrun, ← entryCount_eq]
  rfl

/-- Settles O47: TLOAD's errors are a defect of the table and a byte that cannot be read, and neither writes the code table. -/
theorem tloadFailureKeepsTheTable : Obligations.TloadFailureKeepsTheTable := by
  intro s t h herr
  obtain rfl : t = tloadResult s := eq_of_exec_next h
  rcases tloadRun_spec s with ⟨es, -, -, -, -, -, hrun⟩ | ⟨sub, j, r, -, hrun, -⟩ | ⟨r, -, hrun, -⟩
  · rw [tloadResult, hrun] at herr
    cases herr
  · rw [tloadResult_of_error hrun]
    exact ⟨.inl rfl, rfl⟩
  · rw [tloadResult_of_error hrun]
    exact ⟨.inr rfl, rfl⟩

/-! ### The next entry -/

/-- The least value of a next entry is one above the last entry's (45_bitpacker_decoder R176). -/
theorem lowAfter_eq : ∀ (es : List (Byte × BitString)) (low : Nat),
    lowAfter low es = (es.getLast?.map (fun e => e.1.toNat + 1)).getD low
  | [], _ => rfl
  | [_], _ => rfl
  | e :: d :: es, low => by
    rw [lowAfter, lowAfter_eq (d :: es), List.getLast?_cons_cons]
    simp [List.getLast?_cons]

theorem lowAfter_le_iff (es : List (Byte × BitString)) (v : Byte) :
    lowAfter 0 es ≤ v.toNat ↔ ∀ e ∈ es.getLast?, e.1 < v := by
  rw [lowAfter_eq]
  cases es.getLast? <;> simp [BitVec.lt_def]

/-- The table at TABLE_BASE begins with the count bytes and good entries; the bytes `more` follow. -/
structure TableStart (s : State) (es : List (Byte × BitString)) (lo hi : Byte) (more : List Byte) : Prop where
  head : TableHas s 0 (lo :: hi :: entriesBytes es)
  next : TableHas s (2 + (entriesBytes es).length) more
  rising : AscendingFrom 0 es
  fit : EntriesFit es

theorem tableStart_of_load {s : State} {es : List (Byte × BitString)} {lo hi : Byte} {more : List Byte}
    (hload : loadBytes s.mem (tableAddr s) (2 + (entriesBytes es).length + more.length) =
      lo :: hi :: (entriesBytes es ++ more))
    (hadm : AllAdmitted s.platform { base := tableAddr s, len := 2 + (entriesBytes es).length + more.length })
    (hrising : (es.map Prod.fst).Pairwise (· < ·)) (hfit : EntriesFit es) : TableStart s es lo hi more := by
  have hlen : 2 + (entriesBytes es).length + more.length = (lo :: hi :: (entriesBytes es ++ more)).length := by
    simp only [List.length_cons, List.length_append]
    omega
  rw [hlen] at hload hadm
  have hall : TableHas s 0 ((lo :: hi :: entriesBytes es) ++ more) := tableHas_zero hload hadm
  obtain ⟨hhead, hnext⟩ := tableHas_append.1 hall
  refine ⟨hhead, ?_, ascendingFrom_of_pairwise hrising fun _ _ => Nat.zero_le _, hfit⟩
  rwa [List.length_cons, List.length_cons, show 0 + ((entriesBytes es).length + 1 + 1) = 2 + (entriesBytes es).length by omega]
    at hnext

/-- Where the count asks for another entry, TLOAD's error is the one met in it. -/
theorem TableStart.run_next {s : State} {es : List (Byte × BitString)} {lo hi : Byte} {more : List Byte} {a : Abort}
    (h : TableStart s es lo hi more) (hk : countOf lo hi ≤ 256) (hes : es.length < countOf lo hi)
    (hnext : ∀ n, loadEntries s (n + 1) es.length (2 + (entriesBytes es).length) (lowAfter 0 es) (setAll noCodes es) =
      .error a) : tloadRun s = .error a := by
  rw [tloadRun_skip s lo hi es h.head hk hes.le h.rising h.fit,
    show countOf lo hi - es.length = countOf lo hi - es.length - 1 + 1 by omega, hnext]

section
variable {s : State} {n e off low : Nat} {t : Vector BitString 256} {v len : Byte} {bs : List Byte}

/-- A next entry whose value and length are good fails where its bits do. -/
theorem loadEntries_of_bits {a : Abort} (h : TableHas s off (v :: len :: bs)) (hlow : low ≤ v.toNat) (hlen : len ≠ 0#8)
    (hbits : loadBits s e (bytesFor len.toNat) len.toNat (off + 2) = .error a) :
    loadEntries s (n + 1) e off low t = .error a := by
  rw [loadEntries, h.byte]
  simp only [if_neg (not_lt.2 hlow), ((tableHas_cons.1 h).2).byte, if_neg hlen, hbits]

/-- No byte of the next entry can be read. -/
theorem loadEntries_noValue (hbad : admitted s.platform (tableAddr s + off) = false) :
    loadEntries s (n + 1) e off low t = .error (tableBusError s off) := by
  rw [loadEntries, tableByte_of_not_admitted hbad]

/-- Of the next entry the value alone can be read. -/
theorem loadEntries_noLen (h : TableHas s off [v]) (hlow : low ≤ v.toNat)
    (hbad : admitted s.platform (tableAddr s + (off + 1)) = false) :
    loadEntries s (n + 1) e off low t = .error (tableBusError s (off + 1)) := by
  rw [loadEntries, h.byte]
  simp only [if_neg (not_lt.2 hlow), tableByte_of_not_admitted hbad]

/-- The next entry's value is not above the last one's: sub-cause 2 (45_bitpacker_decoder R179). -/
theorem loadEntries_lowValue (h : TableHas s off [v]) (hlow : v.toNat < low) :
    loadEntries s (n + 1) e off low t = .error (tableCorrupt 2 e (off + 1)) := by
  rw [loadEntries, h.byte]
  simp only [if_pos hlow]

/-- The next entry's length is 0: sub-cause 3 (45_bitpacker_decoder R179). -/
theorem loadEntries_zeroLen (h : TableHas s off [v, 0#8]) (hlow : low ≤ v.toNat) :
    loadEntries s (n + 1) e off low t = .error (tableCorrupt 3 e (off + 2)) := by
  rw [loadEntries, h.byte]
  simp only [if_neg (not_lt.2 hlow), ((tableHas_cons.1 h).2).byte, if_true]

/-- A byte that stands in the table is admitted. -/
theorem TableHas.admitted_of_lt {k : Nat} (h : TableHas s off bs) (hk : k < bs.length) :
    admitted s.platform (tableAddr s + (off + k)) = true := by
  rw [← Nat.add_assoc]
  exact (allAdmitted_iff _ _ _).1 h.2 k hk

/-- A code's bytes before the last one hold code bits only, so the first of them that cannot be read ends TLOAD. -/
theorem loadBits_badByte {left : Nat} (h : TableHas s off bs) (hlt : bs.length < bytesFor left)
    (hbad : admitted s.platform (tableAddr s + (off + bs.length)) = false) :
    loadBits s e (bytesFor left) left off = .error (tableBusError s (off + bs.length)) := by
  have stops : ∀ {cs : List Byte}, TableHas s off cs → cs.length ≤ bs.length := fun hcs => not_lt.1 fun hlt => by
    rw [hcs.admitted_of_lt hlt] at hbad
    cases hbad
  rcases loadBits_spec s e (bytesFor left) left off with ⟨cs, hlen, hcs, -⟩ | ⟨cs, -, hcs, ⟨q, hq, hone⟩, -⟩ |
    ⟨cs, -, hcs, -, hbad', hrun⟩
  · exact absurd (stops hcs) (not_le.2 (hlen ▸ hlt))
  · have hql : q < (bitsOfBytes cs).length := (List.getElem?_eq_some_iff.1 hone).1
    have hle := stops hcs
    rw [length_bitsOfBytes] at hql
    unfold bytesFor at hlt
    omega
  · rw [hrun]
    have hle : bs.length ≤ cs.length := not_lt.1 fun hlt => by
      rw [h.admitted_of_lt hlt] at hbad'
      cases hbad'
    rw [le_antisymm (stops hcs) hle]

/-- A padding bit that is 1 among a code's bytes: sub-cause 4 (45_bitpacker_decoder R179). -/
theorem loadBits_padding {left q : Nat} (h : TableHas s off bs) (hlen : bs.length = bytesFor left) (hq : left ≤ q)
    (hone : (bitsOfBytes bs)[q]? = some true) :
    ∃ r, r ≤ off + bs.length ∧ loadBits s e (bytesFor left) left off = .error (tableCorrupt 4 e r) := by
  rcases loadBits_spec s e (bytesFor left) left off with ⟨cs, hcslen, hcs, hclear, -⟩ | ⟨cs, hle, -, -, hrun⟩ |
    ⟨cs, hlt, -, -, hbad, -⟩
  · have hsame : cs = bs :=
      (tableHas_prefix hcs h (hcslen.trans hlen.symm).le).eq_of_length (hcslen.trans hlen.symm)
    exact absurd hone (hsame ▸ hclear q hq)
  · exact ⟨_, by omega, hrun⟩
  · rw [h.admitted_of_lt (hlen ▸ hlt)] at hbad
    cases hbad

end

/-! ### BUS_ERROR -/

/-- Settles O46: the byte at offset j is the first that TLOAD cannot read, and no byte before it shows a defect. -/
theorem tloadBusErrorAtOffset : Obligations.TloadBusErrorAtOffset := by
  intro s failsAt firstBad
  have fails : ∀ {j : Nat}, firstBad j → tloadRun s = .error (tableBusError s j) → failsAt j :=
    fun hj hrun => exec_tload_of_error hrun (Nat.le_refl _) hj.2.2
  refine ⟨fun codes j hfit hj hload hbad => ?_, fun hbad => ?_, fun hbad => ?_, ?_⟩
  · have hlen : ((serializeTable codes).take j).length = j := List.length_take_of_le hj.le
    exact fails hbad (tloadRun_cut hfit hj (tableHas_zero (hlen.symm ▸ hload) (hlen.symm ▸ hbad.1)) hbad.2.1)
  · refine fails hbad ?_
    rw [tloadRun, tableByte_of_not_admitted hbad.2.1]
  · have h0 : admitted s.platform (tableAddr s + 0) = true := (allAdmitted_iff _ _ _).1 hbad.1 0 Nat.one_pos
    refine fails hbad ?_
    rw [tloadRun, tableByte_of_admitted h0]
    simp only [tableByte_of_not_admitted hbad.2.1]
  · intro es lo hi more entries n hload hbad hrising hfit hk hes hmore
    have hstart := tableStart_of_load hload hbad.1 hrising hfit
    have hn : n = 2 + (entriesBytes es).length + more.length := rfl
    refine fails hbad (hstart.run_next hk hes fun m => ?_)
    have hnext := hstart.next
    have hbyte := hbad.2.1
    rcases hmore with rfl | ⟨v, tail, rfl, hv, rfl | ⟨len, bs, rfl, hlen, hbs⟩⟩
    · exact loadEntries_noValue hbyte
    · exact loadEntries_noLen hnext ((lowAfter_le_iff es v).2 hv) hbyte
    · have hbits : TableHas s (2 + (entriesBytes es).length + 2) bs :=
        (tableHas_cons.1 (tableHas_cons.1 hnext).2).2
      have hoff : n = 2 + (entriesBytes es).length + 2 + bs.length := by
        rw [hn, List.length_cons, List.length_cons]
        omega
      rw [hoff] at hbyte ⊢
      exact loadEntries_of_bits hnext ((lowAfter_le_iff es v).2 hv) hlen (loadBits_badByte hbits hbs hbyte)

/-! ### Defects -/

/-- Entries of which one's code begins another's make no `PrefixFreeCodes`. -/
theorem not_prefixFree_setAll {es : List (Byte × BitString)} (hn : (es.map Prod.fst).Nodup) (hfit : EntriesFit es)
    {d e : Byte × BitString} (hd : d ∈ es) (he : e ∈ es) (hne : d.1 ≠ e.1) (hprefix : d.2 <+: e.2) :
    ¬ PrefixFreeCodes (setAll noCodes es) := by
  have code : ∀ {e}, e ∈ es → tabGet (setAll noCodes es) e.1 = e.2 :=
    fun he => tabGet_setAll_of_mem noCodes (fun d hd h => entries_agree hn hd he h) he
  intro hpf
  refine hpf d.1 e.1 hne ?_ ?_ ?_
  · exact code hd ▸ (hfit d hd).1
  · exact code he ▸ (hfit e he).1
  · rwa [code hd, code he]

/-- A table of exactly these entries, in which a code begins another one: sub-cause 5 (45_bitpacker_decoder R179). -/
theorem TableStart.run_conflict {s : State} {es : List (Byte × BitString)} {lo hi : Byte} {more : List Byte}
    (h : TableStart s es lo hi more) (hk : countOf lo hi ≤ 256) (hes : countOf lo hi = es.length)
    (hconflict : ¬ PrefixFreeCodes (setAll noCodes es)) :
    tloadRun s = .error (tableCorrupt 5 (countOf lo hi) (2 + (entriesBytes es).length)) := by
  rw [tloadRun_skip s lo hi es h.head hk hes.ge h.rising h.fit, Nat.sub_eq_zero_of_le hes.le, loadEntries]
  simp only [mt (prefixFree_iff _).1 hconflict, if_neg, Bool.false_eq_true, not_false_eq_true]

/-- A count above 256: sub-cause 1 (45_bitpacker_decoder R179). -/
theorem TableStart.run_count {s : State} {es : List (Byte × BitString)} {lo hi : Byte} {more : List Byte}
    (h : TableStart s es lo hi more) (hk : 256 < countOf lo hi) : tloadRun s = .error (tableCorrupt 1 0 2) := by
  rw [tloadRun, h.head.byte]
  simp only [((tableHas_cons.1 h.head).2).byte]
  exact if_pos hk

/-- Settles O48: the good entries are read, and what stands next decides the sub-cause. -/
theorem tloadReportsTheFirstDefect : Obligations.TloadReportsTheFirstDefect := by
  intro s es lo hi more entries k n hload hadm hplain hrising hfit fails
  have hstart := tableStart_of_load hload hadm hrising hfit
  have hnext := hstart.next
  have hn : n = 2 + (entriesBytes es).length + more.length := rfl
  have failed : ∀ {sub index r : Nat}, tloadRun s = .error (tableCorrupt sub index r) → r ≤ n → fails sub index :=
    fun hrun hr => ⟨_, exec_tload_of_error hrun hr hplain, rfl⟩
  refine ⟨fun hk => ?_, fun hk hes v hmore hv => ?_, fun hk hes v hmore hv => ?_,
    fun hk hes v len bs hmore hv hlen hbs hpad => ?_, fun hk hes hmore hconflict => ?_⟩
  · exact failed (hstart.run_count hk) (by omega)
  · rw [hmore] at hnext hn
    have hlow : v.toNat < lowAfter 0 es := by
      obtain ⟨e, he, hve⟩ := hv
      exact not_le.1 fun hle => absurd ((lowAfter_le_iff es v).1 hle e he) (BitVec.not_lt.2 hve)
    exact failed (hstart.run_next hk hes fun m => loadEntries_lowValue hnext hlow) hn.ge
  · rw [hmore] at hnext hn
    exact failed (hstart.run_next hk hes fun m => loadEntries_zeroLen hnext ((lowAfter_le_iff es v).2 hv)) hn.ge
  · rw [hmore] at hnext hn
    obtain ⟨q, hq, hone⟩ := hpad
    have hbits : TableHas s (2 + (entriesBytes es).length + 2) bs := (tableHas_cons.1 (tableHas_cons.1 hnext).2).2
    obtain ⟨r, hr, hrun⟩ := loadBits_padding (e := es.length) hbits hbs hq hone
    refine failed (hstart.run_next hk hes fun m => loadEntries_of_bits hnext ((lowAfter_le_iff es v).2 hv) hlen hrun) ?_
    rw [List.length_cons, List.length_cons] at hn
    omega
  · obtain ⟨d, hd, e, he, hne, hprefix⟩ := hconflict
    exact failed (hstart.run_conflict hk hes (not_prefixFree_setAll hstart.rising.nodup hfit hd he hne hprefix)) (by omega)

end Sys2Proof.Machine
end

section
/-!
UNPACK (45_bitpacker_decoder R183 to R185): it decodes the codes that begin the stream, and what comes after them decides how it
ends.
-/

namespace Sys2Proof.Machine

/-! ### The stream -/

/-- A bit string that begins the first n bytes of the stream is read from its start. -/
theorem reads_of_prefix {s : State} {n : Nat} {q : BitString} (h : q <+: bitsOfBytes (loadBytes s.mem (srcAddr s) n)) :
    Reads s 0 q := by
  have hlen : q.length ≤ 8 * n := by simpa using h.length_le
  exact (reads_iff s n q 0 (by omega)).2 h

/-- UNPACK has decoded and written `vs`: what is left of its run starts at a cursor after their codes. -/
structure Decoded (s : State) (vs : List Byte) (c : UnpackCursor) : Prop where
  run : unpackRun s = unpackSamples s (sampleCount s - vs.length) vs.length c
  pos : c.pos = (streamBits s vs).length
  out : c.out = vs
  cursor : CursorOk s c

/-- UNPACK decodes the samples whose codes begin the stream (45_bitpacker_decoder R183). -/
theorem exists_decoded {s : State} {vs : List Byte} (hpf : PrefixFreeCodes s.codes) (hle : vs.length ≤ sampleCount s)
    (hcoded : ∀ v ∈ vs, codeAt s v ≠ []) (hreads : Reads s 0 (streamBits s vs))
    (havail : Available s (streamBits s vs).length)
    (hdst : AllAdmitted s.platform { base := dstAddr s, len := vs.length }) : ∃ c, Decoded s vs c := by
  obtain ⟨c, hrun, hpos, hout, hcursor⟩ := unpackSamples_skip s hpf vs (sampleCount s - vs.length) 0
    { pos := 0, cur := 0#8, out := [] } (cursorOk_start s) hcoded hreads (by rwa [Nat.zero_add])
    (fun k hk => by rw [Nat.zero_add]; exact (allAdmitted_iff _ _ _).1 hdst k hk)
  rw [Nat.sub_add_cancel hle, Nat.zero_add] at hrun
  exact ⟨c, hrun, by rw [hpos, Nat.zero_add], hout, hcursor⟩

/-- The bits after the codes of the decoded samples are read next. -/
theorem Decoded.reads_next {s : State} {vs : List Byte} {c : UnpackCursor} {q : BitString} (h : Decoded s vs c)
    (hreads : Reads s 0 (streamBits s vs ++ q)) : Reads s c.pos q := by
  have hrest := (Reads.append.1 hreads).2
  rwa [Nat.zero_add, ← h.pos] at hrest

/-- An error while the next sample is decoded is UNPACK's error. -/
theorem Decoded.run_of_error {s : State} {vs : List Byte} {c : UnpackCursor} {a : Abort} (h : Decoded s vs c)
    (hlt : vs.length < sampleCount s) (ha : decodeSample s vs.length (longestCode s.codes + 1) [] c = .error a) :
    unpackRun s = .error a := by
  rw [h.run, show sampleCount s - vs.length = sampleCount s - vs.length - 1 + 1 by omega, unpackSamples, ha]

/-- UNPACK's end with an error. -/
theorem exec_unpack_of_error {s : State} {a : Abort} (hwf : Memory.wf s.mem = true) (hduties : DutiesKept .unpack s)
    (hrun : unpackRun s = .error a) (hdst : AllAdmitted s.platform { base := dstAddr s, len := a.wrote.length }) :
    ∃ t, exec .unpack s = .next t ∧ StopsWith s a.wrote a.error.record t :=
  ⟨_, (exec_of_duties hduties).trans (congrArg _ (unpackResult_of_error hrun)), stopsWith_streamAbort hwf hdst⟩

/-! ### How UNPACK ends -/

/-- Settles O50: with the codes of all N samples in the stream nothing is left to decode after them. -/
theorem unpackDecodesTheStream : Obligations.UnpackDecodesTheStream := by
  intro s vs hwf hduties hpf hlen hcoded p n hn hprefix hsrc hdst
  obtain ⟨c, hdec⟩ := exists_decoded hpf hlen.le hcoded (reads_of_prefix hprefix) ⟨hn, hsrc⟩ (hlen ▸ hdst)
  have hrun : unpackRun s = .ok c := by rw [hdec.run, hlen, Nat.sub_self, unpackSamples]
  have hres := unpackResult_of_ok hrun
  rw [hdec.pos, hdec.out] at hres
  obtain ⟨hload, -, hout⟩ := storeBytes_region (bs := vs) hwf (hlen ▸ hdst)
  rw [hlen] at hload hout
  exact ⟨_, (exec_of_duties hduties).trans (congrArg _ hres), hload, hout, rfl⟩

/-- A code that the end of the stream, or a byte that is not admitted, cuts off at a byte boundary ends UNPACK's run there. -/
theorem unpackRun_cut {s : State} {vs : List Byte} {q : BitString} {m : Nat} (hpf : PrefixFreeCodes s.codes)
    (hlt : vs.length < sampleCount s) (hcoded : ∀ v ∈ vs, codeAt s v ≠ [])
    (hq : q = [] ∨ ∃ u, q <+: codeAt s u ∧ q ≠ codeAt s u)
    (hbits : bitsOfBytes (loadBytes s.mem (srcAddr s) m) = streamBits s vs ++ q) (hm : m ≤ inByteCount s)
    (hsrc : AllAdmitted s.platform { base := srcAddr s, len := m })
    (hdst : AllAdmitted s.platform { base := dstAddr s, len := vs.length }) :
    (m = inByteCount s →
      ∃ r, unpackRun s = .error { error := .corruptArtifact 6 vs.length, wrote := vs, read := r }) ∧
    (m < inByteCount s → admitted s.platform (srcAddr s + m) = false →
      ∃ r, unpackRun s = .error { error := .busError vs.length (srcAddr s + m), wrote := vs, read := r }) := by
  have hreads : Reads s 0 (streamBits s vs ++ q) := reads_of_prefix (n := m) (by rw [hbits])
  have hlen : (streamBits s vs).length + q.length = 8 * m := by
    rw [← List.length_append, ← hbits, length_bitsOfBytes, length_loadBytes]
  have havail : Available s (8 * m) := by
    rw [Available, bytesFor_mul]
    exact ⟨hm, hsrc⟩
  obtain ⟨c, hdec⟩ := exists_decoded hpf hlt.le hcoded (Reads.append.1 hreads).1 (havail.mono (by omega)) hdst
  obtain ⟨hexhausted, hbus⟩ := decodeSample_cut s vs.length hpf q c hdec.cursor (hdec.reads_next hreads) hq m
    (by rw [hdec.pos, hlen]) havail
  rw [hdec.out] at hexhausted hbus
  exact ⟨fun hend => (hexhausted hend).imp fun r ha => hdec.run_of_error hlt ha,
    fun hlt' hbad => (hbus hlt' hbad).imp fun r ha => hdec.run_of_error hlt ha⟩

/-- Settles O51: the run is cut off after `vs`, and each of its two errors leaves `vs` written. -/
theorem unpackNeedsAByteItCannotRead : Obligations.UnpackNeedsAByteItCannotRead := by
  intro s vs q m hwf hduties hpf hlt hcoded hq hbits hm hsrc hdst stopsWith
  obtain ⟨hexhausted, hbus⟩ := unpackRun_cut hpf hlt hcoded hq hbits hm hsrc hdst
  refine ⟨fun hend => ?_, fun hlt hbad => ?_⟩
  · obtain ⟨r, hrun⟩ := hexhausted hend
    exact exec_unpack_of_error hwf hduties hrun hdst
  · obtain ⟨r, hrun⟩ := hbus hlt hbad
    exact exec_unpack_of_error hwf hduties hrun hdst

/-- Settles O52: the sample is decoded, and its write is not admitted. -/
theorem unpackBusErrorOnSampleWrite : Obligations.UnpackBusErrorOnSampleWrite := by
  intro s vs v hwf hduties hpf hlt hcoded p n hn hprefix hsrc hdst hbad
  have hp : p = streamBits s vs ++ codeAt s v := by rw [← streamBits_singleton, ← streamBits_append]
  have hplen : p.length = (streamBits s vs).length + (codeAt s v).length := by rw [hp, List.length_append]
  have havail : Available s p.length := ⟨hn, hsrc⟩
  have hreads := reads_of_prefix hprefix
  rw [hp] at hreads
  obtain ⟨c, hdec⟩ := exists_decoded hpf hlt.le (fun u hu => hcoded u (by simp [hu])) (Reads.append.1 hreads).1
    (havail.mono (by omega)) hdst
  obtain ⟨c', hdecode, -, hout, -⟩ := decodeSample_code s vs.length hpf v c (hcoded v (by simp)) hdec.cursor
    (hdec.reads_next hreads) (by rwa [hdec.pos, ← hplen])
  have hrun : unpackRun s = .error (unpackAbort (.busError vs.length (dstAddr s + vs.length)) c') := by
    rw [hdec.run, show sampleCount s - vs.length = sampleCount s - vs.length - 1 + 1 by omega, unpackSamples, hdecode]
    exact if_neg (Bool.eq_false_iff.1 hbad)
  rw [unpackAbort, hout, hdec.out] at hrun
  exact exec_unpack_of_error hwf hduties hrun hdst

/-- Settles O53: the bits after the decoded samples begin no code. -/
theorem unpackReportsDeadEnd : Obligations.UnpackReportsDeadEnd := by
  intro s vs q b hwf hduties hpf hlt hcoded hq hdead p n hn hprefix hsrc hdst
  have hplen : p.length = (streamBits s vs).length + (q ++ [b]).length := List.length_append
  have havail : Available s p.length := ⟨hn, hsrc⟩
  have hreads := reads_of_prefix hprefix
  obtain ⟨c, hdec⟩ := exists_decoded hpf hlt.le hcoded (Reads.append.1 hreads).1 (havail.mono (by omega)) hdst
  obtain ⟨r, ha⟩ := decodeSample_deadEnd s vs.length hpf q b c hdec.cursor
    (hdec.reads_next hreads) hq hdead (by rwa [hdec.pos, ← hplen])
  rw [hdec.out] at ha
  exact exec_unpack_of_error hwf hduties (hdec.run_of_error hlt ha) hdst

end Sys2Proof.Machine
end

section
/-!
The codec as a whole (45_bitpacker_decoder R187, R188): COMPRESS and then DECOMPRESS restore the matrix, and a stream one byte
short is found out.
-/

namespace Sys2Proof.Machine

/-! ### What a successful PACK leaves -/

/-- A PACK without an error has packed the whole matrix: every other answer of its run sets ERR. -/
theorem packRun_of_noError {s : State} (hok : (packResult s).status.err = false) :
    packRun s = .ok { out := packBytes (streamBits s (matrixAt s)), bits := (streamBits s (matrixAt s)).length } ∧
      (∀ v ∈ matrixAt s, codeAt s v ≠ []) ∧
      AllAdmitted s.platform { base := dstAddr s, len := bytesFor (streamBits s (matrixAt s)).length } := by
  have noError : ∀ {a : Abort}, packRun s ≠ .error a := by
    intro a hrun
    rw [packResult_of_error hrun, streamAbort, raise_eq] at hok
    cases hok
  rcases packRun_spec s with ⟨hrun, -, hcoded, hdst⟩ | ⟨i, a, hrun, -⟩ | ⟨c, hrun, -⟩
  · exact ⟨hrun, hcoded, hdst⟩
  · exact absurd hrun noError
  · exact absurd hrun noError

/-- A PACK without an error leaves the packed stream at DST_BASE and its length in STREAM_BYTES, and had a code for every
sample. -/
theorem packResult_of_noError {s : State} (hwf : Memory.wf s.mem = true) (hok : (packResult s).status.err = false) :
    loadBytes (packResult s).mem (dstAddr s) (bytesFor (streamBits s (matrixAt s)).length) =
        packBytes (streamBits s (matrixAt s)) ∧
      (packResult s).results.streamBytes.toNat = bytesFor (streamBits s (matrixAt s)).length ∧
      ∀ v ∈ matrixAt s, codeAt s v ≠ [] := by
  obtain ⟨hrun, hcoded, hdst⟩ := packRun_of_noError hok
  have hlen : (packBytes (streamBits s (matrixAt s))).length = bytesFor (streamBits s (matrixAt s)).length :=
    length_packBytes _
  have hfits : dstAddr s + bytesFor (streamBits s (matrixAt s)).length < 2 ^ 32 := fault_address_fits hdst
  obtain ⟨hload, -⟩ := storeBytes_region (bs := packBytes (streamBits s (matrixAt s))) hwf (hlen.symm ▸ hdst)
  rw [hlen] at hload
  rw [packResult_of_ok hrun]
  refine ⟨hload, ?_, hcoded⟩
  exact (congrArg (fun n => (BitVec.ofNat 32 n).toNat) hlen).trans (toNat_word (by omega))

/-! ### Truncation -/

/-- Fewer bits than a stream has are whole codes and a part of the next one. -/
theorem take_streamBits (s : State) : ∀ (vs : List Byte) (k : Nat), k < (streamBits s vs).length →
    ∃ us v rest q, vs = us ++ v :: rest ∧ (streamBits s vs).take k = streamBits s us ++ q ∧ q <+: codeAt s v ∧
      q ≠ codeAt s v
  | [], k, h => absurd h (Nat.not_lt_zero k)
  | w :: vs, k, h => by
    have hcons : ∀ us, streamBits s (w :: us) = codeAt s w ++ streamBits s us := fun us => rfl
    rw [hcons] at h ⊢
    rcases Nat.lt_or_ge k (codeAt s w).length with hlt | hge
    · refine ⟨[], w, vs, (codeAt s w).take k, rfl, ?_, List.take_prefix _ _, fun heq => ?_⟩
      · rw [List.take_append_of_le_length hlt.le]
        rfl
      · have hlen := congrArg List.length heq
        rw [List.length_take] at hlen
        omega
    · rw [List.length_append] at h
      obtain ⟨us, v, rest, q, hvs, htake, hq, hne⟩ := take_streamBits s vs (k - (codeAt s w).length) (by omega)
      refine ⟨w :: us, v, rest, q, by rw [hvs]; rfl, ?_, hq, hne⟩
      rw [List.take_append, List.take_of_length_le hge, htake, hcons, List.append_assoc]

/-- The same table gives the same codes. -/
theorem streamBits_congr {s u : State} (h : u.codes = s.codes) (vs : List Byte) : streamBits u vs = streamBits s vs := by
  have hcode : codeAt u = codeAt s := funext fun v => by rw [codeAt, codeAt, h]
  rw [streamBits, streamBits, hcode]

theorem bitsOfBytes_take {bs : List Byte} {m : Nat} (hm : m ≤ bs.length) :
    bitsOfBytes (bs.take m) = (bitsOfBytes bs).take (8 * m) := by
  have hlen : (bitsOfBytes (bs.take m)).length = 8 * m := by
    rw [length_bitsOfBytes, List.length_take_of_le hm]
  conv_rhs => rw [← List.take_append_drop m bs, bitsOfBytes_append, List.take_left' hlen]

/-- Fewer bytes than a packed bit string has carry its first bits and no padding. -/
theorem bitsOfBytes_take_packBytes {p : BitString} {m : Nat} (hm : m < bytesFor p.length) :
    bitsOfBytes ((packBytes p).take m) = p.take (8 * m) := by
  have hle : 8 * m ≤ p.length := by
    unfold bytesFor at hm
    omega
  rw [bitsOfBytes_take (by rw [length_packBytes]; exact hm.le), bitsOfBytes_packBytes, List.take_append_of_le_length hle]

/-- Settles O55: the bytes but the last hold whole codes and a part of the next one, and IN_BYTES ends the stream there. -/
theorem truncationIsDetected : Obligations.TruncationIsDetected := by
  intro s t u hwf hpf hsamples hexec hok hwidth hheight hcodes hsrc hinBytes hkept hduties hadm hdst
  obtain rfl : t = packResult s := eq_of_exec_next hexec
  obtain ⟨hload, hbytes, hcoded⟩ := packResult_of_noError hwf hok
  have hcount : sampleCount u = sampleCount s := by rw [sampleCount, sampleCount, hwidth, hheight]
  have haddr : srcAddr u = dstAddr s := congrArg BitVec.toNat hsrc
  have hshort : inByteCount u < bytesFor (streamBits s (matrixAt s)).length := by omega
  have hread : loadBytes u.mem (srcAddr u) (inByteCount u) = (packBytes (streamBits s (matrixAt s))).take (inByteCount u) := by
    rw [haddr, loadBytes_congr _ _ (packResult s).mem _ fun k hk => hkept _ (by omega) (by omega)]
    exact loadBytes_take (by rwa [length_packBytes]) (by rw [length_packBytes]; exact hshort.le)
  obtain ⟨us, v, rest, q, hvs, htake, hq, hne⟩ := take_streamBits s (matrixAt s) (8 * inByteCount u)
    (by unfold bytesFor at hshort; omega)
  have hlt : us.length < sampleCount u := by
    have hlen := congrArg List.length hvs
    rw [length_matrixAt, List.length_append, List.length_cons] at hlen
    omega
  have hcode : codeAt u = codeAt s := funext fun v => by rw [codeAt, codeAt, hcodes]
  obtain ⟨hexhausted, -⟩ := unpackRun_cut (s := u) (vs := us) (q := q) (hcodes ▸ hpf) hlt
    (fun v hv => by rw [hcode]; exact hcoded v (by simp [hvs, hv])) (.inr ⟨v, hcode ▸ hq, hcode ▸ hne⟩)
    (by rw [hread, bitsOfBytes_take_packBytes hshort, htake, streamBits_congr hcodes]) (Nat.le_refl _) hadm
    (hdst.mono hlt.le)
  obtain ⟨r, hrun⟩ := hexhausted rfl
  refine ⟨_, (exec_of_duties hduties).trans (congrArg _ (unpackResult_of_error hrun)), ?_⟩
  rw [streamAbort, raise_eq]
  exact ⟨rfl, rfl, rfl⟩

/-! ### Compression and decompression -/

/-- An address in one of two regions that are apart lies outside the other. -/
theorem Apart.outside {r q : Span} (h : Apart r q) {a : Nat} (hlo : r.base ≤ a) (hhi : a < r.base + r.len) :
    a < q.base ∨ q.base + q.len ≤ a := by
  by_contra hin
  rw [not_or, not_lt, not_le] at hin
  exact h a ⟨by simp [Span.has, hlo, hhi], by simp [Span.has, hin]⟩

/-- The artifact of a PACK and then a TSTORE without an error, whose two regions are apart: the stream and the serialized table
stand in memory, with their lengths in the result registers. -/
theorem artifact_of_noError {s : State} (hwf : Memory.wf s.mem = true) (hfit : CodesFit s.codes)
    (hpackOk : (packResult s).status.err = false) (hstoreOk : (tstoreResult (packResult s)).status.err = false)
    (hapart : Apart
      { base := dstAddr s, len := (tstoreResult (packResult s)).results.streamBytes.toNat }
      { base := tableAddr s, len := (tstoreResult (packResult s)).results.tableBytes.toNat }) :
    (tstoreResult (packResult s)).results.streamBytes.toNat = bytesFor (streamBits s (matrixAt s)).length ∧
      (tstoreResult (packResult s)).results.tableBytes.toNat = (serializeTable s.codes).length ∧
      loadBytes (tstoreResult (packResult s)).mem (dstAddr s) (bytesFor (streamBits s (matrixAt s)).length) =
        packBytes (streamBits s (matrixAt s)) ∧
      loadBytes (tstoreResult (packResult s)).mem (tableAddr s) (serializeTable s.codes).length = serializeTable s.codes := by
  obtain ⟨hload, hbytes, -⟩ := packResult_of_noError hwf hpackOk
  have hpackWf : Memory.wf (packResult s).mem = true := wf_resultOf .pack s hwf
  have hcodes : (packResult s).codes = s.codes := (codes_resultOf (i := .pack) (by decide) s).1
  have haddr : tableAddr (packResult s) = tableAddr s := by rw [tableAddr, packResult_frame, tableAddr]
  obtain ⟨hstored, hcount⟩ := tstoreResult_of_noError hpackWf hstoreOk
  have hstreamBytes : (tstoreResult (packResult s)).results.streamBytes.toNat =
      bytesFor (streamBits s (matrixAt s)).length := by rw [tstoreResult_frame, hbytes]
  have htableBytes : (tstoreResult (packResult s)).results.tableBytes.toNat = (serializeTable s.codes).length := by
    rw [hcount, hcodes, toNat_ofNat_length_serializeTable hfit]
  rw [hcodes, haddr] at hstored
  rw [hstreamBytes, htableBytes] at hapart
  refine ⟨hstreamBytes, htableBytes, ?_, hstored⟩
  rw [← hload]
  refine loadBytes_congr _ _ _ _ fun k hk => read_resultOf_outside .tstore (packResult s) hpackWf _ ?_
  have hlen : (commandWrites .tstore (packResult s)).2.length ≤ (serializeTable s.codes).length :=
    hcodes ▸ length_tstoreWrites (packResult s)
  have hbase : (commandWrites .tstore (packResult s)).1 = tableAddr s := haddr
  rw [hbase]
  exact (hapart.outside (Nat.le_add_right _ _) (Nat.add_lt_add_left hk _)).imp_right
    (le_trans (Nat.add_le_add_left hlen _))

/-- UNPACK on a packed stream restores its samples. -/
theorem unpack_artifact {s : State} {vs : List Byte} (hwf : Memory.wf s.mem = true) (hpf : PrefixFreeCodes s.codes)
    (hlen : vs.length = sampleCount s) (hsamples : sampleCount s ≠ 0) (hcoded : ∀ v ∈ vs, codeAt s v ≠ [])
    (hinBytes : inByteCount s = bytesFor (streamBits s vs).length)
    (hstream : loadBytes s.mem (srcAddr s) (bytesFor (streamBits s vs).length) = packBytes (streamBits s vs))
    (hsrc : AllAdmitted s.platform { base := srcAddr s, len := inByteCount s } ∧
      PlainMemory s.platform { base := srcAddr s, len := inByteCount s })
    (hdst : AllAdmitted s.platform { base := dstAddr s, len := sampleCount s } ∧
      PlainMemory s.platform { base := dstAddr s, len := sampleCount s })
    (hapart : Apart { base := srcAddr s, len := inByteCount s } { base := dstAddr s, len := sampleCount s }) :
    ∃ w, exec .unpack s = .next w ∧ w.status.err = false ∧ loadBytes w.mem (dstAddr s) (sampleCount s) = vs := by
  have hoverlap : overlapRegions .unpack s =
      { reads := { base := srcAddr s, len := inByteCount s }, writes := { base := dstAddr s, len := sampleCount s } } := by
    rw [overlapRegions, unpackOverlap, if_neg hsamples]
  have hduties : DutiesKept .unpack s :=
    ⟨hsrc.2.mono (length_unpackReads s), hdst.2, by rw [hoverlap]; exact hapart⟩
  have hprefix : streamBits s vs <+: bitsOfBytes (loadBytes s.mem (srcAddr s) (bytesFor (streamBits s vs).length)) := by
    rw [hstream, bitsOfBytes_packBytes]
    exact List.prefix_append _ _
  obtain ⟨w, hexec, hload, -, hw⟩ := unpackDecodesTheStream s vs hwf hduties hpf hlen hcoded hinBytes.ge hprefix
    (show AllAdmitted _ { base := _, len := bytesFor _ } from hinBytes ▸ hsrc.1) hdst.1
  exact ⟨w, hexec, by rw [hw], hload⟩

/-- The state in which TLOAD leaves the block when it has loaded a table. -/
def tableLoaded (u : State) (codes : Vector BitString 256) (maxLen : BitVec 8) : State :=
  { u with
    codes := codes
    results :=
      { u.results with
        tableBytes := BitVec.ofNat 32 (serializeTable codes).length
        codeEntries := BitVec.ofNat 9 (allValues.filter (fun v => tabGet codes v != [])).length
        maxCodeLen := maxLen }
    status := { u.status with done := true, err := false }
    errors := { u.errors with code := 0#4 }
    eng := .idle }

/-- TLOAD on a serialized table makes it the code table. -/
theorem tload_artifact {u : State} {codes : Vector BitString 256} (hpf : PrefixFreeCodes codes) (hfit : CodesFit codes)
    (htable : loadBytes u.mem (tableAddr u) (serializeTable codes).length = serializeTable codes)
    (htab : AllAdmitted u.platform { base := tableAddr u, len := (serializeTable codes).length } ∧
      PlainMemory u.platform { base := tableAddr u, len := (serializeTable codes).length }) :
    ∃ maxLen, exec .tload u = .next (tableLoaded u codes maxLen) := by
  obtain ⟨v, hexec, -, -, -, hv⟩ := tloadReadsASerializedTable u codes hpf hfit htable htab.1 htab.2
  exact ⟨v.results.maxCodeLen, hexec.trans (congrArg _ hv)⟩

/-- What FREQ, TREE and CODES leave for PACK: the matrix and the registers it is found by, memory, and a table whose codes
fit and do not begin each other. -/
theorem codesResult_treeResult_freqResult (s : State) :
    (codesResult (treeResult (freqResult s))).mem = s.mem ∧ (codesResult (treeResult (freqResult s))).cfg = s.cfg ∧
      PrefixFreeCodes (codesResult (treeResult (freqResult s))).codes ∧
      CodesFit (codesResult (treeResult (freqResult s))).codes := by
  refine ⟨?_, ?_, prefixFree_codeTable _ _, codesFit_codeTable (nodeStoreOk_buildTree (freqResult s).freq)⟩
  · exact show (freqResult s).mem = s.mem by rw [freqResult_frame]
  · exact show (freqResult s).cfg = s.cfg by rw [freqResult_frame]

/-- Settles O54: PACK had a code for every sample, TLOAD restores the table those codes come from, and UNPACK finds the codes of
the whole matrix in the stream. -/
theorem compressThenDecompressRestoresTheMatrix : Obligations.CompressThenDecompressRestoresTheMatrix := by
  intro s s1 s2 s3 s4 s5 u hwf huwf hsamples hfreq _ htree hcodes hpack hpackOk htstore htstoreOk hapart hwidth hheight
    hsrc htable hinBytes hstream htableKept hregions huapart
  obtain rfl : s1 = freqResult s := eq_of_exec_next hfreq
  obtain rfl : s2 = treeResult (freqResult s) := eq_of_exec_next htree
  obtain rfl : s3 = codesResult (treeResult (freqResult s)) := eq_of_exec_next hcodes
  obtain ⟨hmem, hcfg, hpf, hfit⟩ := codesResult_treeResult_freqResult s
  generalize codesResult (treeResult (freqResult s)) = c at *
  obtain rfl : s4 = packResult c := eq_of_exec_next hpack
  obtain rfl : s5 = tstoreResult (packResult c) := eq_of_exec_next htstore
  have hdstAddr : dstAddr s = dstAddr c := by rw [dstAddr, dstAddr, hcfg]
  have htabAddr : tableAddr s = tableAddr c := by rw [tableAddr, tableAddr, hcfg]
  have hcount : sampleCount s = sampleCount c := by rw [sampleCount, sampleCount, hcfg]
  have hmatrix : matrixAt s = matrixAt c := by rw [matrixAt, matrixAt, hcount, srcAddr, srcAddr, hcfg, hmem]
  rw [hdstAddr] at hapart hstream
  rw [htabAddr] at hapart htableKept
  rw [hcount] at hsamples
  rw [hmatrix]
  have hcwf : Memory.wf c.mem = true := hmem ▸ hwf
  obtain ⟨-, -, hcoded⟩ := packResult_of_noError hcwf hpackOk
  obtain ⟨hstreamLen, htableLen, hstored, htabStored⟩ := artifact_of_noError hcwf hfit hpackOk htstoreOk hapart
  rw [hstreamLen] at hstream
  rw [htableLen] at htableKept hregions
  have hsrcAddr : srcAddr u = dstAddr c := (congrArg BitVec.toNat hsrc).trans hdstAddr
  have htabAddr' : tableAddr u = tableAddr c := (congrArg BitVec.toNat htable).trans htabAddr
  have hcount' : sampleCount u = sampleCount c := by rw [← hcount, sampleCount, sampleCount, hwidth, hheight]
  have hulen : inByteCount u = bytesFor (streamBits c (matrixAt c)).length :=
    (congrArg BitVec.toNat hinBytes).trans hstreamLen
  have hustream : loadBytes u.mem (srcAddr u) (bytesFor (streamBits c (matrixAt c)).length) =
      packBytes (streamBits c (matrixAt c)) := by
    rw [hsrcAddr]
    exact (loadBytes_congr _ _ _ _ fun k hk => hstream _ (Nat.le_add_right _ _) (Nat.add_lt_add_left hk _)).trans hstored
  have hutable : loadBytes u.mem (tableAddr u) (serializeTable c.codes).length = serializeTable c.codes := by
    rw [htabAddr']
    exact (loadBytes_congr _ _ _ _ fun k hk => htableKept _ (Nat.le_add_right _ _) (Nat.add_lt_add_left hk _)).trans
      htabStored
  obtain ⟨huSrc, huDst, huTab, -⟩ := by simpa only [List.forall_mem_cons] using hregions
  obtain ⟨maxLen, hload⟩ := tload_artifact hpf hfit hutable huTab
  have hbits : streamBits (tableLoaded u c.codes maxLen) (matrixAt c) = streamBits c (matrixAt c) := streamBits_congr rfl _
  obtain ⟨w, hunpack, hok, hrestored⟩ := unpack_artifact (s := tableLoaded u c.codes maxLen) (vs := matrixAt c) huwf hpf
    ((length_matrixAt c).trans hcount'.symm) (hcount' ▸ hsamples) hcoded (hbits ▸ hulen) (hbits ▸ hustream)
    huSrc huDst huapart
  exact ⟨_, w, hload, rfl, hunpack, hok, hrestored⟩

end Sys2Proof.Machine
end
